-- ==== Sys2Proof/Word.lean ====
section
/-! DEFINITION. The word types of the engine: what the spec treats as bits (R11, R80, R84). -/

namespace Sys2Proof

/-- A data byte, an in-page offset, a wire byte (R11: register data width 8 bits). -/
abbrev Byte := BitVec 8

/-- A RegisterAddress (R11, R50): 16 bits. -/
abbrev RegAddr := BitVec 16

/-- A host command word (R81): 32 bits. -/
abbrev CommandWord := BitVec 32

/-- A host response word (R84): 64 bits. -/
abbrev ResponseWord := BitVec 64

/-- A device page number (R11): 4 pages. -/
abbrev Page := BitVec 2

end Sys2Proof
end

