-- ==== Sys2Proof/Config.lean ====
section
/-! DEFINITION. The configuration record of R9, the spec's example profile D37, and the free values. -/

namespace Sys2Proof

/-- The page cache's values (R22): INVALID, or one of the 4 pages. -/
inductive PageCache where
  | invalid
  | page (p : Page)
  deriving DecidableEq, Repr

/-- Chip-select granularity (R9, R194, R195). -/
inductive CsMode where
  | perTransaction
  | perAccess
  deriving DecidableEq, Repr

/-- A direction of the device interrupt line's edge (R9 `EDGE`, R220). -/
inductive Edge where
  | rising
  | falling
  deriving DecidableEq, Repr

/-- A ConfigEntry (R56): an "(address, value) pair" of the bulk entry buffer. -/
structure ConfigEntry where
  addr : RegAddr
  val  : Byte
  deriving DecidableEq, Repr, Inhabited

/-- The configuration record a model takes as a parameter (R9). -/
structure Config where
  cmdRead        : Byte
  cmdWrite       : Byte
  cmdFifoWrite   : Byte
  cmdFifoRead    : Byte
  dummyByte      : Byte
  pageSelAddr    : RegAddr
  shadowAddrAddr : RegAddr
  shadowValAddr  : RegAddr
  retryBound     : Nat
  pageCacheReset : PageCache
  csMode         : CsMode
  debugLockCheck : Bool
  edge           : Edge
  irqMaskReset   : Bool
  maxBulk        : Nat
  maxAccBits     : Nat
  deriving DecidableEq, Repr

/-- The example profile of D37, "not the real device's values". DESIGN CHOICE (log 1): the configuration of
`State.reset`; no statement about every state rests on it. -/
def Config.exampleProfile : Config where
  cmdRead        := 0xC1
  cmdWrite       := 0xC2
  cmdFifoWrite   := 0xC3
  cmdFifoRead    := 0xC4
  dummyByte      := 0x00
  pageSelAddr    := 0x00FF
  shadowAddrAddr := 0x00FE
  shadowValAddr  := 0x00FD
  retryBound     := 2
  pageCacheReset := .invalid
  csMode         := .perTransaction
  debugLockCheck := true
  edge           := .rising
  irqMaskReset   := false
  maxBulk        := 16
  maxAccBits     := 256

/-- `draw()` of R13 for a byte: the n-th free value of a run, under no law (DESIGN CHOICE, log 6). -/
opaque Config.freeByte : Nat → Byte

/-- A free bulk entry: what the engine uses for an entry of EB that a client changed in flight (I9; DEDUCED, log 8). -/
opaque Config.freeEntry : Nat → ConfigEntry

/-- What an entry of EB that no client has written holds (R241, I16; DEDUCED, log 7). -/
opaque Config.ebUnwritten : Nat → ConfigEntry

/-- What a byte of PB that no client has written holds (R241, I16; DEDUCED, log 7). -/
opaque Config.pbUnwritten : Nat → Byte

/-- What a bit of AB holds where nothing specified stands: after reset (R241), and at or above `total` after a FIFORDALL (R58, I8). The
first argument counts the FIFORDALL responses that left it unspecified, the second is its index (DEDUCED, log 9). -/
opaque Config.abUnspecified : Nat → Nat → Bool

end Sys2Proof
end

