-- ==== Sys2Proof/Syntax.lean ====
section
/-! DEFINITION. The instructions of the engine (R3): its host commands (R82) and the wire frames it emits (R88-R90). -/

namespace Sys2Proof

/-- One constructor per row of the opcode table: the seven host commands with the operand fields of R83, then the
four wire frames with the bytes that R88-R90 let vary. -/
inductive Instr where
  /-- `readRegister(addr)` (R137). -/
  | rdreg (addr : RegAddr)
  /-- `writeRegister(addr, val)` (R138). -/
  | wrreg (addr : RegAddr) (val : Byte)
  /-- `writeBulk(entries)`, the entries in EB (R139). -/
  | wrbulk (count : BitVec 16)
  /-- `writeFrame(bits)`, the payload in PB (R162). -/
  | fifowr (nbits : BitVec 9)
  /-- `readFrame()` (R166). -/
  | fiford
  /-- `readAll(buffer, maxBits)`, the buffer AB (R169). -/
  | fifordall (maxBits : BitVec 16)
  /-- Invalidate the page cache (R140). -/
  | pginv
  /-- Wire frame REG_READ(o) (R88). -/
  | regRead (off : Byte)
  /-- Wire frame REG_WRITE(o, v) (R88). -/
  | regWrite (off : Byte) (val : Byte)
  /-- Wire frame FIFO_WRITE with length byte L = nbits - 1, the payload in PB (R89). -/
  | fifoWrite (len : Byte)
  /-- Wire frame FIFO_READ (R90). -/
  | fifoRead
  deriving DecidableEq, Repr

end Sys2Proof
end

