-- ==== Sys2Proof/Machine/Operands.lean ====
section
/-! DEFINITION. The operand forms: RegisterAddress fields, protected targets, lengths, operand checks and the order of
bits on the line. Pure functions of the operands and the configuration. -/

namespace Sys2Proof.Machine

/-! ## RegisterAddress (R50, R51) -/

/-- The in-page offset `a[7:0]` (R50), the byte sent in the address phase. -/
def offsetOf (a : RegAddr) : Byte := a.extractLsb' 0 8

/-- The page `a[9:8]` (R50). -/
def pageOf (a : RegAddr) : Page := a.extractLsb' 8 2

/-- The reserved bits `a[15:10]` (R50). -/
def addrReserved (a : RegAddr) : BitVec 6 := a.extractLsb' 10 6

/-- An offset at or above the mirror threshold 0xA0 is on every page (R11, R51). -/
def mirroredOffset (o : Byte) : Bool := 0xA0 ≤ o.toNat

/-- A RegisterAddress that "never trigger[s] a switch" (R51). -/
def mirrored (a : RegAddr) : Bool := mirroredOffset (offsetOf a)

/-- The offset of the page-select register (R9, R135). -/
def pageSelOffset (cfg : Config) : Byte := offsetOf cfg.pageSelAddr

/-- The offset of the shadow register that holds the last written address (R9, R133). -/
def shadowAddrOffset (cfg : Config) : Byte := offsetOf cfg.shadowAddrAddr

/-- The offset of the shadow register that holds the last written value (R9, R133). -/
def shadowValOffset (cfg : Config) : Byte := offsetOf cfg.shadowValAddr

/-- The engine's protocol registers (R136); the comparison uses the low byte only. -/
def protocolOffset (cfg : Config) (o : Byte) : Bool :=
  o == pageSelOffset cfg || o == shadowAddrOffset cfg || o == shadowValOffset cfg

/-- The value that selects a page: the page number zero-extended to 8 bits (R135, D8). -/
def pageSelectValue (p : Page) : Byte := p.zeroExtend 8

/-! ## Configuration check (R10) -/

/-- A protocol register's address: bits [15:10] zero, low byte mirrored (R10). -/
def protocolAddrOk (a : RegAddr) : Bool := addrReserved a == 0 && mirrored a

/-- A configuration is well-formed (R10), with the ranges of R9 for the numeric parameters (DEDUCED, log 17). -/
def configWf (cfg : Config) : Bool :=
  decide ([cfg.cmdRead, cfg.cmdWrite, cfg.cmdFifoWrite, cfg.cmdFifoRead].Nodup
    ∧ protocolAddrOk cfg.pageSelAddr ∧ protocolAddrOk cfg.shadowAddrAddr ∧ protocolAddrOk cfg.shadowValAddr
    ∧ [pageSelOffset cfg, shadowAddrOffset cfg, shadowValOffset cfg].Nodup
    ∧ cfg.retryBound ≤ 255 ∧ 1 ≤ cfg.maxBulk ∧ cfg.maxBulk ≤ 65535 ∧ cfg.maxAccBits ≤ 65535)

/-! ## Lengths (R86, R89, R94) -/

/-- `ceil(n/8)` is `(n+7) div 8` (R12). -/
def ceilBytes (n : Nat) : Nat := (n + 7) / 8

/-- The wire length byte `L = nbits - 1` (R86, R89). -/
def lengthByte (nbits : BitVec 9) : Byte := BitVec.ofNat 8 (nbits.toNat - 1)

/-- The payload bytes of a FIFO_WRITE frame whose length byte is L: `ceil((L+1)/8)` (R92). -/
def payloadCount (len : Byte) : Nat := ceilBytes (len.toNat + 1)

/-! ## Operand checks at acceptance (R93) -/

/-- The checks of a command's operands that R93 makes before the bulk entries are looked at. -/
inductive OperandFault where
  | operandRange
  | addrReservedBits
  | protectedTarget
  deriving DecidableEq, Repr

/-- A read target: reserved address bits only; "RDREG of a protocol register is legal" (R93). -/
def readTargetFault (a : RegAddr) : Option OperandFault :=
  if addrReserved a = 0 then none else some .addrReservedBits

/-- A write target: reserved address bits, then protected targets (R93, R136). -/
def writeTargetFault (cfg : Config) (a : RegAddr) : Option OperandFault :=
  if addrReserved a ≠ 0 then some .addrReservedBits
  else if protocolOffset cfg (offsetOf a) then some .protectedTarget
  else none

/-- The first operand check of R93 that an instruction fails, its bulk entries aside. The wire frames carry no
operand outside their range. -/
def operandFault (cfg : Config) : Instr → Option OperandFault
  | .rdreg addr => readTargetFault addr
  | .wrreg addr _ => writeTargetFault cfg addr
  | .wrbulk count => if count.toNat ≤ cfg.maxBulk then none else some .operandRange
  | .fifowr nbits => if 1 ≤ nbits.toNat ∧ nbits.toNat ≤ 256 then none else some .operandRange
  | .fiford => none
  | .fifordall maxBits => if maxBits.toNat ≤ cfg.maxAccBits then none else some .operandRange
  | .pginv => none
  | .regRead _ => none
  | .regWrite _ _ => none
  | .fifoWrite _ => none
  | .fifoRead => none

/-! ## Bits of a byte on the line (R111) -/

/-- The transport bit order (R27). -/
inductive BitOrder where
  | msb
  | lsb
  deriving DecidableEq, Repr

/-- The 8 bits of a byte in the sequence they travel (R111; PRESUMED by the spec's G1, log 22). -/
def wireBits (o : BitOrder) (b : Byte) : List Bool :=
  match o with
  | .lsb => (List.range 8).map b.getLsbD
  | .msb => ((List.range 8).map b.getLsbD).reverse

/-- The number whose bit k is the k-th of the list. -/
def bitsToNat : List Bool → Nat
  | [] => 0
  | b :: bs => b.toNat + 2 * bitsToNat bs

/-- The byte assembled from 8 received bits, the first becoming bit 7 (MSB) or bit 0 (LSB) (R111). -/
def byteOfWire (o : BitOrder) (bits : List Bool) : Byte :=
  match o with
  | .lsb => BitVec.ofNat 8 (bitsToNat bits)
  | .msb => BitVec.ofNat 8 (bitsToNat bits.reverse)

/-- The bits of a sequence of bytes that travel in one order, as they appear on the line (R60). -/
def wireStream (o : BitOrder) (bytes : List Byte) : List Bool := bytes.flatMap (wireBits o)

end Sys2Proof.Machine
end

