-- ==== Sys2Proof/WellFormed.lean ====
section
/-! DEFINITION. Well-formed configurations and instructions: the checks of R10 and R93 on operands. -/

namespace Sys2Proof

/-- R10: a model has a machine only for a well-formed configuration. -/
def Config.wf (cfg : Config) : Bool := Sys2Proof.Machine.configWf cfg

/-- The instruction's operands are in their legal ranges (R83, R93); a WRBULK's entries are checked in their buffer, at
acceptance. -/
def Instr.wellFormed (cfg : Config) (i : Instr) : Bool := Sys2Proof.Machine.operandFault cfg i == none

end Sys2Proof
end

