-- ==== Sys2Proof/Decode.lean ====
section
/-! DEFINITION. The two decoders and encoders: 32-bit host command words (R81-R83, R93) and wire frames (R87-R92). -/

namespace Sys2Proof

/-- Why a command word selects no command (R93): the checks that need no operand value. -/
inductive CommandReject where
  | illegalOpcode
  | reservedField
  deriving DecidableEq, Repr

/-- Why a byte sequence opens with no whole wire frame (R87, R92). -/
inductive FrameReject where
  | noCommandByte
  | truncated
  deriving DecidableEq, Repr

/-! ## Host command words -/

/-- The opcode `OP`, bits [31:28] (R81). -/
def opcodeOf (w : CommandWord) : BitVec 4 := w.extractLsb' 28 4

/-- The operand word bits [15:0] (R83, R86). -/
def lowField (w : CommandWord) : BitVec 16 := w.extractLsb' 0 16

/-- A command whose reserved bits are checked: RESERVED_FIELD if one is set (R83, R93). -/
def checked (reservedZero : Bool) (i : Instr) : Except CommandReject Instr :=
  if reservedZero then .ok i else .error .reservedField

/-- The decoder of command words (R82, R83), total: the opcode is checked before the reserved bits (R93). -/
def decode (w : CommandWord) : Except CommandReject Instr :=
  match (opcodeOf w).toNat with
  | 1 => checked (w.extractLsb' 16 12 == 0) (.rdreg (lowField w))
  | 2 => checked (w.extractLsb' 24 4 == 0) (.wrreg (lowField w) (w.extractLsb' 16 8))
  | 3 => checked (w.extractLsb' 16 12 == 0) (.wrbulk (lowField w))
  | 4 => checked (w.extractLsb' 9 19 == 0) (.fifowr (w.extractLsb' 0 9))
  | 5 => checked (w.extractLsb' 0 28 == 0) .fiford
  | 6 => checked (w.extractLsb' 16 12 == 0) (.fifordall (lowField w))
  | 7 => checked (w.extractLsb' 0 28 == 0) .pginv
  | _ => .error .illegalOpcode

/-- The command word of a host command (R82, R83). A wire frame has none: the illegal all-zero word stands there. -/
def encode : Instr → CommandWord
  | .rdreg addr => 0x1#4 ++ 0#12 ++ addr
  | .wrreg addr val => 0x2#4 ++ 0#4 ++ val ++ addr
  | .wrbulk count => 0x3#4 ++ 0#12 ++ count
  | .fifowr nbits => 0x4#4 ++ 0#19 ++ nbits
  | .fiford => 0x50000000
  | .fifordall maxBits => 0x6#4 ++ 0#12 ++ maxBits
  | .pginv => 0x70000000
  | .regRead _ => 0
  | .regWrite _ _ => 0
  | .fifoWrite _ => 0
  | .fifoRead => 0

/-- The instruction is a host command (R82), not a wire frame. -/
def Instr.isCommand : Instr → Bool
  | .rdreg _ => true
  | .wrreg _ _ => true
  | .wrbulk _ => true
  | .fifowr _ => true
  | .fiford => true
  | .fifordall _ => true
  | .pginv => true
  | .regRead _ => false
  | .regWrite _ _ => false
  | .fifoWrite _ => false
  | .fifoRead => false

/-! ## Wire frames -/

/-- The bytes the engine sends for a wire frame (R88-R90), given the payload bytes of a FIFO_WRITE. A host command is
not a frame and sends none of itself. -/
def encodeFrame (cfg : Config) (payload : List Byte) : Instr → List Byte
  | .regRead off => [cfg.cmdRead, off, cfg.dummyByte]
  | .regWrite off val => [cfg.cmdWrite, off, val]
  | .fifoWrite len => cfg.cmdFifoWrite :: len :: payload
  | .fifoRead => [cfg.cmdFifoRead, cfg.dummyByte, cfg.dummyByte, cfg.dummyByte, cfg.dummyByte, cfg.dummyByte]
  | .rdreg _ => []
  | .wrreg _ _ => []
  | .wrbulk _ => []
  | .fifowr _ => []
  | .fiford => []
  | .fifordall _ => []
  | .pginv => []

/-- What a reader of the line makes of a byte sequence: its first frame, that frame's payload bytes, and the bytes after
it. The command byte and, for FIFO_WRITE, the length byte decide the length (R92). -/
def decodeFrame (cfg : Config) (bytes : List Byte) : Except FrameReject (Instr × List Byte × List Byte) :=
  match bytes with
  | [] => .error .truncated
  | b :: rest =>
    if b = cfg.cmdRead then
      match rest with
      | off :: _ :: rest => .ok (.regRead off, [], rest)
      | _ => .error .truncated
    else if b = cfg.cmdWrite then
      match rest with
      | off :: val :: rest => .ok (.regWrite off val, [], rest)
      | _ => .error .truncated
    else if b = cfg.cmdFifoWrite then
      match rest with
      | len :: rest =>
        if Sys2Proof.Machine.payloadCount len ≤ rest.length then
          .ok (.fifoWrite len, rest.take (Sys2Proof.Machine.payloadCount len),
            rest.drop (Sys2Proof.Machine.payloadCount len))
        else .error .truncated
      | [] => .error .truncated
    else if b = cfg.cmdFifoRead then
      match rest with
      | _ :: _ :: _ :: _ :: _ :: rest => .ok (.fifoRead, [], rest)
      | _ => .error .truncated
    else .error .noCommandByte

/-! ## The opcode table's numbering -/

/-- The first `n` bytes of a number, the least significant first. -/
def bytesOf (w : Nat) : Nat → List Byte
  | 0 => []
  | n + 1 => BitVec.ofNat 8 w :: bytesOf (w / 256) n

/-- The bytes of the longest wire frame: a FIFO_WRITE of 256 bits (R89). -/
def longestFrame : Nat := 34

/-- The instruction the decoders read from the bits of an opcode-table row: a 32-bit command word, or, for a row of another
width, a wire frame under the reset configuration (DESIGN CHOICE, log 20). The bits above `nbits` are zero. -/
def decodeTableWord (nbits w : Nat) : Option Instr :=
  if nbits = 32 then (decode (BitVec.ofNat 32 w)).toOption
  else ((decodeFrame Config.exampleProfile (bytesOf (w % 2 ^ nbits) longestFrame)).toOption).map (·.1)

end Sys2Proof
end

