-- ==== Sys2Proof/Machine/State.lean ====
section
/-! DEFINITION. The engine's state (R20), the commands in flight (R30, R34), the bus events (R117), the moves of the
agents (R191), the reasons a step can stop, and the state after engine reset (R240). Plain data throughout. -/

namespace Sys2Proof.Machine

/-- The two execution contexts, each with a command port (R190). -/
inductive Ctx where
  | fg
  | isr
  deriving DecidableEq, Repr

/-- The codes of the sticky fault register, 0 to 7 in this order (R210). -/
inductive FaultCode where
  | noFault
  | illegalOpcode
  | reservedField
  | addrReservedBits
  | operandRange
  | protectedTarget
  | lockReentry
  | fifoCountRange
  deriving DecidableEq, Repr

/-- What `raise` records (R29, R210): the command word and context, the entry index for a WRBULK entry, the status byte
for FIFO_COUNT_RANGE. -/
structure FaultInfo where
  word   : CommandWord
  ctx    : Ctx
  entry  : Option Nat
  status : Option Byte
  deriving DecidableEq, Repr

/-- The bus events of R117. -/
inductive Event where
  | xchg (tx rx : Byte) (order : BitOrder) (ctx : Ctx)
  | csAssert (ctx : Ctx)
  | csDeassert (ctx : Ctx)
  | order (o : BitOrder) (ctx : Ctx)
  | mask
  | unmask
  | lockAcq (ctx : Ctx)
  | lockRel (ctx : Ctx)
  | pginv (ctx : Ctx)
  | isrEnter
  | isrExit
  | resp (ctx : Ctx) (r : ResponseWord)
  | fault (code : FaultCode)
  deriving DecidableEq, Repr

/-- A wire frame being emitted (R88-R90). -/
inductive Frame where
  | regRead (off : Byte)
  | regWrite (off : Byte) (val : Byte)
  | fifoWrite (len : Byte)
  | fifoRead
  deriving DecidableEq, Repr

/-- Where the byte an exchange sends comes from: fixed by the frame, or byte k of PB (R161). -/
inductive TxSource where
  | byte (b : Byte)
  | payload (k : Nat)
  deriving DecidableEq, Repr

/-- The engine primitives, each one atomic step (R33). -/
inductive Prim where
  | mask
  | unmask
  | lockAcq
  | lockRel
  | csAssert
  | csDeassert
  | order (o : BitOrder)
  | xchg (src : TxSource)
  deriving DecidableEq, Repr

/-- What a verified write is for (R134): the page switch of R135, or the command's target. -/
inductive Purpose where
  | page
  | target
  deriving DecidableEq, Repr

/-- The three frames of one verified-write attempt (R133, R134). -/
inductive Stage where
  | write
  | addr
  | value
  deriving DecidableEq, Repr

/-- What a wire frame is for in its command's pseudocode. -/
inductive Role where
  | verify (purpose : Purpose) (stage : Stage)
  | read
  | fifo
  deriving DecidableEq, Repr

/-- The straight-line block a command is in (R34): not begun, the opening of its transaction, a wire frame, or the
closing of its transaction (R194, R195). -/
inductive Point where
  | accepted
  | opened
  | frame (f : Frame) (role : Role)
  | closed
  deriving DecidableEq, Repr

/-- A command in flight (R30): its word, its phase (R34: the block and the primitives left of it) and its locals. -/
structure InFlight where
  /-- The 32-bit command word (R30). -/
  word    : CommandWord
  /-- The block of the phase (R34). -/
  point   : Point
  /-- The primitives left of the block; the head is the next one (R34). -/
  todo    : List Prim
  /-- The attempt counter of `VerifiedWrite` (R134). -/
  attempt : Nat
  /-- The entry index `i` of WRBULK (R139). -/
  index   : Nat
  /-- The accumulated bit count `total` of FIFORDALL (R169). -/
  total   : Nat
  /-- The entry `(a, v)` WRBULK is at (R139). -/
  cur     : ConfigEntry
  /-- The address shadow `a'` of the current attempt (R134). -/
  shadowA : Byte
  /-- The responses of the current frame's exchanges, the first first (R131, R164). -/
  rx      : List Byte
  /-- `ok` of RDREG, WRREG and WRBULK (R137-R139). -/
  ok      : Bool
  /-- A client wrote the buffer this command reads while it was in flight (I9; DEDUCED, log 8). -/
  tainted : Bool
  deriving DecidableEq, Repr

/-- One move of an agent of R191 (DESIGN CHOICE, log 2). -/
inductive Move where
  /-- The client of a context issues a command word on its port (R190). -/
  | issue (ctx : Ctx) (word : CommandWord)
  /-- The slot of a context takes its step; if that is an exchange, the transport completes it with `rx` (R112). -/
  | engine (ctx : Ctx) (rx : Byte)
  /-- An edge of the device interrupt line (R220). -/
  | edge (e : Edge)
  /-- ISR_ENTER (R199). -/
  | isrEnter
  /-- ISR_EXIT (R200). -/
  | isrExit
  /-- The client of a context writes entry `i` of EB (R56). -/
  | writeEB (ctx : Ctx) (i : Nat) (e : ConfigEntry)
  /-- The client of a context writes byte `i` of PB (R57). -/
  | writePB (ctx : Ctx) (i : Nat) (b : Byte)
  deriving DecidableEq, Repr

/-- A memory: (index, content) cells with strictly rising indices; an index not listed has no content written. -/
abbrev Memory (α : Type) := List (Nat × α)

/-- The canonical form of a memory: indices strictly rising. -/
def Memory.wf {α : Type} (m : Memory α) : Bool := decide ((m.map (·.1)).Pairwise (· < ·))

/-- The state of the engine (R20, R38), with the model's own fields at the end. -/
structure State where
  /-- R22. -/
  pageCache  : PageCache
  /-- R23. -/
  lockHeld   : Bool
  /-- R23; `none` is NONE. -/
  lockOwner  : Option Ctx
  /-- R24. -/
  irqMasked  : Bool
  /-- R25. -/
  irqPending : Bool
  /-- R26. -/
  isrActive  : Bool
  /-- R27. -/
  bitOrder   : BitOrder
  /-- R28. -/
  csAsserted : Bool
  /-- R29. -/
  fault      : FaultCode
  /-- R29; meaningless while `fault` is 0 (R241). -/
  faultInfo  : FaultInfo
  /-- R30. -/
  fgSlot     : Option InFlight
  /-- R30. -/
  isrSlot    : Option InFlight
  /-- R32, the first event first. -/
  history    : List Event
  /-- The bulk entry buffer EB (R56). -/
  eb         : Memory ConfigEntry
  /-- The FIFO write payload buffer PB (R57). -/
  pb         : List Host.Cell
  /-- The accumulation buffer AB (R58), by bit index. -/
  ab         : Memory Bool
  /-- The model's own: the configuration (R9), constant (DESIGN CHOICE, log 1). -/
  cfg        : Config
  /-- The model's own: the coming moves of the agents (DESIGN CHOICE, log 2). -/
  script     : List Move
  /-- The model's own, a free value: the byte the transport supplies in this step (DESIGN CHOICE, log 3). -/
  rxIn       : Byte
  /-- The model's own: how many free values have been drawn (DESIGN CHOICE, log 6). -/
  draws      : Nat
  /-- The model's own: the totals FIFORDALL has responded with, the last first; they tell one free content of a bit of AB from the next
  (DESIGN CHOICE, log 9). -/
  abTotals   : List Nat
  deriving DecidableEq, Repr

/-- The reasons the machine stops. -/
inductive Fault where
  /-- Raised by a client's write to an entry of EB at or above MAX_BULK or a byte of PB at or above 32 (R56, R57): no such
  cell exists (DESIGN CHOICE, log 15). Safe. -/
  | noSuchBufferCell
  /-- Raised by a command or frame whose slot holds a phase that its pseudocode does not have (R34), and by a slot whose word
  decodes to no command. No run from reset reaches it (DEDUCED, log 16). Safe. -/
  | phaseOutOfPlace
  deriving DecidableEq, Repr

/-- The reasons a step is refused. -/
inductive Refusal where
  /-- An instruction that has no meaning yet, by its mnemonic. Safe. -/
  | notModelled (mnemonic : String)
  /-- REFUSED_REENTRY (R197, R214): a re-entrant acquisition with `DEBUG_LOCK_CHECK` false. Safe. -/
  | refusedReentry
  /-- REFUSED_CONFIG (R10, R214): the configuration is ill-formed. Safe. -/
  | refusedConfig
  deriving DecidableEq, Repr

/-- The engine right after engine reset (R240, R241) under a configuration. The values of `faultInfo`, `script`, `rxIn`,
`draws` and `abTotals` are DESIGN CHOICE (logs 10, 2, 3, 6, 9). -/
def State.resetWith (cfg : Config) : State where
  pageCache  := cfg.pageCacheReset
  lockHeld   := false
  lockOwner  := none
  irqMasked  := cfg.irqMaskReset
  irqPending := false
  isrActive  := false
  bitOrder   := .msb
  csAsserted := false
  fault      := .noFault
  faultInfo  := ⟨0, .fg, none, none⟩
  fgSlot     := none
  isrSlot    := none
  history    := []
  eb         := []
  pb         := []
  ab         := []
  cfg        := cfg
  script     := []
  rxIn       := 0
  draws      := 0
  abTotals   := []

/-- The machine right after reset, under the example profile of D37 (DESIGN CHOICE, log 1). -/
def State.reset : State := State.resetWith Config.exampleProfile

end Sys2Proof.Machine
end

