-- ==== Sys2Proof/Machine/Flags.lean ====
section
/-! DEFINITION. Status codes, fault numbers, response words and the FIFO status byte (R84, R85, R91, R167, R210). -/

namespace Sys2Proof.Machine

/-- The status codes of R85; 4..15 are never produced. -/
inductive Status where
  | ok
  | fail
  | overflow
  | bufferTooSmall
  deriving DecidableEq, Repr

/-- `resp[3:0]` (R85). -/
def statusCode : Status → BitVec 4
  | .ok => 0
  | .fail => 1
  | .overflow => 2
  | .bufferTooSmall => 3

/-- The status of a boolean success (R85). -/
def successStatus (ok : Bool) : Status := if ok then .ok else .fail

/-- The number of a fault code (R210). -/
def faultNumber : FaultCode → Nat
  | .noFault => 0
  | .illegalOpcode => 1
  | .reservedField => 2
  | .addrReservedBits => 3
  | .operandRange => 4
  | .protectedTarget => 5
  | .lockReentry => 6
  | .fifoCountRange => 7

/-! ## Response words (R84) -/

/-- A response that carries its status alone: WRREG, FIFOWR, PGINV. -/
def statusResponse (st : Status) : ResponseWord := 0#60 ++ statusCode st

/-- RDREG: `data` in [15:8]. -/
def dataResponse (st : Status) (data : Byte) : ResponseWord := 0#48 ++ data ++ 0#4 ++ statusCode st

/-- WRBULK and FIFORDALL: a count (`applied`, `total`) in [31:16]. -/
def countResponse (st : Status) (n : Nat) : ResponseWord := 0#32 ++ BitVec.ofNat 16 n ++ 0#12 ++ statusCode st

/-- FIFORD: `payload` in [63:32], `validBits` in [21:16]. -/
def frameResponse (st : Status) (payload : BitVec 32) (validBits : Nat) : ResponseWord :=
  payload ++ 0#10 ++ BitVec.ofNat 6 validBits ++ 0#12 ++ statusCode st

/-! ## The FIFO read status byte (R91, R167) -/

/-- What `Decode` makes of a FIFO read frame (R167). -/
inductive FifoAnswer where
  | overflow
  | badCount
  | frame (w : BitVec 32) (n : Nat)
  deriving DecidableEq, Repr

/-- The valid-bit count `s[5:0]` (R91). -/
def validCount (s : Byte) : Nat := (s.extractLsb' 0 6).toNat

/-- `Decode(w, s)` (R167): overflow before the count, `s[6]` ignored, a count above 32 is a fault. -/
def decodeStatus (w : BitVec 32) (s : Byte) : FifoAnswer :=
  if s.getLsbD 7 then .overflow
  else if 32 < validCount s then .badCount
  else .frame w (validCount s)

/-- The word `r3 ++ r2 ++ r1 ++ r0` of a FIFO_READ frame (R90, R164). -/
def fifoWord (r0 r1 r2 r3 : Byte) : BitVec 32 := r3 ++ r2 ++ r1 ++ r0

end Sys2Proof.Machine
end

