-- ==== Sys2Proof/Machine/Ops.lean ====
section
/-! DEFINITION. The named operations over the state: buffers, events, raising a fault, the primitives, the blocks of a
transaction and of a frame, acceptance and completion, and the one driver of every command. -/

namespace Sys2Proof.Machine

/-- The outcome of one step of this machine. -/
abbrev Result := Host.Outcome State Fault Refusal

/-! ## Memories (R56-R58) -/

/-- The content of a cell, if one was written. -/
def readCell {α : Type} (m : Memory α) (a : Nat) : Option α :=
  match m with
  | [] => none
  | (b, v) :: m => if a = b then some v else readCell m a

/-- Write a cell, keeping the indices strictly rising. -/
def writeCell {α : Type} (m : Memory α) (a : Nat) (v : α) : Memory α :=
  match m with
  | [] => [(a, v)]
  | (b, w) :: m =>
    if a < b then (a, v) :: (b, w) :: m
    else if a = b then (a, v) :: m
    else (b, w) :: writeCell m a v

/-- Forget every cell at index `n` or above: its content is unspecified (R58). -/
def forgetFrom {α : Type} (m : Memory α) (n : Nat) : Memory α := m.filter (fun c => decide (c.1 < n))

/-- `MemWrite(AB, i, n, v)` (R58): bits i..i+n-1, bit i+k taking `v[k]`. -/
def writeBits (m : Memory Bool) (i : Nat) (v : BitVec 32) : Nat → Memory Bool
  | 0 => m
  | n + 1 => writeCell (writeBits m i v n) (i + n) (v.getLsbD n)

/-- What entry i of EB holds: what a client wrote, else an unknown content (R241; DEDUCED, log 7). -/
def readEntry (s : State) (i : Nat) : ConfigEntry := (readCell s.eb i).getD (Config.ebUnwritten i)

/-- What byte k of PB holds: what a client wrote, else an unknown content (R241; DEDUCED, log 7). -/
def readPayload (s : State) (k : Nat) : Byte := (readCell s.pb k).getD (Config.pbUnwritten k)

/-- How many FIFORDALL responses left bit j of AB unspecified: those with a total at or below it (R58). -/
def unspecifiedBy (s : State) (j : Nat) : Nat := s.abTotals.countP (fun total => decide (total ≤ j))

/-- Accumulated bit j of AB: what a FIFORDALL wrote, else a free value (R58, R241, I8; DEDUCED, log 9). -/
def readBit (s : State) (j : Nat) : Bool := (readCell s.ab j).getD (Config.abUnspecified (unspecifiedBy s j) j)

/-- `MemRead(AB, i, n)` (R58): bits i..i+n-1 as a number with bit k from bit i+k. -/
def readBits (s : State) (i : Nat) : Nat → Nat
  | 0 => 0
  | n + 1 => readBits s i n + (readBit s (i + n)).toNat * 2 ^ n

/-- Byte k of AB, of the `ceil(MAX_ACC_BITS/8)` it holds (R58): `AB[k]`, whose bit j mod 8 is accumulated bit j. -/
def abByte (s : State) (k : Nat) : Option Byte :=
  if k < ceilBytes s.cfg.maxAccBits then some (BitVec.ofNat 8 (readBits s (8 * k) 8)) else none

/-- Frame bit k of PB (R57): `PB[k div 8][k mod 8]`. -/
def payloadBit (s : State) (k : Nat) : Bool := (readPayload s (k / 8)).getLsbD (k % 8)

/-! ## Contexts, slots, events -/

/-- The context that runs: the handler while it is active, else the foreground (R26, R201). -/
def State.ctx (s : State) : Ctx := if s.isrActive then .isr else .fg

/-- The slot of a context (R30). -/
def State.slot (s : State) (x : Ctx) : Option InFlight :=
  match x with
  | .fg => s.fgSlot
  | .isr => s.isrSlot

/-- Put a content into the slot of a context. -/
def State.putSlot (s : State) (x : Ctx) (c : Option InFlight) : State :=
  match x with
  | .fg => { s with fgSlot := c }
  | .isr => { s with isrSlot := c }

/-- `emit(e)` (R117). -/
def State.emit (s : State) (e : Event) : State := { s with history := s.history ++ [e] }

/-- `st.pageCache <- v` (R22). -/
def State.setPageCache (s : State) (v : PageCache) : State := { s with pageCache := v }

/-- Set the lock flag and its owner (R192, R193). -/
def State.setLock (s : State) (held : Bool) (owner : Option Ctx) : State := { s with lockHeld := held, lockOwner := owner }

/-- Set the interrupt-source mask (R115). -/
def State.setMask (s : State) (v : Bool) : State := { s with irqMasked := v }

/-- Set the chip-select (R113). -/
def State.setCs (s : State) (v : Bool) : State := { s with csAsserted := v }

/-- Set the transport bit order (R114). -/
def State.setOrder (s : State) (o : BitOrder) : State := { s with bitOrder := o }

/-- The transport supplies a byte in this step (R110). -/
def State.receive (s : State) (rx : Byte) : State := { s with rxIn := rx }

/-- The script of the agents' coming moves (DESIGN CHOICE, log 2). -/
def State.setScript (s : State) (moves : List Move) : State := { s with script := moves }

/-- Put contents into the accumulation buffer (R58). -/
def State.setAb (s : State) (m : Memory Bool) : State := { s with ab := m }

/-- The accumulation buffer after a FIFORDALL that responds with `total`: the bits below it as they stood, every other bit a free value
not seen before (R58, I8; DEDUCED, log 9), whichever context accumulated it (DESIGN CHOICE, log 24). -/
def State.forgetAb (s : State) (total : Nat) : State :=
  { s with ab := forgetFrom s.ab total, abTotals := total :: s.abTotals }

/-- Take one free value (`draw()`, R13). -/
def State.countDraw (s : State) : State := { s with draws := s.draws + 1 }

/-- The engine has not halted: the enabling condition of every step but an edge (R213). -/
def State.running (s : State) : Bool := s.fault == .noFault

/-! ## Faults (R210-R217) -/

/-- `raise F(info)` (R212): record and emit; every other field stays as it stood. -/
def raiseFault (code : FaultCode) (info : FaultInfo) (s : State) : State :=
  { s with fault := code, faultInfo := info, history := s.history ++ [.fault code] }

/-- Raise LOCK_REENTRY for a command word of the running context, or refuse the run when the engine has no re-entrancy check
(R192, R197, R204; which word is recorded is DEDUCED, log 13). -/
def reentry (w : CommandWord) (s : State) : Result :=
  if s.cfg.debugLockCheck then .next (raiseFault .lockReentry ⟨w, s.ctx, none, none⟩ s) else .refused .refusedReentry

/-- The fault code of a failed operand check (R93, R210). -/
def operandFaultCode : OperandFault → FaultCode
  | .operandRange => .operandRange
  | .addrReservedBits => .addrReservedBits
  | .protectedTarget => .protectedTarget

/-! ## Acceptance (R215) and completion (R13, R30) -/

/-- The first of `n` entries of EB, from index `i` on, that fails R93's checks, and its index. -/
def firstBadEntry (s : State) : Nat → Nat → Option (OperandFault × Nat)
  | 0, _ => none
  | n + 1, i =>
    match writeTargetFault s.cfg (readEntry s i).addr with
    | some f => some (f, i)
    | none => firstBadEntry s n (i + 1)

/-- The entries of EB a command is checked against at acceptance (R93): WRBULK's, none of any other's. -/
def checkedEntries : Instr → Nat
  | .wrbulk count => count.toNat
  | .rdreg _ => 0
  | .wrreg _ _ => 0
  | .fifowr _ => 0
  | .fiford => 0
  | .fifordall _ => 0
  | .pginv => 0
  | .regRead _ => 0
  | .regWrite _ _ => 0
  | .fifoWrite _ => 0
  | .fifoRead => 0

/-- The first operand check of R93 a command fails, with the entry index for a WRBULK entry. -/
def acceptFault (i : Instr) (s : State) : Option (OperandFault × Option Nat) :=
  match operandFault s.cfg i with
  | some f => some (f, none)
  | none => (firstBadEntry s (checkedEntries i) 0).map (fun r => (r.1, some r.2))

/-- A command at phase 0 (R215); its locals have no value yet (R34): zeros stand there (DESIGN CHOICE, log 21). -/
def freshCommand (w : CommandWord) : InFlight :=
  { word := w, point := .accepted, todo := [], attempt := 0, index := 0, total := 0, cur := ⟨0, 0⟩,
    shadowA := 0, rx := [], ok := false, tainted := false }

/-- Acceptance of a decoded command into the empty slot of the running context (R215): the operand checks, then the slot is
filled at phase 0. -/
def accept (i : Instr) (s : State) : Result :=
  match acceptFault i s with
  | some (f, entry) => .next (raiseFault (operandFaultCode f) ⟨encode i, s.ctx, entry, none⟩ s)
  | none => .next (s.putSlot s.ctx (some (freshCommand (encode i))))

/-- `return r` (R13): deliver r on the port of the issuing context, as the RESP event (log 18), and empty its slot. -/
def respond (r : ResponseWord) (s : State) : Result :=
  .next ((s.putSlot s.ctx none).emit (.resp s.ctx r))

/-! ## Primitives (R33, R110-R115, R192, R193) -/

/-- The byte an exchange sends. A byte of PB that its client changed in flight is a free value (I9; DEDUCED, log 8). -/
def txByte (src : TxSource) (c : InFlight) (s : State) : Byte :=
  match src with
  | .byte b => b
  | .payload k => if c.tainted then Config.freeByte s.draws else readPayload s k

/-- The state after the byte an exchange sends was chosen: a free value drawn is counted. -/
def txDrawn (src : TxSource) (c : InFlight) (s : State) : State :=
  match src with
  | .byte _ => s
  | .payload _ => if c.tainted then s.countDraw else s

/-- One primitive of the running context; `c` is its command with this primitive struck from its phase. -/
def perform (p : Prim) (c : InFlight) (s : State) : Result :=
  match p with
  | .mask => .next (((s.putSlot s.ctx (some c)).setMask true).emit .mask)
  | .unmask => .next (((s.putSlot s.ctx (some c)).setMask false).emit .unmask)
  | .lockAcq =>
    if s.lockHeld then reentry c.word s
    else .next (((s.putSlot s.ctx (some c)).setLock true (some s.ctx)).emit (.lockAcq s.ctx))
  | .lockRel => .next (((s.putSlot s.ctx (some c)).setLock false none).emit (.lockRel s.ctx))
  | .csAssert => .next (((s.putSlot s.ctx (some c)).setCs true).emit (.csAssert s.ctx))
  | .csDeassert => .next (((s.putSlot s.ctx (some c)).setCs false).emit (.csDeassert s.ctx))
  | .order o => .next (((s.putSlot s.ctx (some c)).setOrder o).emit (.order o s.ctx))
  | .xchg src =>
    .next (((txDrawn src c s).putSlot s.ctx (some { c with rx := c.rx ++ [s.rxIn] })).emit
      (.xchg (txByte src c s) s.rxIn s.bitOrder s.ctx))

/-- The next primitive of a command's block (R34: a phase advances by exactly one primitive). -/
def performNext (c : InFlight) (s : State) : Result :=
  match c.todo with
  | p :: rest => perform p { c with todo := rest } s
  | [] => .fault .phaseOutOfPlace

/-! ## Blocks of primitives (R194, R195, R131, R132, R161, R164) -/

/-- The opening of a transaction (R194): mask (foreground only), lock flag, chip-select. -/
def openPrims (cfg : Config) (x : Ctx) : List Prim :=
  (if x = .fg then [.mask] else []) ++ [.lockAcq] ++ (if cfg.csMode = .perTransaction then [.csAssert] else [])

/-- The closing of a transaction (R194). -/
def closePrims (cfg : Config) (x : Ctx) : List Prim :=
  (if cfg.csMode = .perTransaction then [.csDeassert] else []) ++ [.lockRel] ++ (if x = .fg then [.unmask] else [])

/-- The primitives of a frame's pseudocode between FrameOpen and FrameClose. -/
def frameBody (cfg : Config) : Frame → List Prim
  | .regRead off => [.xchg (.byte cfg.cmdRead), .xchg (.byte off), .xchg (.byte cfg.dummyByte)]
  | .regWrite off val => [.xchg (.byte cfg.cmdWrite), .xchg (.byte off), .xchg (.byte val)]
  | .fifoWrite len =>
    [.xchg (.byte cfg.cmdFifoWrite), .xchg (.byte len), .order .lsb]
      ++ (List.range (payloadCount len)).map (fun k => .xchg (.payload k)) ++ [.order .msb]
  | .fifoRead =>
    [.xchg (.byte cfg.cmdFifoRead), .order .lsb, .xchg (.byte cfg.dummyByte), .xchg (.byte cfg.dummyByte),
      .xchg (.byte cfg.dummyByte), .xchg (.byte cfg.dummyByte), .order .msb, .xchg (.byte cfg.dummyByte)]

/-- A whole wire frame with FrameOpen and FrameClose (R195). -/
def framePrims (cfg : Config) (f : Frame) : List Prim :=
  if cfg.csMode = .perAccess then .csAssert :: frameBody cfg f ++ [.csDeassert] else frameBody cfg f

/-- The wire frame as an instruction. -/
def frameInstr : Frame → Instr
  | .regRead off => .regRead off
  | .regWrite off val => .regWrite off val
  | .fifoWrite len => .fifoWrite len
  | .fifoRead => .fifoRead

/-- One primitive of the wire frame `f` that command `c` is in. -/
def frameStep (f : Frame) (c : InFlight) (s : State) : Result :=
  match c.point with
  | .frame g _ => if g = f then performNext c s else .fault .phaseOutOfPlace
  | .accepted => .fault .phaseOutOfPlace
  | .opened => .fault .phaseOutOfPlace
  | .closed => .fault .phaseOutOfPlace

/-- One step of a wire frame (R33): the next primitive of the frame the running context's command is in. A halted engine
takes no step (R213). -/
def runFrame (f : Frame) (s : State) : Result :=
  if s.running then
    match s.slot s.ctx with
    | some c => frameStep f c s
    | none => .fault .phaseOutOfPlace
  else .next s

/-- Begin a wire frame: its block, no response yet, and its first primitive. -/
def startFrame (f : Frame) (role : Role) (c : InFlight) (s : State) : Result :=
  frameStep f { c with point := .frame f role, todo := framePrims s.cfg f, rx := [] } s

/-- Begin a transaction (R194). -/
def openTransaction (c : InFlight) (s : State) : Result :=
  performNext { c with point := .opened, todo := openPrims s.cfg s.ctx } s

/-- End a transaction (R194), its body's result being `ok`. -/
def closeTransaction (ok : Bool) (c : InFlight) (s : State) : Result :=
  performNext { c with point := .closed, todo := closePrims s.cfg s.ctx, ok := ok } s

/-! ## The driver of every command -/

/-- One step of host command `i` in the running context (R33). With an empty slot it is the command's acceptance (R215).
With the command in flight it is the next primitive of its block, or, at the end of a block, `proceed`: the computation
of its pseudocode up to and with the next primitive, `return` or `raise` (R33: the computation belongs to the step that
follows it; DEDUCED, log 12). With another command in flight it is a re-entrant issue (R204). A halted engine takes no step
(R213). That an instruction is executed a step at a time is the model's form (DESIGN CHOICE, log 5). -/
def runCommand (i : Instr) (proceed : InFlight → State → Result) (s : State) : Result :=
  if s.running then
    match s.slot s.ctx with
    | none => accept i s
    | some c =>
      if c.word = encode i then
        match c.todo with
        | [] => proceed c s
        | _ :: _ => performNext c s
      else reentry (encode i) s
  else .next s

end Sys2Proof.Machine
end

