-- ==== Sys2Proof/Machine/FifoCodec.lean ====
section
/-! DEFINITION. The FIFO codec (R160-R170): FIFOWR, FIFORD, FIFORDALL. -/

namespace Sys2Proof.Machine

/-- The payload word of a FIFO_READ frame, from the responses of its exchanges 2 to 5 (R90, R164). -/
def frameWord (c : InFlight) : BitVec 32 :=
  fifoWord (c.rx.getD 1 0) (c.rx.getD 2 0) (c.rx.getD 3 0) (c.rx.getD 4 0)

/-- The status byte of a FIFO_READ frame, the response of its exchange 6 (R90, R164). -/
def frameStatus (c : InFlight) : Byte := c.rx.getD 5 0

/-- `Decode` of the last FIFO_READ frame (R167). -/
def frameAnswer (c : InFlight) : FifoAnswer := decodeStatus (frameWord c) (frameStatus c)

/-- The end of a FIFO_READ frame's transaction (R167, R216): FIFO_COUNT_RANGE is raised inside it, after the frame's last
event; any other answer closes it. -/
def closeFifoRead (c : InFlight) (s : State) : Result :=
  match frameAnswer c with
  | .badCount => .next (raiseFault .fifoCountRange ⟨c.word, s.ctx, none, some (frameStatus c)⟩ s)
  | .overflow => closeTransaction true c s
  | .frame _ _ => closeTransaction true c s

/-! ## FIFOWR (R162) -/

/-- FIFOWR's pseudocode at the end of each block. -/
def proceedFifowr (nbits : BitVec 9) (c : InFlight) (s : State) : Result :=
  match c.point with
  | .accepted => openTransaction c s
  | .opened => startFrame (.fifoWrite (lengthByte nbits)) .fifo c s
  | .frame _ .fifo => closeTransaction true c s
  | .frame _ .read => .fault .phaseOutOfPlace
  | .frame _ (.verify _ _) => .fault .phaseOutOfPlace
  | .closed => respond (statusResponse .ok) s

/-- FIFOWR (R162). -/
def execFifowr (nbits : BitVec 9) (s : State) : Result := runCommand (.fifowr nbits) (proceedFifowr nbits) s

/-! ## FIFORD (R166) -/

/-- The completion of FIFORD (R166). -/
def finishFiford (c : InFlight) (s : State) : Result :=
  match frameAnswer c with
  | .overflow => respond (frameResponse .overflow 0 0) s
  | .frame w n => respond (frameResponse .ok w n) s
  | .badCount => .fault .phaseOutOfPlace

/-- FIFORD's pseudocode at the end of each block. -/
def proceedFiford (c : InFlight) (s : State) : Result :=
  match c.point with
  | .accepted => openTransaction c s
  | .opened => startFrame .fifoRead .fifo c s
  | .frame _ .fifo => closeFifoRead c s
  | .frame _ .read => .fault .phaseOutOfPlace
  | .frame _ (.verify _ _) => .fault .phaseOutOfPlace
  | .closed => finishFiford c s

/-- FIFORD (R166). -/
def execFiford (s : State) : Result := runCommand .fiford proceedFiford s

/-! ## FIFORDALL (R169) -/

/-- The completion of FIFORDALL: AB's bits at or above `total` are unspecified from then on (R58, I8; DEDUCED, log 9). Where this
is an interrupt-context FIFORDALL between two frames of a foreground one, the foreground's accumulated bits there (R169) are among them
(DESIGN CHOICE, log 24). -/
def finishFifordall (st : Status) (c : InFlight) (s : State) : Result :=
  respond (countResponse st c.total) (s.forgetAb c.total)

/-- The end of a loop turn of FIFORDALL (R169, R170): stop at overflow, at 0 bits or at a frame that does not fit; else append
the frame's valid bits at index `total` and begin the next frame's transaction. -/
def afterFrame (maxBits : BitVec 16) (c : InFlight) (s : State) : Result :=
  match frameAnswer c with
  | .overflow => finishFifordall .overflow c s
  | .frame w n =>
    if n = 0 then finishFifordall .ok c s
    else if maxBits.toNat < c.total + n then finishFifordall .bufferTooSmall c s
    else openTransaction { c with total := c.total + n } (s.setAb (writeBits s.ab c.total w n))
  | .badCount => .fault .phaseOutOfPlace

/-- FIFORDALL's pseudocode at the end of each block. -/
def proceedFifordall (maxBits : BitVec 16) (c : InFlight) (s : State) : Result :=
  match c.point with
  | .accepted => openTransaction { c with total := 0 } s
  | .opened => startFrame .fifoRead .fifo c s
  | .frame _ .fifo => closeFifoRead c s
  | .frame _ .read => .fault .phaseOutOfPlace
  | .frame _ (.verify _ _) => .fault .phaseOutOfPlace
  | .closed => afterFrame maxBits c s

/-- FIFORDALL (R169). -/
def execFifordall (maxBits : BitVec 16) (s : State) : Result :=
  runCommand (.fifordall maxBits) (proceedFifordall maxBits) s

end Sys2Proof.Machine
end

