-- ==== Sys2Proof/Machine/RegisterFile.lean ====
section
/-! DEFINITION. The paged register file (R130-R141): verified writes, page switching, and RDREG, WRREG, WRBULK, PGINV. -/

namespace Sys2Proof.Machine

/-- The response of a REG_READ frame's third exchange, the register's value (R88, R131). -/
def readAnswer (c : InFlight) : Byte := c.rx.getD 2 0

/-- Begin `RegRead(o)` (R131) of a command's target. -/
def beginRead (off : Byte) (c : InFlight) (s : State) : Result := startFrame (.regRead off) .read c s

/-- Begin `VerifiedWrite(o, v)` (R134): attempt 0, its REG_WRITE frame. -/
def beginWrite (g : Purpose) (off val : Byte) (c : InFlight) (s : State) : Result :=
  startFrame (.regWrite off val) (.verify g .write) { c with attempt := 0 } s

/-- `VerifiedWrite(o, v)` after one of its frames (R133, R134): the two shadows are read in this order and always both, an
attempt succeeds iff they hold `o` and `v`, a failed one is retried up to `RETRY_BOUND` times; `done` goes on with the
result. -/
def continueWrite (g : Purpose) (st : Stage) (off val : Byte) (c : InFlight) (s : State)
    (done : Bool → InFlight → State → Result) : Result :=
  match st with
  | .write => startFrame (.regRead (shadowAddrOffset s.cfg)) (.verify g .addr) c s
  | .addr => startFrame (.regRead (shadowValOffset s.cfg)) (.verify g .value) { c with shadowA := readAnswer c } s
  | .value =>
    if c.shadowA = off ∧ readAnswer c = val then done true c s
    else if c.attempt < s.cfg.retryBound then
      startFrame (.regWrite off val) (.verify g .write) { c with attempt := c.attempt + 1 } s
    else done false c s

/-- `EnsurePage(a)` (R135): no switch for a mirrored address or when the cache holds its page, else a verified write of the
page number to the page-select register; `go` is what follows at once when no switch is needed. -/
def ensurePage (a : RegAddr) (go : InFlight → State → Result) (c : InFlight) (s : State) : Result :=
  if mirrored a then go c s
  else if s.pageCache = .page (pageOf a) then go c s
  else beginWrite .page (pageSelOffset s.cfg) (pageSelectValue (pageOf a)) c s

/-- `EnsurePage(a)` after a frame of its page-select write (R135): the cache takes the page on success and INVALID on
failure; a failed switch ends the body without touching the target (D11). -/
def continuePage (a : RegAddr) (st : Stage) (go : InFlight → State → Result) (c : InFlight) (s : State) : Result :=
  continueWrite .page st (pageSelOffset s.cfg) (pageSelectValue (pageOf a)) c s fun ok c s =>
    if ok then go c (s.setPageCache (.page (pageOf a)))
    else closeTransaction false c (s.setPageCache .invalid)

/-! ## RDREG (R137) -/

/-- The completion of RDREG: the value read, or a draw when the page switch failed (I4). -/
def finishRdreg (c : InFlight) (s : State) : Result :=
  if c.ok then respond (dataResponse .ok (readAnswer c)) s
  else respond (dataResponse .fail (Config.freeByte s.draws)) s.countDraw

/-- RDREG's pseudocode at the end of each block. -/
def proceedRdreg (addr : RegAddr) (c : InFlight) (s : State) : Result :=
  match c.point with
  | .accepted => openTransaction c s
  | .opened => ensurePage addr (beginRead (offsetOf addr)) c s
  | .frame _ (.verify .page st) => continuePage addr st (beginRead (offsetOf addr)) c s
  | .frame _ .read => closeTransaction true c s
  | .frame _ (.verify .target _) => .fault .phaseOutOfPlace
  | .frame _ .fifo => .fault .phaseOutOfPlace
  | .closed => finishRdreg c s

/-- RDREG (R137). -/
def execRdreg (addr : RegAddr) (s : State) : Result := runCommand (.rdreg addr) (proceedRdreg addr) s

/-! ## WRREG (R138) -/

/-- WRREG's pseudocode at the end of each block. -/
def proceedWrreg (addr : RegAddr) (val : Byte) (c : InFlight) (s : State) : Result :=
  match c.point with
  | .accepted => openTransaction c s
  | .opened => ensurePage addr (beginWrite .target (offsetOf addr) val) c s
  | .frame _ (.verify .page st) => continuePage addr st (beginWrite .target (offsetOf addr) val) c s
  | .frame _ (.verify .target st) => continueWrite .target st (offsetOf addr) val c s closeTransaction
  | .frame _ .read => .fault .phaseOutOfPlace
  | .frame _ .fifo => .fault .phaseOutOfPlace
  | .closed => respond (statusResponse (successStatus c.ok)) s

/-- WRREG (R138). -/
def execWrreg (addr : RegAddr) (val : Byte) (s : State) : Result :=
  runCommand (.wrreg addr val) (proceedWrreg addr val) s

/-! ## WRBULK (R139) -/

/-- The entry WRBULK takes at index i: EB's, or a free one if a client changed EB in flight (I9; DEDUCED, log 8). -/
def bulkEntry (c : InFlight) (s : State) : ConfigEntry :=
  if c.tainted then Config.freeEntry s.draws else readEntry s c.index

/-- The state after WRBULK took an entry: a free one drawn is counted. -/
def bulkDrawn (c : InFlight) (s : State) : State := if c.tainted then s.countDraw else s

/-- The head of WRBULK's loop (R139): the next entry's page check, or the end of the body after the last entry. -/
def nextEntry (count : BitVec 16) (c : InFlight) (s : State) : Result :=
  if c.index < count.toNat then
    ensurePage (bulkEntry c s).addr
      (beginWrite .target (offsetOf (bulkEntry c s).addr) (bulkEntry c s).val)
      { c with cur := bulkEntry c s } (bulkDrawn c s)
  else closeTransaction true c s

/-- WRBULK after an entry's verified write (R139): the next entry, or the end at the first failure. -/
def afterEntry (count : BitVec 16) (ok : Bool) (c : InFlight) (s : State) : Result :=
  if ok then nextEntry count { c with index := c.index + 1 } s else closeTransaction false c s

/-- WRBULK's pseudocode at the end of each block. -/
def proceedWrbulk (count : BitVec 16) (c : InFlight) (s : State) : Result :=
  match c.point with
  | .accepted => openTransaction c s
  | .opened => nextEntry count { c with index := 0 } s
  | .frame _ (.verify .page st) =>
    continuePage c.cur.addr st (beginWrite .target (offsetOf c.cur.addr) c.cur.val) c s
  | .frame _ (.verify .target st) =>
    continueWrite .target st (offsetOf c.cur.addr) c.cur.val c s (afterEntry count)
  | .frame _ .read => .fault .phaseOutOfPlace
  | .frame _ .fifo => .fault .phaseOutOfPlace
  | .closed => respond (countResponse (successStatus (c.index == count.toNat)) c.index) s

/-- WRBULK (R139). -/
def execWrbulk (count : BitVec 16) (s : State) : Result := runCommand (.wrbulk count) (proceedWrbulk count) s

/-! ## PGINV (R140) -/

/-- PGINV's pseudocode: one atomic step, no lock and no bus event (R140; DEDUCED, log 11). -/
def proceedPginv (c : InFlight) (s : State) : Result :=
  match c.point with
  | .accepted => respond (statusResponse .ok) ((s.setPageCache .invalid).emit (.pginv s.ctx))
  | .opened => .fault .phaseOutOfPlace
  | .frame _ _ => .fault .phaseOutOfPlace
  | .closed => .fault .phaseOutOfPlace

/-- PGINV (R140). -/
def execPginv (s : State) : Result := runCommand .pginv proceedPginv s

end Sys2Proof.Machine
end

