-- ==== Sys2Proof/Machine/WireFrames.lean ====
section
/-! DEFINITION. The wire frames (R88-R90): each meaning is one primitive of that frame in the command being executed. -/

namespace Sys2Proof.Machine

/-- REG_READ(o) (R88, R131). -/
def execRegRead (off : Byte) (s : State) : Result := runFrame (.regRead off) s

/-- REG_WRITE(o, v) (R88, R132). -/
def execRegWrite (off val : Byte) (s : State) : Result := runFrame (.regWrite off val) s

/-- FIFO_WRITE with length byte L (R89, R161). -/
def execFifoWrite (len : Byte) (s : State) : Result := runFrame (.fifoWrite len) s

/-- FIFO_READ (R90, R164). -/
def execFifoRead (s : State) : Result := runFrame .fifoRead s

end Sys2Proof.Machine
end

