-- ==== Sys2Proof/Machine/Dispatch.lean ====
section
/-! DEFINITION. One arm per instruction: one step of it in the running context (R33). -/

namespace Sys2Proof.Machine

def exec (i : Instr) (s : State) : Host.Outcome State Fault Refusal :=
  match i with
  | .rdreg addr => Sys2Proof.Machine.execRdreg addr s
  | .wrreg addr val => Sys2Proof.Machine.execWrreg addr val s
  | .wrbulk count => Sys2Proof.Machine.execWrbulk count s
  | .fifowr nbits => Sys2Proof.Machine.execFifowr nbits s
  | .fiford => Sys2Proof.Machine.execFiford s
  | .fifordall maxBits => Sys2Proof.Machine.execFifordall maxBits s
  | .pginv => Sys2Proof.Machine.execPginv s
  | .regRead off => Sys2Proof.Machine.execRegRead off s
  | .regWrite off val => Sys2Proof.Machine.execRegWrite off val s
  | .fifoWrite len => Sys2Proof.Machine.execFifoWrite len s
  | .fifoRead => Sys2Proof.Machine.execFifoRead s

end Sys2Proof.Machine
end

