-- ==== Sys2Proof/Machine/Moves.lean ====
section
/-! DEFINITION. The moves of the agents of R191: issuing a command (R190, R215), a slot's step (R33), the interrupt line and
the interrupt context's entry and exit (R199, R200, R220), and the clients' buffer writes (R56, R57). A move that is not
enabled where it comes changes nothing (DESIGN CHOICE, log 2). -/

namespace Sys2Proof.Machine

/-- The client and the slot of a context may step: the engine has not halted and the context runs (R201, R213). -/
def State.mayStep (s : State) (x : Ctx) : Bool := s.running && s.ctx == x

/-- The fault code of a word that decodes to no command (R93). -/
def rejectCode : CommandReject → FaultCode
  | .illegalOpcode => .illegalOpcode
  | .reservedField => .reservedField

/-- The client of context `x` issues a command word (R190, R215): an occupied slot is a re-entrant acquisition, before any
decoding (R204); then the decode checks (R93); then the decoded command's own acceptance. -/
def issue (x : Ctx) (w : CommandWord) (s : State) : Result :=
  if s.mayStep x then
    match s.slot x with
    | some _ => reentry w s
    | none =>
      match decode w with
      | .error r => .next (raiseFault (rejectCode r) ⟨w, x, none, none⟩ s)
      | .ok i => exec i s
  else .next s

/-- The instruction a command in flight is executing: the wire frame it is in the middle of, else the command itself. -/
def currentInstr (c : InFlight) : Option Instr :=
  match c.point, c.todo with
  | .frame f _, _ :: _ => some (frameInstr f)
  | _, _ => (decode c.word).toOption

/-- The slot of context `x` takes its step, an exchange being completed with `rx` (R33, R112); a bus that hangs is a script with no
further move of this kind (DEDUCED, log 4). -/
def engineStep (x : Ctx) (rx : Byte) (s : State) : Result :=
  if s.mayStep x then
    match s.slot x with
    | none => .next s
    | some c =>
      match currentInstr c with
      | some i => exec i (s.receive rx)
      | none => .fault .phaseOutOfPlace
  else .next s

/-- An edge of the device interrupt line: the configured one latches, in every state (R220; DEDUCED, log 14). -/
def lineEdge (e : Edge) (s : State) : State := if e = s.cfg.edge then { s with irqPending := true } else s

/-- ISR_ENTER is enabled (R199). -/
def State.mayEnter (s : State) : Bool := s.irqPending && !s.irqMasked && !s.isrActive && s.running

/-- ISR_ENTER (R199). -/
def isrEnter (s : State) : State :=
  if s.mayEnter then ({ s with isrActive := true, irqPending := false }).emit .isrEnter else s

/-- ISR_EXIT is enabled (R200). -/
def State.mayExit (s : State) : Bool := s.isrActive && s.isrSlot.isNone && s.running

/-- ISR_EXIT (R200). -/
def isrExit (s : State) : State :=
  if s.mayExit then ({ s with isrActive := false }).emit .isrExit else s

/-- The opcode whose command reads a client's buffer while in flight: WRBULK reads EB, FIFOWR reads PB (R56, R57). -/
def taintBy (op : BitVec 4) (slot : Option InFlight) : Option InFlight :=
  slot.map (fun c => if opcodeOf c.word = op then { c with tainted := true } else c)

/-- A client writes entry i of EB (R56): a WRBULK in flight uses unspecified values from then on (I9; DEDUCED, log 8). -/
def clientWriteEB (x : Ctx) (i : Nat) (e : ConfigEntry) (s : State) : Result :=
  if s.mayStep x then
    if i < s.cfg.maxBulk then
      .next { s with eb := writeCell s.eb i e, fgSlot := taintBy 0x3 s.fgSlot, isrSlot := taintBy 0x3 s.isrSlot }
    else .fault .noSuchBufferCell
  else .next s

/-- The bytes of PB (R57). -/
def payloadBytes : Nat := 32

/-- A client writes byte i of PB (R57): a FIFOWR in flight uses unspecified values from then on (I9; DEDUCED, log 8). -/
def clientWritePB (x : Ctx) (i : Nat) (b : Byte) (s : State) : Result :=
  if s.mayStep x then
    if i < payloadBytes then
      .next { s with pb := writeCell s.pb i b, fgSlot := taintBy 0x4 s.fgSlot, isrSlot := taintBy 0x4 s.isrSlot }
    else .fault .noSuchBufferCell
  else .next s

/-- One move of one agent (R191, R202). -/
def takeMove (m : Move) (s : State) : Result :=
  match m with
  | .issue x w => issue x w s
  | .engine x rx => engineStep x rx s
  | .edge e => .next (lineEdge e s)
  | .isrEnter => .next (isrEnter s)
  | .isrExit => .next (isrExit s)
  | .writeEB x i e => clientWriteEB x i e s
  | .writePB x i b => clientWritePB x i b s

/-- The next move of the script; with no move left nothing happens (R242: the engine waits). -/
def nextMove (s : State) : Result :=
  match s.script with
  | [] => .next s
  | m :: rest => takeMove m (s.setScript rest)

/-! ## Placing an instruction where the machine takes its next one (logs 2, 20) -/

/-- A command that is about to emit a given wire frame, at the frame's first primitive. -/
def commandOf (cfg : Config) (f : Frame) : InFlight :=
  let at_ (i : Instr) (role : Role) : InFlight :=
    { freshCommand (encode i) with point := .frame f role, todo := framePrims cfg f }
  match f with
  | .regRead off => at_ (.rdreg (off.zeroExtend 16)) .read
  | .regWrite off val => at_ (.wrreg (off.zeroExtend 16) val) (.verify .target .write)
  | .fifoWrite len => at_ (.fifowr (BitVec.ofNat 9 (len.toNat + 1))) .fifo
  | .fifoRead => at_ .fiford .fifo

/-- The state inside a transaction of the running context whose command is about to emit a wire frame (R194, R195). -/
def inTransaction (f : Frame) (s : State) : State :=
  { (s.putSlot s.ctx (some (commandOf s.cfg f))) with
    lockHeld := true, lockOwner := some s.ctx, irqMasked := s.ctx == .fg || s.irqMasked,
    csAsserted := s.cfg.csMode == .perTransaction, script := .engine s.ctx 0 :: s.script }

/-- The wire frame an instruction is. -/
def instrFrame : Instr → Option Frame
  | .regRead off => some (.regRead off)
  | .regWrite off val => some (.regWrite off val)
  | .fifoWrite len => some (.fifoWrite len)
  | .fifoRead => some .fifoRead
  | .rdreg _ => none
  | .wrreg _ _ => none
  | .wrbulk _ => none
  | .fifowr _ => none
  | .fiford => none
  | .fifordall _ => none
  | .pginv => none

/-- Place an opcode-table word: a command word comes on the running context's port as the next move (R190); a wire frame, which no
client issues, is placed in a transaction of the running context. -/
def placeWord (s : State) (nbits w : Nat) : State :=
  match (decodeTableWord nbits w).bind instrFrame with
  | some f => inTransaction f s
  | none => s.setScript (.issue s.ctx (BitVec.ofNat 32 w) :: s.script)

end Sys2Proof.Machine
end

