-- ==== Sys2Proof/Machine/Step.lean ====
section
/-! DEFINITION. One step of the machine, and where an instruction is placed for it to run next. -/

namespace Sys2Proof.Machine

/-- One step: a machine with an ill-formed configuration is refused (R10, R214); else the next move of the script. -/
def step (s : State) : Host.Outcome State Fault Refusal :=
  if s.cfg.wf then nextMove s else .refused .refusedConfig

/-- `s` with the instruction of an opcode-table row placed so that the next step runs it. -/
def State.withFetchWord (s : State) (nbits w : Nat) : State := placeWord s nbits w

end Sys2Proof.Machine
end

