-- ==== Sys2Proof/Machine/Assembler.lean ====
section
/-! DEFINITION. The assembler syntax of R95: one line of text to the move it stands for. What R95 leaves to the reader (blanks,
letter case of digits, numbers too wide) is DEDUCED, log 23. -/

namespace Sys2Proof.Machine

/-- A blank of the syntax. -/
def isBlank (c : Char) : Bool := c == ' ' || c == '\t'

/-- Text without blanks at either end. -/
def trimBlanks (t : List Char) : List Char := ((t.dropWhile isBlank).reverse.dropWhile isBlank).reverse

/-- The value of a digit in a base up to 16. -/
def digitValue (base : Nat) (c : Char) : Option Nat :=
  let v := if '0' ≤ c ∧ c ≤ '9' then some (c.toNat - '0'.toNat)
    else if 'a' ≤ c ∧ c ≤ 'f' then some (c.toNat - 'a'.toNat + 10)
    else if 'A' ≤ c ∧ c ≤ 'F' then some (c.toNat - 'A'.toNat + 10)
    else none
  v.bind (fun v => if v < base then some v else none)

/-- The number a run of digits denotes, the digits read so far being `acc`. -/
def readDigits (base acc : Nat) : List Char → Option Nat
  | [] => some acc
  | c :: cs => (digitValue base c).bind (fun v => readDigits base (base * acc + v) cs)

/-- A number, hexadecimal `0x..` or decimal (R95). -/
def readNumber : List Char → Option Nat
  | [] => none
  | '0' :: 'x' :: c :: cs => readDigits 16 0 (c :: cs)
  | c :: cs => readDigits 10 0 (c :: cs)

/-- A number that fits a field of `n` bits. -/
def readField (n : Nat) (t : List Char) : Option (BitVec n) :=
  (readNumber (trimBlanks t)).bind (fun v => if v < 2 ^ n then some (BitVec.ofNat n v) else none)

/-- The pieces of a text between commas. -/
def splitCommas : List Char → List (List Char)
  | [] => [[]]
  | ',' :: cs => [] :: splitCommas cs
  | c :: cs =>
    match splitCommas cs with
    | [] => [[c]]
    | p :: ps => (c :: p) :: ps

/-- The operands after a mnemonic: none, or the pieces between commas. -/
def operandsOf (t : List Char) : List (List Char) :=
  if trimBlanks t = [] then [] else splitCommas t

/-- The command a mnemonic and its operands stand for (R95, R96). -/
def assembleCommand (mnemonic : List Char) (operands : List (List Char)) : Option Instr :=
  if mnemonic = "rdreg".toList then
    match operands with
    | [a] => (readField 16 a).map .rdreg
    | _ => none
  else if mnemonic = "wrreg".toList then
    match operands with
    | [a, v] => (readField 16 a).bind (fun a => (readField 8 v).map (.wrreg a))
    | _ => none
  else if mnemonic = "wrbulk".toList then
    match operands with
    | [n] => (readField 16 n).map .wrbulk
    | _ => none
  else if mnemonic = "fifowr".toList then
    match operands with
    | [n] => (readField 9 n).map .fifowr
    | _ => none
  else if mnemonic = "fiford".toList then
    match operands with
    | [] => some .fiford
    | _ => none
  else if mnemonic = "fifordall".toList then
    match operands with
    | [n] => (readField 16 n).map .fifordall
    | _ => none
  else if mnemonic = "pginv".toList then
    match operands with
    | [] => some .pginv
    | _ => none
  else none

/-- A statement without its context prefix and comment: a pseudo-form or a command on a port (R95). -/
def assembleStatement (cfg : Config) (x : Ctx) (t : List Char) : Option Move :=
  if t = "isr.enter".toList then some .isrEnter
  else if t = "isr.exit".toList then some .isrExit
  else if t = "edge".toList then some (.edge cfg.edge)
  else
    (assembleCommand (t.takeWhile (fun c => !isBlank c)) (operandsOf (t.dropWhile (fun c => !isBlank c)))).map
      (fun i => .issue x (encode i))

/-- One line (R95): `;` starts a comment, `fg:` or `isr:` names the issuing context, by default `fg`; `some none` is a line
with no statement. -/
def assembleLine (cfg : Config) (line : List Char) : Option (Option Move) :=
  let t := trimBlanks (line.takeWhile (fun c => c != ';'))
  if t = [] then some none
  else if "fg:".toList.isPrefixOf t then (assembleStatement cfg .fg (trimBlanks (t.drop 3))).map some
  else if "isr:".toList.isPrefixOf t then (assembleStatement cfg .isr (trimBlanks (t.drop 4))).map some
  else (assembleStatement cfg .fg t).map some

end Sys2Proof.Machine
end

