-- ==== Sys2Proof/Safety.lean ====
section
/-! DEFINITION. What counts as a safe run, in the terms the statements use: the bracket automaton of the event history (R203), the
phases each command may have (R34), the invariants of R40, and runs of one instruction. -/

namespace Sys2Proof.Machine

/-! ## The bracket of a history (R203) -/

/-- What a history leaves open: the transaction's context, the chip-select and the bit order. -/
structure Bracket where
  owner : Option Ctx
  cs    : Bool
  order : BitOrder
  deriving DecidableEq, Repr

/-- No transaction: chip-select deasserted, MSB-first (R27, R28). -/
def Bracket.free : Bracket := ⟨none, false, .msb⟩

/-- One event of a well-bracketed history (R203): bus events lie between LOCK_ACQ(c) and LOCK_REL(c) of their own context, with
chip-select asserted for every exchange and never asserted or deasserted twice, and every other event lies outside. A
fault ends the history wherever it stands. -/
def bracketStep (b : Bracket) (e : Event) : Option Bracket :=
  match e with
  | .lockAcq x => if b = Bracket.free then some ⟨some x, false, .msb⟩ else none
  | .lockRel x => if b = ⟨some x, false, .msb⟩ then some Bracket.free else none
  | .xchg _ _ o x => if b = ⟨some x, true, o⟩ then some b else none
  | .csAssert x => if b.owner = some x ∧ b.cs = false then some { b with cs := true } else none
  | .csDeassert x => if b.owner = some x ∧ b.cs = true then some { b with cs := false } else none
  | .order o x => if b.owner = some x ∧ b.cs = true then some { b with order := o } else none
  | .mask => if b.owner = none then some b else none
  | .unmask => if b.owner = none then some b else none
  | .pginv _ => if b.owner = none then some b else none
  | .isrEnter => if b.owner = none then some b else none
  | .isrExit => if b.owner = none then some b else none
  | .resp _ _ => if b.owner = none then some b else none
  | .fault _ => some b

/-- The bracket a history leaves, if it is well bracketed. -/
def bracketOf (h : List Event) : Option Bracket :=
  h.foldl (fun b e => b.bind (fun b => bracketStep b e)) (some Bracket.free)

/-- The bracket the engine's own fields say is open. -/
def State.bracket (s : State) : Bracket := ⟨s.lockOwner, s.csAsserted, s.bitOrder⟩

/-! ## What a phase says of the engine's fields (R194, R195, R161, R164) -/

/-- What a flag is now, told from the primitives left: down if the next one that touches it raises it, up if that one lowers it,
and `atEnd` if none is left. -/
def flagNow (up down : Prim) (atEnd : Bool) : List Prim → Bool
  | [] => atEnd
  | p :: ps => if p = up then false else if p = down then true else flagNow up down atEnd ps

/-- At the end of its block the command is inside its transaction's body. -/
def Point.inBody : Point → Bool
  | .accepted => false
  | .opened => true
  | .frame _ _ => true
  | .closed => false

/-- The command has set the lock flag and not cleared it. -/
def InFlight.holdsLock (c : InFlight) : Bool := flagNow .lockAcq .lockRel c.point.inBody c.todo

/-- The command, a foreground one, has masked the interrupt source and not unmasked it. -/
def InFlight.holdsMask (c : InFlight) : Bool := flagNow .mask .unmask c.point.inBody c.todo

/-- The command has chip-select asserted. -/
def InFlight.holdsCs (cfg : Config) (c : InFlight) : Bool :=
  flagNow .csAssert .csDeassert (c.point.inBody && cfg.csMode == .perTransaction) c.todo

/-- The bit order the command has the transport in. -/
def InFlight.orderHeld (c : InFlight) : BitOrder :=
  if flagNow (.order .lsb) (.order .msb) false c.todo then .lsb else .msb

/-- The bracket a command has open. -/
def InFlight.bracket (cfg : Config) (x : Ctx) (c : InFlight) : Bracket :=
  if c.holdsLock then ⟨some x, c.holdsCs cfg, c.orderHeld⟩ else Bracket.free

/-- The bracket a slot has open. -/
def slotBracket (cfg : Config) (x : Ctx) (slot : Option InFlight) : Bracket :=
  match slot with
  | some c => c.bracket cfg x
  | none => Bracket.free

/-! ## The phases of each command (R34) -/

/-- How many exchanges a list of primitives holds. -/
def exchanges (ps : List Prim) : Nat :=
  ps.countP (fun p => match p with | .xchg _ => true | _ => false)

/-- The register a command reads (R137). -/
def readTarget (i : Instr) : Option RegAddr :=
  match i with
  | .rdreg addr => some addr
  | _ => none

/-- The register write a command is making (R138, R139). -/
def writeTarget (i : Instr) (c : InFlight) : Option ConfigEntry :=
  match i with
  | .wrreg addr val => some ⟨addr, val⟩
  | .wrbulk _ => some c.cur
  | _ => none

/-- The RegisterAddress a command is accessing (R137-R139). -/
def accessAddr (i : Instr) (c : InFlight) : Option RegAddr :=
  (readTarget i).or ((writeTarget i c).map (·.addr))

/-- The frame a FIFO command emits (R161, R164). -/
def fifoFrame (i : Instr) : Option Frame :=
  match i with
  | .fifowr nbits => some (.fifoWrite (lengthByte nbits))
  | .fiford => some .fifoRead
  | .fifordall _ => some .fifoRead
  | _ => none

/-- The frames of `VerifiedWrite(o, v)` (R133, R134). -/
def verifyFrame (cfg : Config) (off val : Byte) (st : Stage) : Frame :=
  match st with
  | .write => .regWrite off val
  | .addr => .regRead (shadowAddrOffset cfg)
  | .value => .regRead (shadowValOffset cfg)

/-- The page-select write of a command's access: none for a mirrored address (R135). -/
def pageWrite (cfg : Config) (a : RegAddr) (st : Stage) : Option Frame :=
  if mirrored a then none else some (verifyFrame cfg (pageSelOffset cfg) (pageSelectValue (pageOf a)) st)

/-- The frame a command's pseudocode emits in a role (R131-R139, R161, R164). -/
def frameFor (cfg : Config) (i : Instr) (c : InFlight) (role : Role) : Option Frame :=
  match role with
  | .verify .page st => (accessAddr i c).bind (fun a => pageWrite cfg a st)
  | .verify .target st => (writeTarget i c).map (fun e => verifyFrame cfg (offsetOf e.addr) e.val st)
  | .read => (readTarget i).map (fun a => .regRead (offsetOf a))
  | .fifo => fifoFrame i

/-- The primitives left are the end of a block. -/
def leftOf (todo block : List Prim) : Prop := todo <:+ block

/-- The responses a command needs at its completion are there (R88, R90), and no refused count among them (R167). -/
def answered (i : Instr) (c : InFlight) : Prop :=
  ((readTarget i).isSome = true → c.ok = true → c.rx.length = 3)
    ∧ (fifoFrame i = some .fifoRead → c.rx.length = 6 ∧ frameAnswer c ≠ .badCount)

/-- The block a command is in is one its pseudocode has, with the frame that pseudocode emits there and that frame's responses
so far. -/
def InFlight.placed (cfg : Config) (x : Ctx) (i : Instr) (c : InFlight) : Prop :=
  match c.point with
  | .accepted => c.todo = []
  | .opened => i ≠ .pginv ∧ leftOf c.todo (openPrims cfg x)
  | .frame f role =>
    frameFor cfg i c role = some f ∧ leftOf c.todo (framePrims cfg f)
      ∧ c.rx.length + exchanges c.todo = exchanges (framePrims cfg f)
      ∧ (∀ count, i = .wrbulk count → c.index < count.toNat)
  | .closed => i ≠ .pginv ∧ leftOf c.todo (closePrims cfg x) ∧ answered i c

/-- The locals of a command are in their ranges (R94): retries, entry index, accumulated bits. -/
def InFlight.ranged (cfg : Config) (i : Instr) (c : InFlight) : Prop :=
  c.attempt ≤ cfg.retryBound
    ∧ (∀ count, i = .wrbulk count → c.index ≤ count.toNat)
    ∧ (∀ maxBits, i = .fifordall maxBits → c.total ≤ maxBits.toNat)

/-- A command in flight that some run can have there: its word is a legal command's, its phase one of that command's. -/
def InFlight.legal (cfg : Config) (x : Ctx) (c : InFlight) : Prop :=
  ∃ i, decode c.word = .ok i ∧ i.wellFormed cfg = true ∧ c.placed cfg x i ∧ c.ranged cfg i

/-! ## The invariants of the machine (R40, R203) -/

/-- The lock, chip-select, bit order, mask, slots and history agree (R40 (a), R203). -/
structure State.Inv (s : State) : Prop where
  /-- The foreground command's phase is one of its own. -/
  fgLegal   : ∀ c, s.fgSlot = some c → c.legal s.cfg .fg
  /-- The interrupt context's command's phase is one of its own. -/
  isrLegal  : ∀ c, s.isrSlot = some c → c.legal s.cfg .isr
  /-- The interrupt context has a command only while it runs (R200, R201). -/
  isrRuns   : s.isrSlot ≠ none → s.isrActive = true
  /-- A foreground transaction keeps the source masked and the interrupt context out (R66, R199). -/
  fgMasks   : ∀ c, s.fgSlot = some c → c.holdsMask = true → s.irqMasked = true ∧ s.isrActive = false
  /-- The flag is set iff it has an owner (R23, R36). -/
  lockFlag  : s.lockHeld = s.lockOwner.isSome
  /-- Lock, chip-select and bit order are the foreground command's while it holds the lock, else the interrupt context's. -/
  fields    : s.bracket = if (slotBracket s.cfg .fg s.fgSlot).owner.isSome then slotBracket s.cfg .fg s.fgSlot
                else slotBracket s.cfg .isr s.isrSlot
  /-- The history is well bracketed and leaves open what the fields say (R203). -/
  bracketed : bracketOf s.history = some s.bracket

/-- While a command emits the frames of its own access to a non-mirrored register (it reads it, or writes and verifies it), the
page cache holds that register's page (R22, R40 (e)). -/
def State.pageKept (s : State) : Prop :=
  ∀ x c i f role a, s.slot x = some c → decode c.word = .ok i → c.point = .frame f role → accessAddr i c = some a →
    (role = .read ∨ ∃ st, role = .verify .target st) → mirrored a = false →
      s.pageCache = .page (pageOf a)

/-- Every buffer is in its canonical form. -/
def State.memoryWf (s : State) : Bool := Memory.wf s.eb && Memory.wf s.pb && Memory.wf s.ab

/-! ## Runs -/

/-- Run one instruction again and again in the running context, the transport supplying these bytes in turn. -/
def execRun (i : Instr) : List Byte → State → Result
  | [], s => .next s
  | rx :: rest, s =>
    match exec i (s.receive rx) with
    | .next t => execRun i rest t
    | r => r

/-- The exchanges of a history, the byte sent and the bit order of each. -/
def sentBytes (h : List Event) : List (Byte × BitOrder) :=
  h.filterMap (fun e => match e with | .xchg tx _ o _ => some (tx, o) | _ => none)

/-- The moves by which the slot of a context takes its steps with these answers. -/
def engineMoves (x : Ctx) (rxs : List Byte) : List Move := rxs.map (Move.engine x)

/-! ## What the statements say of a step -/

/-- The running context has command `i` in flight as `c`, and the engine has not halted. -/
abbrev State.runs (s : State) (i : Instr) (c : InFlight) : Prop :=
  s.fault = .noFault ∧ s.slot s.ctx = some c ∧ c.word = encode i

/-- The running context waits for a command (R242), and the engine has not halted. -/
abbrev State.idle (s : State) : Prop := s.fault = .noFault ∧ s.slot s.ctx = none

/-- The running context is between commands and the lock is free, outside every transaction (R27, R28, R203). -/
abbrev State.ready (s : State) : Prop := s.idle ∧ s.lockHeld = false ∧ s.bitOrder = .msb

/-- The foreground is between commands and runs, outside every transaction (R27, R28, R203). -/
abbrev State.foregroundIdle (s : State) : Prop :=
  s.fault = .noFault ∧ s.isrActive = false ∧ s.fgSlot = none ∧ s.lockHeld = false ∧ s.bitOrder = .msb

/-- The instruction of the wire frame a command is in. -/
def InFlight.frameInstr (c : InFlight) : Option Instr :=
  match c.point with
  | .frame f _ => some (Machine.frameInstr f)
  | .accepted => none
  | .opened => none
  | .closed => none

/-- The running context's command `c` is executing instruction `i`: the command itself, or the wire frame it is in. -/
abbrev State.executes (s : State) (i : Instr) (c : InFlight) : Prop :=
  s.fault = .noFault ∧ s.slot s.ctx = some c
    ∧ (i.isCommand = true ∧ c.word = encode i ∨ c.frameInstr = some i)

/-- The running context's command is at the start of wire frame `f` (R131, R132, R161, R164). -/
abbrev State.startsFrame (s : State) (f : Frame) (role : Role) (c : InFlight) : Prop :=
  s.fault = .noFault ∧ s.slot s.ctx = some c ∧ c.point = .frame f role ∧ c.todo = framePrims s.cfg f ∧ c.rx = []

/-- The primitives of the block at a point (R194, R195). -/
def blockPrims (cfg : Config) (x : Ctx) : Point → List Prim
  | .accepted => []
  | .opened => openPrims cfg x
  | .frame f _ => framePrims cfg f
  | .closed => closePrims cfg x

/-- The running context's command `i`, at the end of a block, takes a step with answer `q` that leaves it in flight as `d`: the step that
begins the next block. -/
abbrev State.begins (s : State) (i : Instr) (c : InFlight) (q : Byte) (t : State) (d : InFlight) : Prop :=
  i.isCommand = true ∧ s.runs i c ∧ c.todo = [] ∧ exec i (s.receive q) = .next t ∧ t.fault = .noFault ∧ t.slot s.ctx = some d

/-- From one block to the next a command keeps its word, WRBULK's index and entry, FIFORDALL's total (R34) and its mark (log 8). -/
structure InFlight.keepsTask (c d : InFlight) : Prop where
  word    : d.word = c.word
  index   : d.index = c.index
  cur     : d.cur = c.cur
  total   : d.total = c.total
  tainted : d.tainted = c.tainted

/-- The event of a primitive (R117): an exchange sends `tx` and receives `rx` in order `o`. -/
def Prim.event (x : Ctx) (tx rx : Byte) (o : BitOrder) : Prim → Event
  | .mask => .mask
  | .unmask => .unmask
  | .lockAcq => .lockAcq x
  | .lockRel => .lockRel x
  | .csAssert => .csAssert x
  | .csDeassert => .csDeassert x
  | .order o => .order o x
  | .xchg _ => .xchg tx rx o x

/-- What primitive `p` does to mask, lock, chip-select, bit order and history (R110, R113-R115, R192, R193). -/
structure State.performs (s : State) (p : Prim) (tx rx : Byte) (t : State) : Prop where
  irqMasked  : t.irqMasked = (match p with | .mask => true | .unmask => false | _ => s.irqMasked)
  lockHeld   : t.lockHeld = (match p with | .lockAcq => true | .lockRel => false | _ => s.lockHeld)
  lockOwner  : t.lockOwner = (match p with | .lockAcq => some s.ctx | .lockRel => none | _ => s.lockOwner)
  csAsserted : t.csAsserted = (match p with | .csAssert => true | .csDeassert => false | _ => s.csAsserted)
  bitOrder   : t.bitOrder = (match p with | .order o => o | _ => s.bitOrder)
  history    : t.history = s.history ++ [p.event s.ctx tx rx s.bitOrder]

/-- What a step of an instruction leaves as it was whatever it does: the interrupt input, the buffers the clients write, the
configuration, the moves to come, and the other context's command. -/
structure State.keeps (s t : State) : Prop where
  irqPending : t.irqPending = s.irqPending
  isrActive  : t.isrActive = s.isrActive
  eb         : t.eb = s.eb
  pb         : t.pb = s.pb
  cfg        : t.cfg = s.cfg
  script     : t.script = s.script
  rxIn       : t.rxIn = s.rxIn
  otherSlot  : ∀ x, x ≠ s.ctx → t.slot x = s.slot x

/-- The steps FrameOpen and FrameClose each take (R195). -/
def csSteps (cfg : Config) : Nat := if cfg.csMode = .perAccess then 1 else 0

/-- The events of a wire frame with its FrameOpen and FrameClose (R195). -/
def frameEvents (cfg : Config) (x : Ctx) (es : List Event) : List Event :=
  if cfg.csMode = .perAccess then .csAssert x :: es ++ [.csDeassert x] else es

/-- The events that open a transaction (R194, R196). -/
def openEvents (cfg : Config) (x : Ctx) : List Event :=
  (if x = .fg then [.mask] else []) ++ [.lockAcq x] ++ (if cfg.csMode = .perTransaction then [.csAssert x] else [])

/-- The events that close a transaction (R194, R196). -/
def closeEvents (cfg : Config) (x : Ctx) : List Event :=
  (if cfg.csMode = .perTransaction then [.csDeassert x] else []) ++ [.lockRel x] ++ (if x = .fg then [.unmask] else [])

/-- The reserved bits of each opcode's word (R83): opcode, lowest bit, width. -/
def reservedBits : List (Nat × Nat × Nat) :=
  [(1, 16, 12), (2, 24, 4), (3, 16, 12), (4, 9, 19), (5, 0, 28), (6, 16, 12), (7, 0, 28)]

/-- The length in bytes of a wire frame (R92). -/
def frameLength : Instr → Nat
  | .regRead _ => 3
  | .regWrite _ _ => 3
  | .fifoWrite len => 2 + (len.toNat + 1 + 7) / 8
  | .fifoRead => 6
  | .rdreg _ => 0
  | .wrreg _ _ => 0
  | .wrbulk _ => 0
  | .fifowr _ => 0
  | .fiford => 0
  | .fifordall _ => 0
  | .pginv => 0

/-- The command byte of a wire frame (R87). -/
def frameCommandByte (cfg : Config) : Instr → Option Byte
  | .regRead _ => some cfg.cmdRead
  | .regWrite _ _ => some cfg.cmdWrite
  | .fifoWrite _ => some cfg.cmdFifoWrite
  | .fifoRead => some cfg.cmdFifoRead
  | .rdreg _ => none
  | .wrreg _ _ => none
  | .wrbulk _ => none
  | .fifowr _ => none
  | .fiford => none
  | .fifordall _ => none
  | .pginv => none

/-- The nine exchanges of one attempt of `VerifiedWrite(o, v)`, the bytes sent (R134), all MSB-first. -/
def attemptBytes (cfg : Config) (off val : Byte) : List (Byte × BitOrder) :=
  [cfg.cmdWrite, off, val, cfg.cmdRead, shadowAddrOffset cfg, cfg.dummyByte, cfg.cmdRead, shadowValOffset cfg,
    cfg.dummyByte].map (fun b => (b, .msb))

/-- The steps of a register frame (R88, R195). -/
def frameSteps (cfg : Config) : Nat := 3 + 2 * csSteps cfg

/-- The steps of a WRREG that switches no page and makes `n` attempts (R138): acceptance, opening, three frames an attempt, closing,
response. -/
def wrregSteps (s : State) (n : Nat) : Nat :=
  1 + (openEvents s.cfg s.ctx).length + 3 * frameSteps s.cfg * n + (closeEvents s.cfg s.ctx).length + 1

/-- The answer to the last exchange of frame `j` of attempt `k` of such a WRREG: frame 1 reads the address shadow, frame 2 the value
shadow (R134). -/
def shadowAnswer (s : State) (rxs : List Byte) (k j : Nat) : Byte :=
  rxs.getD (1 + (openEvents s.cfg s.ctx).length + 3 * frameSteps s.cfg * k + frameSteps s.cfg * j + csSteps s.cfg + 2) 0

/-- A WRREG went from acceptance to response `r` in the running context, making `n` attempts (R138): the slot is empty, the lock free, the
foreground unmasked again, and nothing but the attempts' bytes was sent. -/
structure State.wroteRegister (s : State) (off val : Byte) (n : Nat) (r : ResponseWord) (t : State) : Prop where
  keeps      : (s.receive t.rxIn).keeps t
  slot       : t.slot s.ctx = none
  pageCache  : t.pageCache = s.pageCache
  lock       : t.lockHeld = false ∧ t.lockOwner = none
  irqMasked  : t.irqMasked = (if s.ctx = .fg then false else s.irqMasked)
  csAsserted : t.csAsserted = false
  bitOrder   : t.bitOrder = .msb
  fault      : t.fault = .noFault
  rest       : t.ab = s.ab ∧ t.abTotals = s.abTotals ∧ t.draws = s.draws ∧ t.faultInfo = s.faultInfo
  responds   : t.history.getLast? = some (.resp s.ctx r)
  sent       : sentBytes t.history = sentBytes s.history ++ (List.replicate n (attemptBytes s.cfg off val)).flatten

/-- A FIFO_WRITE frame of `n` bytes was sent from state `s` to state `t` for command `c`, the transport answering `rxs` (R161): each
payload byte is PB's, or, once a client changed PB in flight, some byte drawn (I9, the model's choice: logs 6, 8). -/
structure State.wroteFifo (s : State) (c : InFlight) (len : Byte) (n : Nat) (rxs : List Byte) (t : State) : Prop where
  history  : ∃ sent : List Byte, sent.length = n ∧
    (c.tainted = false → ∀ k, k < n → sent.getD k 0 = readPayload s k) ∧
    t.history = s.history ++ frameEvents s.cfg s.ctx
      ([.xchg s.cfg.cmdFifoWrite (rxs.getD 0 0) .msb s.ctx, .xchg len (rxs.getD 1 0) .msb s.ctx, .order .lsb s.ctx] ++
        (List.range n).map (fun k => .xchg (sent.getD k 0) (rxs.getD (3 + k) 0) .lsb s.ctx) ++ [.order .msb s.ctx])
  draws    : t.draws = s.draws + (if c.tainted then n else 0)
  slot     : ∃ d, t.slot s.ctx = some d ∧ d.todo = [] ∧ c.keepsTask d ∧ ∃ role, d.point = .frame (.fifoWrite len) role
  bitOrder : t.bitOrder = .msb

/-- A FIFO_READ frame was made from state `s` to state `t` for command `c` with these responses to its exchanges (R164). -/
structure State.readFifo (s : State) (c : InFlight) (a r0 r1 r2 r3 st : Byte) (t : State) : Prop where
  history  : t.history = s.history ++ frameEvents s.cfg s.ctx
    [.xchg s.cfg.cmdFifoRead a .msb s.ctx, .order .lsb s.ctx, .xchg s.cfg.dummyByte r0 .lsb s.ctx,
      .xchg s.cfg.dummyByte r1 .lsb s.ctx, .xchg s.cfg.dummyByte r2 .lsb s.ctx, .xchg s.cfg.dummyByte r3 .lsb s.ctx,
      .order .msb s.ctx, .xchg s.cfg.dummyByte st .msb s.ctx]
  slot     : ∃ d, t.slot s.ctx = some d ∧ d.todo = [] ∧ c.keepsTask d ∧ (∃ role, d.point = .frame .fifoRead role) ∧
    d.rx = [a, r0, r1, r2, r3, st] ∧ frameWord d = r3 ++ r2 ++ r1 ++ r0 ∧ frameStatus d = st
  bitOrder : t.bitOrder = .msb

/-- A state after a fault was raised in it, with nothing else changed (R212). -/
def State.raised (s : State) (code : FaultCode) (info : FaultInfo) : State :=
  { s with fault := code, faultInfo := info, history := s.history ++ [.fault code] }

end Sys2Proof.Machine
end

