-- ==== Sys2Proof/Certificates/Slice0/Obligations.lean ====
section
/-! DEFINITION. The statements for the provers. "The running context" is `s.ctx`: the handler while it is active, else the
foreground (R26, R201). A statement about `exec i s` is about ONE step of instruction `i` (R33, log 5); which step a computation, a
`return` or a `raise` between two primitives belongs to is the model's reading (log 12). -/

open Sys2Proof Sys2Proof.Machine

/-! ## Encodings -/

/-- R81-R83, R86: every host command, at every operand value, is read back from the word it is encoded as. -/
def Obligations.CommandsDecodeFromTheirWords : Prop :=
  ∀ i : Instr, i.isCommand = true → decode (encode i) = .ok i

/-- R80, R83: a word selects at most one command, and it is the word of that command: no bit is ignored. -/
def Obligations.DecodedWordIsItsEncoding : Prop :=
  ∀ (w : CommandWord) (i : Instr), decode w = .ok i → i.isCommand = true ∧ encode i = w

/-- R82, R83, R93: a word is rejected as an illegal opcode iff OP is 0x0 or 0x8..0xF, and for a reserved field iff its opcode is
legal and a reserved bit of that opcode's layout is set. -/
def Obligations.RejectedWords : Prop :=
  ∀ w : CommandWord,
    (decode w = .error .illegalOpcode ↔ (w.toNat / 2 ^ 28 = 0 ∨ 8 ≤ w.toNat / 2 ^ 28)) ∧
    (decode w = .error .reservedField ↔
      ∃ r ∈ reservedBits, w.toNat / 2 ^ 28 = r.1 ∧ w.toNat / 2 ^ r.2.1 % 2 ^ r.2.2 ≠ 0)

/-- R95, R96: the spec's encoding examples, written out: each word decodes to the command it stands for, and the assembler makes each word
from its line; with the context names and the pseudo-forms. -/
def Obligations.SpecExamplesDecodeAndAssemble : Prop :=
  (decode 0x10000112 = .ok (.rdreg 0x0112) ∧ decode 0x205A0112 = .ok (.wrreg 0x0112 0x5A) ∧
    decode 0x30000003 = .ok (.wrbulk 3) ∧ decode 0x40000009 = .ok (.fifowr 9) ∧
    decode 0x40000100 = .ok (.fifowr 256) ∧ decode 0x50000000 = .ok .fiford ∧
    decode 0x60000040 = .ok (.fifordall 64) ∧ decode 0x70000000 = .ok .pginv) ∧
  ∀ cfg : Config,
    assembleLine cfg "rdreg 0x0112".toList = some (some (.issue .fg 0x10000112)) ∧
    assembleLine cfg "wrreg 0x0112, 0x5A".toList = some (some (.issue .fg 0x205A0112)) ∧
    assembleLine cfg "isr: wrbulk 3".toList = some (some (.issue .isr 0x30000003)) ∧
    assembleLine cfg "fifowr 9".toList = some (some (.issue .fg 0x40000009)) ∧
    assembleLine cfg "fg: fifowr 256 ; a whole PB".toList = some (some (.issue .fg 0x40000100)) ∧
    assembleLine cfg "fiford".toList = some (some (.issue .fg 0x50000000)) ∧
    assembleLine cfg "fifordall 64".toList = some (some (.issue .fg 0x60000040)) ∧
    assembleLine cfg "isr: pginv".toList = some (some (.issue .isr 0x70000000)) ∧
    assembleLine cfg "isr.enter".toList = some (some .isrEnter) ∧
    assembleLine cfg "isr.exit".toList = some (some .isrExit) ∧
    assembleLine cfg "edge".toList = some (some (.edge cfg.edge))

/-- R87-R90, R92: under a well-formed configuration the bytes of a wire frame are read back as that frame and its payload,
whatever bytes follow. -/
def Obligations.FramesDecodeFromTheirBytes : Prop :=
  ∀ (cfg : Config) (i : Instr) (payload rest : List Byte), cfg.wf = true → i.isCommand = false →
    payload.length + 2 = (match i with | .fifoWrite len => 2 + (len.toNat + 8) / 8 | _ => 2) →
    decodeFrame cfg (encodeFrame cfg payload i ++ rest) = .ok (i, payload, rest)

/-- R92: the first byte, and for FIFO_WRITE the length byte, decide which frame a byte sequence opens with and how long it is. -/
def Obligations.FrameLengthIsDecidedByItsBytes : Prop :=
  ∀ (cfg : Config) (bytes : List Byte) (i : Instr) (payload rest : List Byte),
    decodeFrame cfg bytes = .ok (i, payload, rest) →
    bytes.head? = frameCommandByte cfg i ∧ bytes.length = frameLength i + rest.length ∧
      bytes.drop (frameLength i) = rest ∧ (∀ len, i = .fifoWrite len → bytes[1]? = some len)

/-! ## The bits on the line -/

/-- R111, R60: a byte survives the line in either order, and the bits of a FIFO read's four payload bytes, in the order they
travel, are the payload word's bits in increasing significance (the bit level is PRESUMED, log 22). -/
def Obligations.LineCarriesPayloadBitsInOrder : Prop :=
  (∀ (o : BitOrder) (b : Byte), byteOfWire o (wireBits o b) = b) ∧
    (∀ b : Byte, wireBits .msb b = (wireBits .lsb b).reverse ∧ (wireBits .lsb b).head? = some (b.getLsbD 0)) ∧
    ∀ r0 r1 r2 r3 : Byte,
      wireStream .lsb [r0, r1, r2, r3] = (List.range 32).map (fun k => (fifoWord r0 r1 r2 r3).getLsbD k)

/-! ## Configuration and reset -/

/-- R10, R214: which configurations are well-formed (with the upper bounds of R9 for MAX_BULK and MAX_ACC_BITS, log 17), and that there is no
machine for any other. -/
def Obligations.ConfigurationCheck : Prop :=
  (∀ cfg : Config, cfg.wf = true ↔
    (cfg.cmdRead ≠ cfg.cmdWrite ∧ cfg.cmdRead ≠ cfg.cmdFifoWrite ∧ cfg.cmdRead ≠ cfg.cmdFifoRead ∧
      cfg.cmdWrite ≠ cfg.cmdFifoWrite ∧ cfg.cmdWrite ≠ cfg.cmdFifoRead ∧ cfg.cmdFifoWrite ≠ cfg.cmdFifoRead) ∧
    (∀ a ∈ [cfg.pageSelAddr, cfg.shadowAddrAddr, cfg.shadowValAddr], a.toNat < 2 ^ 10 ∧ 0xA0 ≤ a.toNat % 256) ∧
    (cfg.pageSelAddr.toNat % 256 ≠ cfg.shadowAddrAddr.toNat % 256 ∧
      cfg.pageSelAddr.toNat % 256 ≠ cfg.shadowValAddr.toNat % 256 ∧
      cfg.shadowAddrAddr.toNat % 256 ≠ cfg.shadowValAddr.toNat % 256) ∧
    cfg.retryBound ≤ 255 ∧ 1 ≤ cfg.maxBulk ∧ cfg.maxBulk ≤ 65535 ∧ cfg.maxAccBits ≤ 65535) ∧
  ∀ s : State, s.cfg.wf = false → step s = .refused .refusedConfig

/-- R240, R242: the engine right after reset, under any configuration. -/
def Obligations.ResetValues : Prop :=
  ∀ cfg : Config, ∀ s : State, s = State.resetWith cfg →
    s.pageCache = cfg.pageCacheReset ∧ s.lockHeld = false ∧ s.lockOwner = none ∧ s.irqMasked = cfg.irqMaskReset ∧
      s.irqPending = false ∧ s.isrActive = false ∧ s.bitOrder = .msb ∧ s.csAsserted = false ∧ s.fault = .noFault ∧
      s.fgSlot = none ∧ s.isrSlot = none ∧ s.history = []

/-! ## Invariants of every step -/

/-- R40 (a)-(d), R203: the invariant holds right after reset, under any configuration. -/
def Obligations.ResetKeepsTheInvariant : Prop :=
  ∀ cfg : Config, (State.resetWith cfg).Inv ∧ (State.resetWith cfg).pageKept ∧ (State.resetWith cfg).memoryWf = true

/-- R34, R40, R194, R195, R199-R204: whatever move comes, the lock, the chip-select, the bit order, the mask, the phases and
the history stay consistent. -/
def Obligations.StepKeepsTheInvariant : Prop :=
  ∀ s t : State, s.Inv → step s = .next t → t.Inv

/-- R22, R40 (e): whatever move comes, a command that emits the frames of its own access to a paged register has its page in
the cache. -/
def Obligations.StepKeepsThePage : Prop :=
  ∀ s t : State, s.Inv → s.pageKept → step s = .next t → t.pageKept

/-- The buffers stay in canonical form (the model's own form of R56-R58, logs 7, 9). -/
def Obligations.StepKeepsBuffersCanonical : Prop :=
  ∀ s t : State, s.memoryWf = true → step s = .next t → t.memoryWf = true

/-- R32, R9: no step changes the configuration, and the history only grows. -/
def Obligations.HistoryOnlyGrows : Prop :=
  ∀ s t : State, step s = .next t → t.cfg = s.cfg ∧ s.history <+: t.history

/-- R34: no step finds a command in a phase that its pseudocode does not have (log 16). -/
def Obligations.StepIsNeverOutOfPlace : Prop :=
  ∀ s : State, s.Inv → step s ≠ .fault .phaseOutOfPlace

/-- R203, R40 (a), (b), R27, R28, R192: outside a transaction chip-select is deasserted and the order MSB; no two commands hold
the lock; every exchange, the first of its frame or a later one, happens with chip-select asserted, by the lock's owner; a LOCK_ACQ, the
first step of its transaction or not, never finds the flag set, so no slot's step faults LOCK_REENTRY or is refused for it; no command has
made more than RETRY_BOUND retries. -/
def Obligations.TransactionsNeverOverlap : Prop :=
  ∀ s : State, s.Inv →
    (s.lockOwner = none → s.lockHeld = false ∧ s.csAsserted = false ∧ s.bitOrder = .msb) ∧
    (∀ c d, s.fgSlot = some c → s.isrSlot = some d → ¬(c.holdsLock = true ∧ d.holdsLock = true)) ∧
    (∀ c src rest, s.slot s.ctx = some c → c.todo = .xchg src :: rest →
      s.csAsserted = true ∧ s.lockOwner = some s.ctx) ∧
    (∀ c rest, s.slot s.ctx = some c → c.todo = .lockAcq :: rest → s.lockHeld = false) ∧
    (∀ c, s.slot s.ctx = some c → c.todo = [] →
      ((c.point = .accepted ∨ c.point = .closed) → s.lockHeld = false ∧ s.lockOwner = none ∧ s.csAsserted = false) ∧
      ((c.point = .opened ∨ ∃ f role, c.point = .frame f role) →
        s.lockHeld = true ∧ s.lockOwner = some s.ctx ∧ s.csAsserted = decide (s.cfg.csMode = .perTransaction))) ∧
    (∀ t, step s = .next t →
      (∀ tx rx o x, .xchg tx rx o x ∈ t.history.drop s.history.length →
        x = s.ctx ∧ t.csAsserted = true ∧ t.lockOwner = some x ∧ t.bitOrder = o) ∧
      (∀ x, .lockAcq x ∈ t.history.drop s.history.length → x = s.ctx ∧ s.lockHeld = false)) ∧
    (∀ x rx moves, s.script = .engine x rx :: moves → step s ≠ .refused .refusedReentry ∧
      ∀ t, step s = .next t → t.fault = .lockReentry → s.fault = .lockReentry) ∧
    (∀ x c, s.slot x = some c → c.attempt ≤ s.cfg.retryBound)

/-! ## A step runs an instruction -/

/-- R190, R215: a legal command word that a client may issue into its empty slot runs its command, the script moved on. -/
def Obligations.IssuedWordRunsItsCommand : Prop :=
  ∀ (s : State) (w : CommandWord) (i : Instr) (moves : List Move),
    s.cfg.wf = true → s.script = .issue s.ctx w :: moves → s.fault = .noFault → s.slot s.ctx = none →
    decode w = .ok i → step s = exec i (s.setScript moves)

/-- R33, R112: when the running context's slot takes its step, the machine runs the instruction that its command is executing: the
wire frame in progress, or else the command of its word; the transport's answer is what an exchange receives. -/
def Obligations.SlotStepRunsItsInstruction : Prop :=
  ∀ (s : State) (c : InFlight) (i : Instr) (rx : Byte) (moves : List Move),
    s.cfg.wf = true → s.script = .engine s.ctx rx :: moves → s.fault = .noFault → s.slot s.ctx = some c →
    (c.todo ≠ [] ∧ c.frameInstr = some i ∨
      (c.todo = [] ∨ c.frameInstr = none) ∧ decode c.word = .ok i) →
    step s = exec i ((s.setScript moves).receive rx)

/-- R212, R213, R220: a halted engine takes no step; only a configured edge changes it, and that sets `irqPending` alone. That every
other move is dropped without effect is the model's choice (logs 2, 14). -/
def Obligations.HaltedEngineLatchesEdgesOnly : Prop :=
  ∀ (s : State) (m : Move) (moves : List Move), s.cfg.wf = true → s.fault ≠ .noFault → s.script = m :: moves →
    step s = .next { s with script := moves, irqPending := s.irqPending || decide (m = .edge s.cfg.edge) }

/-- R220: the configured edge sets `irqPending` in every state, masked or not, faulted or not; a second edge while it is set
changes nothing. -/
def Obligations.EdgeLatches : Prop :=
  ∀ (s : State) (moves : List Move), s.cfg.wf = true → s.script = .edge s.cfg.edge :: moves →
    step s = .next { s with script := moves, irqPending := true } ∧
      (s.irqPending = true → step s = .next (s.setScript moves))

/-- R199: ISR_ENTER happens iff an edge is pending, the source unmasked, no interrupt context active and no fault recorded; it
sets `isrActive`, clears `irqPending` and emits its event; and it is never enabled while the foreground holds the lock. That a
move not enabled is dropped without effect is the model's choice (log 2). -/
def Obligations.InterruptEntry : Prop :=
  ∀ (s : State) (moves : List Move), s.cfg.wf = true → s.script = .isrEnter :: moves →
    ((s.irqPending = true ∧ s.irqMasked = false ∧ s.isrActive = false ∧ s.fault = .noFault) →
      step s = .next { s with script := moves, isrActive := true, irqPending := false,
                              history := s.history ++ [.isrEnter] }) ∧
    (¬(s.irqPending = true ∧ s.irqMasked = false ∧ s.isrActive = false ∧ s.fault = .noFault) →
      step s = .next (s.setScript moves)) ∧
    (s.Inv → ∀ c, s.fgSlot = some c → c.holdsLock = true → step s = .next (s.setScript moves))

/-- R200: ISR_EXIT happens iff the interrupt context is active, its slot empty and no fault recorded; it clears `isrActive` and
emits its event. That a move not enabled is dropped without effect is the model's choice (log 2). -/
def Obligations.InterruptExit : Prop :=
  ∀ (s : State) (moves : List Move), s.cfg.wf = true → s.script = .isrExit :: moves →
    ((s.isrActive = true ∧ s.isrSlot = none ∧ s.fault = .noFault) →
      step s = .next { s with script := moves, isrActive := false, history := s.history ++ [.isrExit] }) ∧
    (¬(s.isrActive = true ∧ s.isrSlot = none ∧ s.fault = .noFault) → step s = .next (s.setScript moves))

/-- R201: the context that does not run issues nothing, writes no buffer, and its slot takes no step: such a move is dropped, the
model's choice (logs 2, 15). -/
def Obligations.PreemptedContextDoesNothing : Prop :=
  ∀ (s : State) (x : Ctx) (m : Move) (moves : List Move), s.cfg.wf = true → x ≠ s.ctx →
    ((∃ w, m = .issue x w) ∨ (∃ rx, m = .engine x rx) ∨ (∃ i e, m = .writeEB x i e) ∨ ∃ i b, m = .writePB x i b) →
    s.script = m :: moves → step s = .next (s.setScript moves)

/-! ## Acceptance -/

/-- R93, R210, R212, R215: a word that selects no command, issued into an empty slot, records ILLEGAL_OPCODE or RESERVED_FIELD with
the word and the context, and leaves every other field as it stood. -/
def Obligations.RejectedWordFaults : Prop :=
  ∀ (s : State) (w : CommandWord) (moves : List Move), s.cfg.wf = true → s.script = .issue s.ctx w :: moves →
    s.fault = .noFault → s.slot s.ctx = none →
    (decode w = .error .illegalOpcode →
      step s = .next ((s.setScript moves).raised .illegalOpcode ⟨w, s.ctx, none, none⟩)) ∧
    (decode w = .error .reservedField →
      step s = .next ((s.setScript moves).raised .reservedField ⟨w, s.ctx, none, none⟩))

/-- R204, R215, R192, R197: a word issued on a port whose slot is occupied, whatever the word, and a LOCK_ACQ that finds the flag set,
inside the opening of its transaction or (in the interrupt context, R196) as its first step, fault LOCK_REENTRY; where DEBUG_LOCK_CHECK
is false the run is refused instead. Which command word is recorded is the model's reading (log 13), and so is that FIFORDALL's last
frame is already in AB when its next LOCK_ACQ faults (log 12). -/
def Obligations.ReentryFaultsOrIsRefused : Prop :=
  (∀ (s : State) (c : InFlight) (w : CommandWord) (moves : List Move), s.cfg.wf = true →
    s.script = .issue s.ctx w :: moves → s.fault = .noFault → s.slot s.ctx = some c →
    (s.cfg.debugLockCheck = true →
      step s = .next ((s.setScript moves).raised .lockReentry ⟨w, s.ctx, none, none⟩)) ∧
    (s.cfg.debugLockCheck = false → step s = .refused .refusedReentry)) ∧
  ∀ (s : State) (i : Instr) (c : InFlight), i.isCommand = true → s.runs i c → s.lockHeld = true →
    ((∃ rest, c.todo = .lockAcq :: rest) ∨ (s.ctx = .isr ∧ i ≠ .pginv ∧ c.point = .accepted ∧ c.todo = []) →
      (s.cfg.debugLockCheck = true → exec i s = .next (s.raised .lockReentry ⟨c.word, s.ctx, none, none⟩)) ∧
      (s.cfg.debugLockCheck = false → exec i s = .refused .refusedReentry)) ∧
    (∀ (maxBits : BitVec 16) (w : BitVec 32) (n : Nat), i = .fifordall maxBits → s.ctx = .isr → c.point = .closed →
      c.todo = [] → frameAnswer c = .frame w n → 0 < n → c.total + n ≤ maxBits.toNat →
      (s.cfg.debugLockCheck = true → exec i s =
        .next ((s.setAb (writeBits s.ab c.total w n)).raised .lockReentry ⟨c.word, .isr, none, none⟩)) ∧
      (s.cfg.debugLockCheck = false → exec i s = .refused .refusedReentry))

/-- R93, R83, R50, R210: the operand checks of acceptance, their codes and what is recorded; nothing of the command happens. -/
def Obligations.OperandFaultsAtAcceptance : Prop :=
  ∀ s : State, s.idle →
    (∀ addr : RegAddr, 2 ^ 10 ≤ addr.toNat →
      exec (.rdreg addr) s = .next (s.raised .addrReservedBits ⟨encode (.rdreg addr), s.ctx, none, none⟩) ∧
      ∀ val, exec (.wrreg addr val) s =
        .next (s.raised .addrReservedBits ⟨encode (.wrreg addr val), s.ctx, none, none⟩)) ∧
    (∀ count : BitVec 16, s.cfg.maxBulk < count.toNat →
      exec (.wrbulk count) s = .next (s.raised .operandRange ⟨encode (.wrbulk count), s.ctx, none, none⟩)) ∧
    (∀ nbits : BitVec 9, nbits.toNat = 0 ∨ 256 < nbits.toNat →
      exec (.fifowr nbits) s = .next (s.raised .operandRange ⟨encode (.fifowr nbits), s.ctx, none, none⟩)) ∧
    (∀ maxBits : BitVec 16, s.cfg.maxAccBits < maxBits.toNat →
      exec (.fifordall maxBits) s = .next (s.raised .operandRange ⟨encode (.fifordall maxBits), s.ctx, none, none⟩))

/-- R136: a WRREG whose offset is one of the three protocol registers', whatever its page bits, faults PROTECTED_TARGET at acceptance,
and so does a WRBULK with such an entry (the first that fails a check); RDREG of them is accepted. -/
def Obligations.ProtectedTargetsFault : Prop :=
  ∀ (s : State) (addr : RegAddr), s.idle → addr.toNat < 2 ^ 10 →
    (offsetOf addr = offsetOf s.cfg.pageSelAddr ∨ offsetOf addr = offsetOf s.cfg.shadowAddrAddr ∨
      offsetOf addr = offsetOf s.cfg.shadowValAddr) →
    (∀ val, exec (.wrreg addr val) s =
      .next (s.raised .protectedTarget ⟨encode (.wrreg addr val), s.ctx, none, none⟩)) ∧
    (∀ (count : BitVec 16) (j : Nat), count.toNat ≤ s.cfg.maxBulk → j < count.toNat → (readEntry s j).addr = addr →
      (∀ k, k < j → writeTargetFault s.cfg (readEntry s k).addr = none) →
      exec (.wrbulk count) s = .next (s.raised .protectedTarget ⟨encode (.wrbulk count), s.ctx, some j, none⟩)) ∧
    exec (.rdreg addr) s = .next (s.putSlot s.ctx (some (freshCommand (encode (.rdreg addr)))))

/-- R93, R139: WRBULK's entries are checked in index order before anything is done, and the first that fails decides the fault and its
recorded index. -/
def Obligations.BulkEntriesAreCheckedInOrder : Prop :=
  ∀ (s : State) (count : BitVec 16) (j : Nat), s.idle → count.toNat ≤ s.cfg.maxBulk → j < count.toNat →
    (∀ k, k < j → writeTargetFault s.cfg (readEntry s k).addr = none) →
    (2 ^ 10 ≤ (readEntry s j).addr.toNat →
      exec (.wrbulk count) s = .next (s.raised .addrReservedBits ⟨encode (.wrbulk count), s.ctx, some j, none⟩)) ∧
    ((readEntry s j).addr.toNat < 2 ^ 10 → protocolOffset s.cfg (offsetOf (readEntry s j).addr) = true →
      exec (.wrbulk count) s = .next (s.raised .protectedTarget ⟨encode (.wrbulk count), s.ctx, some j, none⟩))

/-- R215, R30: a command whose operands (and, for WRBULK, entries) pass every check fills the empty slot at phase 0, its locals not yet
set (log 21), and nothing else happens. -/
def Obligations.LegalCommandIsAccepted : Prop :=
  ∀ (s : State) (i : Instr), s.idle → i.isCommand = true → i.wellFormed s.cfg = true →
    (∀ count, i = .wrbulk count → ∀ k, k < count.toNat → writeTargetFault s.cfg (readEntry s k).addr = none) →
    exec i s = .next (s.putSlot s.ctx (some (freshCommand (encode i))))

/-! ## Primitives, transactions and frames -/

/-- R33, R110, R113-R115, R117, R192, R193: each primitive is one step that does exactly this, emits exactly its event and moves the
phase on by one, whichever command or wire frame executes it; a payload byte is PB's, or some byte drawn once a client changed PB in
flight (I9, the model's choice: logs 6, 8). The first primitive of a block is taken by the step that begins the block (log 5). -/
def Obligations.EachPrimitiveIsOneStep : Prop :=
  (∀ (s : State) (i : Instr) (c : InFlight) (p : Prim) (rest : List Prim),
    s.executes i c → c.todo = p :: rest → (p = .lockAcq → s.lockHeld = false) →
    ∀ u : State, u = s.putSlot s.ctx (some { c with todo := rest }) →
    ∃ v : Byte, (c.tainted = false → ∀ k, p = .xchg (.payload k) → v = readPayload s k) ∧
    exec i s = .next (match p with
      | .mask => { u with irqMasked := true, history := s.history ++ [.mask] }
      | .unmask => { u with irqMasked := false, history := s.history ++ [.unmask] }
      | .lockAcq => { u with lockHeld := true, lockOwner := some s.ctx, history := s.history ++ [.lockAcq s.ctx] }
      | .lockRel => { u with lockHeld := false, lockOwner := none, history := s.history ++ [.lockRel s.ctx] }
      | .csAssert => { u with csAsserted := true, history := s.history ++ [.csAssert s.ctx] }
      | .csDeassert => { u with csAsserted := false, history := s.history ++ [.csDeassert s.ctx] }
      | .order o => { u with bitOrder := o, history := s.history ++ [.order o s.ctx] }
      | .xchg (.byte b) =>
        { s.putSlot s.ctx (some { c with todo := rest, rx := c.rx ++ [s.rxIn] }) with
          history := s.history ++ [.xchg b s.rxIn s.bitOrder s.ctx] }
      | .xchg (.payload _) =>
        { s.putSlot s.ctx (some { c with todo := rest, rx := c.rx ++ [s.rxIn] }) with
          history := s.history ++ [.xchg v s.rxIn s.bitOrder s.ctx],
          draws := s.draws + (if c.tainted then 1 else 0) })) ∧
  ∀ (s : State) (i : Instr) (c : InFlight) (q : Byte) (t : State) (d : InFlight), s.begins i c q t d →
    ∃ p tx, blockPrims s.cfg s.ctx d.point = p :: d.todo ∧ s.performs p tx q t ∧ (p = .lockAcq → s.lockHeld = false) ∧
      (∀ src, p = .xchg src → src = .byte tx ∧ d.rx = [q])

/-- R33, R88-R90, R110: the wire frame in progress exchanges its next byte: REG_READ, REG_WRITE and FIFO_READ one that the frame fixes,
FIFO_WRITE that or the next byte of PB or, once a client changed PB in flight, some byte drawn (I9, the model's
choice: logs 6, 8). -/
def Obligations.WireFramesExchangeTheirBytes : Prop :=
  ∀ (s : State) (c : InFlight) (role : Role) (b : Byte) (rest : List Prim), s.fault = .noFault → s.slot s.ctx = some c →
    ∀ u : State, u = s.putSlot s.ctx (some { c with todo := rest, rx := c.rx ++ [s.rxIn] }) →
    (c.todo = .xchg (.byte b) :: rest → ∀ off val len,
      (c.point = .frame (.regRead off) role →
        exec (.regRead off) s = .next { u with history := s.history ++ [.xchg b s.rxIn s.bitOrder s.ctx] }) ∧
      (c.point = .frame (.regWrite off val) role →
        exec (.regWrite off val) s = .next { u with history := s.history ++ [.xchg b s.rxIn s.bitOrder s.ctx] }) ∧
      (c.point = .frame (.fifoWrite len) role →
        exec (.fifoWrite len) s = .next { u with history := s.history ++ [.xchg b s.rxIn s.bitOrder s.ctx] }) ∧
      (c.point = .frame .fifoRead role →
        exec .fifoRead s = .next { u with history := s.history ++ [.xchg b s.rxIn s.bitOrder s.ctx] })) ∧
    (∀ k len, c.todo = .xchg (.payload k) :: rest → c.point = .frame (.fifoWrite len) role →
      (c.tainted = false → exec (.fifoWrite len) s =
        .next { u with history := s.history ++ [.xchg (readPayload s k) s.rxIn s.bitOrder s.ctx] }) ∧
      (c.tainted = true → ∃ v : Byte, exec (.fifoWrite len) s =
        .next { u with history := s.history ++ [.xchg v s.rxIn s.bitOrder s.ctx], draws := s.draws + 1 }))

/-- R194, R195, R196: every command but PGINV opens its transaction with these events in this order, ends up holding the lock for its
context (FIFORDALL with nothing accumulated) and, in the foreground only, with the source masked; the end of a transaction emits these events in
this order and leaves the lock free and, in the foreground, the source unmasked. Said of the run from the end of the block before, whose next step begins the
opening (a FIFORDALL's later ones too) or the closing, and of a closing that stands whole. -/
def Obligations.TransactionBracket : Prop :=
  ∀ (s : State) (i : Instr) (c : InFlight), i.isCommand = true → i ≠ .pginv → s.runs i c →
    (∀ rxs : List Byte, c.point = .accepted → c.todo = [] → s.lockHeld = false →
      rxs.length = (openEvents s.cfg s.ctx).length →
      ∃ t, execRun i rxs s = .next t ∧ t.history = s.history ++ openEvents s.cfg s.ctx ∧
        t.lockHeld = true ∧ t.lockOwner = some s.ctx ∧ t.irqMasked = (decide (s.ctx = .fg) || s.irqMasked) ∧
        t.csAsserted = (decide (s.cfg.csMode = .perTransaction) || s.csAsserted) ∧ t.pageCache = s.pageCache ∧
        ∃ d, t.slot s.ctx = some d ∧ d.point = .opened ∧ d.todo = [] ∧ d.word = c.word ∧ d.tainted = c.tainted ∧
          ∀ maxBits, i = .fifordall maxBits → d.total = 0) ∧
    (∀ (q : Byte) (t1 : State) (d : InFlight) (rest : List Byte), s.begins i c q t1 d → d.point = .opened →
      s.lockHeld = false → rest.length + 1 = (openEvents s.cfg s.ctx).length →
      ∃ t, execRun i rest t1 = .next t ∧ t.history = s.history ++ openEvents s.cfg s.ctx ∧
        t.lockHeld = true ∧ t.lockOwner = some s.ctx ∧ t.irqMasked = (decide (s.ctx = .fg) || s.irqMasked) ∧
        t.csAsserted = (decide (s.cfg.csMode = .perTransaction) || s.csAsserted) ∧ t.pageCache = s.pageCache ∧
        t.slot s.ctx = some { d with todo := [] }) ∧
    (∀ (q : Byte) (t1 : State) (d : InFlight) (rest : List Byte), s.begins i c q t1 d → d.point = .closed →
      rest.length + 1 = (closeEvents s.cfg s.ctx).length →
      ∃ t, execRun i rest t1 = .next t ∧ t.history = s.history ++ closeEvents s.cfg s.ctx ∧
        t.lockHeld = false ∧ t.lockOwner = none ∧ t.irqMasked = (if s.ctx = .fg then false else s.irqMasked) ∧
        t.csAsserted = (if s.cfg.csMode = .perTransaction then false else s.csAsserted) ∧ t.pageCache = t1.pageCache ∧
        t.slot s.ctx = some { d with todo := [] }) ∧
    (∀ rxs : List Byte, c.todo = closePrims s.cfg s.ctx → rxs.length = (closeEvents s.cfg s.ctx).length →
      ∃ t, execRun i rxs s = .next t ∧ t.history = s.history ++ closeEvents s.cfg s.ctx ∧
        t.lockHeld = false ∧ t.lockOwner = none ∧ t.irqMasked = (if s.ctx = .fg then false else s.irqMasked) ∧
        t.csAsserted = (if s.cfg.csMode = .perTransaction then false else s.csAsserted) ∧
        t.slot s.ctx = some { c with todo := [] })

/-- R131, R132, R88: a REG_READ frame is CMD_READ, the offset and the dummy byte, a REG_WRITE frame CMD_WRITE, the offset and the value, all
MSB-first, inside FrameOpen and FrameClose; the response to REG_READ's third exchange is the value it yields. Said of the run from the
end of the block before, whose next step begins the frame, and of a frame that stands whole. -/
def Obligations.RegisterFrames : Prop :=
  ∀ (s : State) (c : InFlight) (off val : Byte) (role : Role) (a b d : Byte) (q q' : List Byte),
    s.bitOrder = .msb → q.length = csSteps s.cfg → q'.length = csSteps s.cfg →
    (s.startsFrame (.regRead off) role c →
      ∃ t, execRun (.regRead off) (q ++ [a, b, d] ++ q') s = .next t ∧
        t.history = s.history ++ frameEvents s.cfg s.ctx
          [.xchg s.cfg.cmdRead a .msb s.ctx, .xchg off b .msb s.ctx, .xchg s.cfg.dummyByte d .msb s.ctx] ∧
        t.slot s.ctx = some { c with todo := [], rx := [a, b, d] } ∧
        readAnswer { c with todo := [], rx := [a, b, d] } = d ∧ t.bitOrder = .msb) ∧
    (s.startsFrame (.regWrite off val) role c →
      ∃ t, execRun (.regWrite off val) (q ++ [a, b, d] ++ q') s = .next t ∧
        t.history = s.history ++ frameEvents s.cfg s.ctx
          [.xchg s.cfg.cmdWrite a .msb s.ctx, .xchg off b .msb s.ctx, .xchg val d .msb s.ctx] ∧
        t.slot s.ctx = some { c with todo := [], rx := [a, b, d] } ∧ t.bitOrder = .msb) ∧
    ∀ (i : Instr) (r : Byte) (rest : List Byte) (t1 : State) (d1 : InFlight), s.begins i c r t1 d1 →
      r :: rest = q ++ [a, b, d] ++ q' →
      (d1.point = .frame (.regRead off) role →
        ∃ t, execRun (.regRead off) rest t1 = .next t ∧
          t.history = s.history ++ frameEvents s.cfg s.ctx
            [.xchg s.cfg.cmdRead a .msb s.ctx, .xchg off b .msb s.ctx, .xchg s.cfg.dummyByte d .msb s.ctx] ∧
          t.slot s.ctx = some { d1 with todo := [], rx := [a, b, d] } ∧
          readAnswer { d1 with todo := [], rx := [a, b, d] } = d ∧ t.bitOrder = .msb) ∧
      (d1.point = .frame (.regWrite off val) role →
        ∃ t, execRun (.regWrite off val) rest t1 = .next t ∧
          t.history = s.history ++ frameEvents s.cfg s.ctx
            [.xchg s.cfg.cmdWrite a .msb s.ctx, .xchg off b .msb s.ctx, .xchg val d .msb s.ctx] ∧
          t.slot s.ctx = some { d1 with todo := [], rx := [a, b, d] } ∧ t.bitOrder = .msb)

/-- R161, R89, R163: the FIFO_WRITE frame of `nbits` bits is its command byte and the length byte `nbits - 1` MSB-first, then the
`ceil(nbits/8)` payload bytes of PB whole, from PB[0] on, LSB-first, the order being MSB again before the frame closes. A command whose
PB a client changed in flight sends free bytes instead, which I9 leaves open; that it does so for each byte from then on, and that each
advances `draws` by one, is the model's choice (logs 6, 8). Said of the run from the end of the block before,
whose next step begins the frame, and of a frame that stands whole. -/
def Obligations.FifoWriteFrame : Prop :=
  ∀ (s : State) (c : InFlight) (nbits : BitVec 9) (len : Byte) (role : Role) (q q' rxs : List Byte), 1 ≤ nbits.toNat →
    nbits.toNat ≤ 256 → len = BitVec.ofNat 8 (nbits.toNat - 1) → s.bitOrder = .msb → q.length = csSteps s.cfg →
    q'.length = csSteps s.cfg → rxs.length = 4 + (nbits.toNat + 7) / 8 →
    (s.startsFrame (.fifoWrite len) role c →
      ∃ t, execRun (.fifoWrite len) (q ++ rxs ++ q') s = .next t ∧ s.wroteFifo c len ((nbits.toNat + 7) / 8) rxs t) ∧
    ∀ (i : Instr) (r : Byte) (rest : List Byte) (t1 : State) (d1 : InFlight), s.begins i c r t1 d1 →
      d1.point = .frame (.fifoWrite len) role → r :: rest = q ++ rxs ++ q' →
      ∃ t, execRun (.fifoWrite len) rest t1 = .next t ∧ s.wroteFifo c len ((nbits.toNat + 7) / 8) rxs t

/-- R164, R165, R90: a FIFO_READ frame is its command byte MSB-first, four dummy bytes LSB-first whose responses are the payload
word's bytes from the low one up, and a dummy byte MSB-first whose response is the status byte. The command's locals but the
responses stay (the mark of log 8 among them, the model's own). Said of the run from the end of the block before, whose next step begins
the frame, and of a frame that stands whole. -/
def Obligations.FifoReadFrame : Prop :=
  ∀ (s : State) (c : InFlight) (role : Role) (a r0 r1 r2 r3 st x y : Byte) (q q' : List Byte),
    s.bitOrder = .msb → q.length = csSteps s.cfg → q'.length = csSteps s.cfg →
    (s.startsFrame .fifoRead role c →
      ∃ t, execRun .fifoRead (q ++ [a, x, r0, r1, r2, r3, y, st] ++ q') s = .next t ∧ s.readFifo c a r0 r1 r2 r3 st t) ∧
    ∀ (i : Instr) (r : Byte) (rest : List Byte) (t1 : State) (d1 : InFlight), s.begins i c r t1 d1 →
      d1.point = .frame .fifoRead role → r :: rest = q ++ [a, x, r0, r1, r2, r3, y, st] ++ q' →
      ∃ t, execRun .fifoRead rest t1 = .next t ∧ s.readFifo c a r0 r1 r2 r3 st t

/-! ## Page switching and write verification -/

/-- R135, R139, R141, R51: the first frame of RDREG, WRREG and a WRBULK entry: the access itself where the address is mirrored or the
cache holds its page, else a write of the page number to the page-select register; the cache does not change yet. WRBULK's entry is
EB's, or one drawn once a client changed EB in flight (I9, the model's choice: logs 6, 8); a WRBULK of no
entry ends its body with no frame, successful. -/
def Obligations.PageCheckDecidesTheFirstFrame : Prop :=
  ∀ (s : State) (c : InFlight) (addr : RegAddr) (val : Byte), c.point = .opened → c.todo = [] →
    (s.runs (.rdreg addr) c →
      ∃ t d, exec (.rdreg addr) s = .next t ∧ t.slot s.ctx = some d ∧ t.pageCache = s.pageCache ∧
        d.todo.length + 1 = (framePrims s.cfg (.regRead 0)).length ∧ c.keepsTask d ∧
        d.point = (if 0xA0 ≤ addr.toNat % 256 ∨ s.pageCache = .page (addr.extractLsb' 8 2)
          then .frame (.regRead (addr.extractLsb' 0 8)) .read
          else .frame (.regWrite (offsetOf s.cfg.pageSelAddr) ((addr.extractLsb' 8 2).zeroExtend 8)) (.verify .page .write))) ∧
    (s.runs (.wrreg addr val) c →
      ∃ t d, exec (.wrreg addr val) s = .next t ∧ t.slot s.ctx = some d ∧ t.pageCache = s.pageCache ∧
        d.todo.length + 1 = (framePrims s.cfg (.regWrite 0 0)).length ∧ d.attempt = 0 ∧ c.keepsTask d ∧
        d.point = (if 0xA0 ≤ addr.toNat % 256 ∨ s.pageCache = .page (addr.extractLsb' 8 2)
          then .frame (.regWrite (addr.extractLsb' 0 8) val) (.verify .target .write)
          else .frame (.regWrite (offsetOf s.cfg.pageSelAddr) ((addr.extractLsb' 8 2).zeroExtend 8)) (.verify .page .write))) ∧
    (∀ count : BitVec 16, s.runs (.wrbulk count) c → 0 < count.toNat →
      ∃ t d e, exec (.wrbulk count) s = .next t ∧ t.slot s.ctx = some d ∧ t.pageCache = s.pageCache ∧
        (c.tainted = false → e = readEntry s 0) ∧ t.draws = s.draws + (if c.tainted then 1 else 0) ∧
        d.todo.length + 1 = (framePrims s.cfg (.regWrite 0 0)).length ∧ d.attempt = 0 ∧ d.index = 0 ∧ d.cur = e ∧
        d.word = c.word ∧ d.tainted = c.tainted ∧
        d.point = (if 0xA0 ≤ e.addr.toNat % 256 ∨ s.pageCache = .page (e.addr.extractLsb' 8 2)
          then .frame (.regWrite (e.addr.extractLsb' 0 8) e.val) (.verify .target .write)
          else .frame (.regWrite (offsetOf s.cfg.pageSelAddr) ((e.addr.extractLsb' 8 2).zeroExtend 8))
            (.verify .page .write))) ∧
    (∀ count : BitVec 16, s.runs (.wrbulk count) c → count.toNat = 0 →
      ∃ t d, exec (.wrbulk count) s = .next t ∧ t.slot s.ctx = some d ∧ t.pageCache = s.pageCache ∧ t.draws = s.draws ∧
        d.todo.length + 1 = (closePrims s.cfg s.ctx).length ∧ d.index = 0 ∧ d.point = .closed ∧ d.ok = true ∧
        d.word = c.word ∧ d.tainted = c.tainted)

/-- R133, R134: after every REG_WRITE of a verified write, page switch or target, the engine reads the shadow-address register, then,
whatever it answered, the shadow-value register; if either differs from what was written and the bound allows, the whole write
is made again. The command, WRBULK's index and its entry stay the same throughout. -/
def Obligations.ReadBackFollowsEveryWrite : Prop :=
  ∀ (s : State) (i : Instr) (c : InFlight) (f : Frame) (g : Purpose) (st : Stage) (off val : Byte), s.runs i c →
    i.isCommand = true → c.point = .frame f (.verify g st) → c.todo = [] →
    frameFor s.cfg i c (.verify g .write) = some (.regWrite off val) →
    (st = .write → ∃ t d, exec i s = .next t ∧ t.slot s.ctx = some d ∧ t.pageCache = s.pageCache ∧ d.attempt = c.attempt ∧
      c.keepsTask d ∧ d.point = .frame (.regRead (offsetOf s.cfg.shadowAddrAddr)) (.verify g .addr)) ∧
    (st = .addr → ∃ t d, exec i s = .next t ∧ t.slot s.ctx = some d ∧ t.pageCache = s.pageCache ∧ d.attempt = c.attempt ∧
      c.keepsTask d ∧ d.shadowA = readAnswer c ∧ d.point = .frame (.regRead (offsetOf s.cfg.shadowValAddr)) (.verify g .value)) ∧
    (st = .value → ¬(c.shadowA = off ∧ readAnswer c = val) → c.attempt < s.cfg.retryBound →
      ∃ t d, exec i s = .next t ∧ t.slot s.ctx = some d ∧ t.pageCache = s.pageCache ∧ d.attempt = c.attempt + 1 ∧
        c.keepsTask d ∧ d.point = .frame (.regWrite off val) (.verify g .write))

/-- R135, R134, R31, D11: a page switch that verifies puts the page in the cache and goes on to the access, whose own write begins at attempt
0, whatever the switch spent; one that fails every attempt makes the
cache INVALID and ends the body without touching the target. The command, WRBULK's index and its entry stay the same. -/
def Obligations.PageSwitchOutcome : Prop :=
  ∀ (s : State) (c : InFlight) (f : Frame) (addr : RegAddr), c.point = .frame f (.verify .page .value) → c.todo = [] →
    ∀ (i : Instr) (target : Frame) (role : Role),
    ((i = .rdreg addr ∧ target = .regRead (offsetOf addr) ∧ role = .read) ∨
      (∃ val, i = .wrreg addr val ∧ target = .regWrite (offsetOf addr) val ∧ role = .verify .target .write) ∨
      (∃ count, i = .wrbulk count ∧ addr = c.cur.addr ∧ target = .regWrite (offsetOf addr) c.cur.val ∧
        role = .verify .target .write)) →
    s.runs i c →
    ((c.shadowA = offsetOf s.cfg.pageSelAddr ∧ readAnswer c = (pageOf addr).zeroExtend 8) →
      ∃ t d, exec i s = .next t ∧ t.slot s.ctx = some d ∧ t.pageCache = .page (pageOf addr) ∧
        d.point = .frame target role ∧ c.keepsTask d ∧ (role = .verify .target .write → d.attempt = 0)) ∧
    (¬(c.shadowA = offsetOf s.cfg.pageSelAddr ∧ readAnswer c = (pageOf addr).zeroExtend 8) →
      s.cfg.retryBound ≤ c.attempt →
      ∃ t d, exec i s = .next t ∧ t.slot s.ctx = some d ∧ t.pageCache = .invalid ∧ d.point = .closed ∧ d.ok = false ∧
        c.keepsTask d)

/-- R138, R134: WRREG ends its body with success iff both shadows of some attempt matched; with failure when the last attempt the bound
allows did not; the register cache does not change. -/
def Obligations.WrregTargetOutcome : Prop :=
  ∀ (s : State) (c : InFlight) (f : Frame) (addr : RegAddr) (val : Byte),
    c.point = .frame f (.verify .target .value) → c.todo = [] → s.runs (.wrreg addr val) c →
    ((c.shadowA = offsetOf addr ∧ readAnswer c = val) ∨ s.cfg.retryBound ≤ c.attempt) →
    ∃ t d, exec (.wrreg addr val) s = .next t ∧ t.slot s.ctx = some d ∧ t.pageCache = s.pageCache ∧ d.point = .closed ∧
      c.keepsTask d ∧ d.ok = decide (c.shadowA = offsetOf addr ∧ readAnswer c = val)

/-- R139, R134, R31: WRBULK goes on to the next entry when an entry verified, at attempt 0 of its own, ends its body after the
last one, and ends it at the first failure with the failing entry's index, the entries after it untouched. The next entry is EB's, or one drawn once a client changed EB in flight (I9,
the model's choice: logs 6, 8). -/
def Obligations.BulkStopsAtTheFirstFailure : Prop :=
  ∀ (s : State) (c : InFlight) (f : Frame) (count : BitVec 16),
    c.point = .frame f (.verify .target .value) → c.todo = [] → s.runs (.wrbulk count) c →
    ((c.shadowA = offsetOf c.cur.addr ∧ readAnswer c = c.cur.val) → c.index + 1 < count.toNat →
      ∃ t d, exec (.wrbulk count) s = .next t ∧ t.slot s.ctx = some d ∧ d.index = c.index + 1 ∧ d.attempt = 0 ∧
        d.word = c.word ∧ d.tainted = c.tainted ∧
        (c.tainted = false → d.cur = readEntry s (c.index + 1)) ∧ t.draws = s.draws + (if c.tainted then 1 else 0) ∧
        t.pageCache = s.pageCache ∧
        d.point = (if mirrored d.cur.addr = true ∨ s.pageCache = .page (pageOf d.cur.addr)
          then .frame (.regWrite (offsetOf d.cur.addr) d.cur.val) (.verify .target .write)
          else .frame (.regWrite (offsetOf s.cfg.pageSelAddr) ((pageOf d.cur.addr).zeroExtend 8)) (.verify .page .write))) ∧
    ((c.shadowA = offsetOf c.cur.addr ∧ readAnswer c = c.cur.val) → c.index + 1 = count.toNat →
      ∃ t d, exec (.wrbulk count) s = .next t ∧ t.slot s.ctx = some d ∧ d.index = count.toNat ∧ d.word = c.word ∧
        d.point = .closed ∧ d.ok = true) ∧
    (¬(c.shadowA = offsetOf c.cur.addr ∧ readAnswer c = c.cur.val) → s.cfg.retryBound ≤ c.attempt →
      ∃ t d, exec (.wrbulk count) s = .next t ∧ t.slot s.ctx = some d ∧ d.index = c.index ∧ d.word = c.word ∧
        d.point = .closed ∧ d.ok = false)

/-! ## Completion of the commands -/

/-- R137, R84, R85: after its read frame RDREG closes its transaction, its body successful; its response is OK with the value read, or FAIL
with some byte (a draw, I4) when the page switch failed. -/
def Obligations.RdregResponds : Prop :=
  ∀ (s : State) (c : InFlight) (addr : RegAddr), s.runs (.rdreg addr) c → c.todo = [] →
    (∀ f, c.point = .frame f .read → ∃ t d, exec (.rdreg addr) s = .next t ∧ t.slot s.ctx = some d ∧
      t.pageCache = s.pageCache ∧ d.point = .closed ∧ d.ok = true ∧ d.rx = c.rx ∧ c.keepsTask d) ∧
    (∀ a b d : Byte, c.point = .closed → c.ok = true → c.rx = [a, b, d] →
      exec (.rdreg addr) s = .next { s.putSlot s.ctx none with
        history := s.history ++ [.resp s.ctx (0#48 ++ d ++ 0x00#8)] }) ∧
    (c.point = .closed → c.ok = false → ∃ v : Byte,
      exec (.rdreg addr) s = .next { s.putSlot s.ctx none with
        history := s.history ++ [.resp s.ctx (0#48 ++ v ++ 0x01#8)], draws := s.draws + 1 })

/-- R138, R162, R84, R85: WRREG responds OK or FAIL, FIFOWR always OK; every other bit of the response is zero. -/
def Obligations.WriteCommandsRespond : Prop :=
  ∀ (s : State) (c : InFlight), c.point = .closed → c.todo = [] →
    (∀ addr val, s.runs (.wrreg addr val) c →
      exec (.wrreg addr val) s = .next { s.putSlot s.ctx none with
        history := s.history ++ [.resp s.ctx (if c.ok = true then 0 else 1)] }) ∧
    (∀ nbits, s.runs (.fifowr nbits) c →
      exec (.fifowr nbits) s = .next { s.putSlot s.ctx none with history := s.history ++ [.resp s.ctx 0] })

/-- R139, R84, R85: WRBULK responds OK iff every entry was applied, with the number of entries applied in [31:16]. -/
def Obligations.WrbulkResponds : Prop :=
  ∀ (s : State) (c : InFlight) (count : BitVec 16), s.runs (.wrbulk count) c → c.point = .closed → c.todo = [] →
    exec (.wrbulk count) s = .next { s.putSlot s.ctx none with
      history := s.history ++ [.resp s.ctx (0#32 ++ BitVec.ofNat 16 c.index ++
        (if c.index = count.toNat then 0x0000#16 else 0x0001#16))] }

/-- R166, R167, R84: FIFORD responds OVERFLOW with no payload when status bit 7 is set, else OK with the whole word and the count
(bit 6 ignored). -/
def Obligations.FifordResponds : Prop :=
  ∀ (s : State) (c : InFlight) (a r0 r1 r2 r3 st : Byte), s.runs .fiford c → c.point = .closed → c.todo = [] →
    c.rx = [a, r0, r1, r2, r3, st] →
    (128 ≤ st.toNat →
      exec .fiford s = .next { s.putSlot s.ctx none with history := s.history ++ [.resp s.ctx 2] }) ∧
    (st.toNat < 128 → st.toNat % 64 ≤ 32 →
      exec .fiford s = .next { s.putSlot s.ctx none with
        history := s.history ++ [.resp s.ctx (r3 ++ r2 ++ r1 ++ r0 ++ 0#10 ++ st.extractLsb' 0 6 ++ 0x0000#16)] })

/-- R169, R84, R58: FIFORDALL ends with OVERFLOW, at a frame of 0 bits with OK, and at the first frame that does not fit with
BUFFER_TOO_SMALL; the response carries the bits accumulated; AB keeps the bits below that (the others are unspecified, log 9, even
where the other context's FIFORDALL accumulated them: the model's choice, log 24), and nothing else changes. -/
def Obligations.FifordallEnds : Prop :=
  ∀ (s : State) (c : InFlight) (maxBits : BitVec 16) (a r0 r1 r2 r3 st : Byte), s.runs (.fifordall maxBits) c →
    c.point = .closed → c.todo = [] → c.rx = [a, r0, r1, r2, r3, st] →
    ∀ code : BitVec 16,
    ((128 ≤ st.toNat ∧ code = 2) ∨ (st.toNat < 128 ∧ st.toNat % 64 = 0 ∧ code = 0) ∨
      (st.toNat < 128 ∧ 0 < st.toNat % 64 ∧ st.toNat % 64 ≤ 32 ∧ maxBits.toNat < c.total + st.toNat % 64 ∧ code = 3)) →
    ∃ t, exec (.fifordall maxBits) s = .next t ∧ (∀ j, j < c.total → readBit t j = readBit s j) ∧
      t = { s.putSlot s.ctx none with
        history := s.history ++ [.resp s.ctx (0#32 ++ BitVec.ofNat 16 c.total ++ code)],
        ab := t.ab, abTotals := t.abTotals }

/-- R169, R170, R58: a frame that fits is appended: payload bit k at index total + k, no other bit of AB changed, so that AB read as a number
has below it what stood there (the earlier frames, unless the other context's FIFORDALL came between: log 24); then the next frame's
transaction begins. -/
def Obligations.FifordallAppends : Prop :=
  ∀ (s : State) (c : InFlight) (maxBits : BitVec 16) (a r0 r1 r2 r3 st : Byte), s.runs (.fifordall maxBits) c →
    c.point = .closed → c.todo = [] → c.rx = [a, r0, r1, r2, r3, st] → s.lockHeld = false →
    st.toNat < 128 → 0 < st.toNat % 64 → st.toNat % 64 ≤ 32 → c.total + st.toNat % 64 ≤ maxBits.toNat →
    ∃ t d, exec (.fifordall maxBits) s = .next t ∧ t.slot s.ctx = some d ∧ d.point = .opened ∧
      d.word = c.word ∧ d.total = c.total + st.toNat % 64 ∧
      (∀ k, k < st.toNat % 64 → readBit t (c.total + k) = (r3 ++ r2 ++ r1 ++ r0).getLsbD k) ∧
      (∀ j, j < c.total ∨ c.total + st.toNat % 64 ≤ j → readBit t j = readBit s j) ∧
      readBits t 0 d.total =
        readBits s 0 c.total + (r3 ++ r2 ++ r1 ++ r0).toNat % 2 ^ (st.toNat % 64) * 2 ^ c.total

/-- R167, R210, R212, R216: at the end of a FIFO_READ frame a count of 33..63 with bit 7 clear records FIFO_COUNT_RANGE with the status
byte, inside the transaction, and changes nothing else; any other status byte, bit 7 first, closes the transaction. -/
def Obligations.FifoCountAboveWordHalts : Prop :=
  ∀ (s : State) (c : InFlight) (i : Instr) (a r0 r1 r2 r3 st : Byte), (i = .fiford ∨ ∃ maxBits, i = .fifordall maxBits) →
    s.runs i c → c.point = .frame .fifoRead .fifo → c.todo = [] → c.rx = [a, r0, r1, r2, r3, st] →
    ((st.toNat < 128 ∧ 32 < st.toNat % 64) →
      exec i s = .next (s.raised .fifoCountRange ⟨c.word, s.ctx, none, some st⟩)) ∧
    (¬(st.toNat < 128 ∧ 32 < st.toNat % 64) →
      ∃ t d, exec i s = .next t ∧ t.slot s.ctx = some d ∧ d.point = .closed ∧ d.rx = c.rx ∧ c.keepsTask d ∧ t.fault = .noFault ∧
        t.ab = s.ab ∧ t.abTotals = s.abTotals)

/-- R140: PGINV, issued on an empty slot, is accepted and then, in one step, invalidates the cache, emits its event and responds OK:
no lock, no bus event. That the response belongs to that step is the model's reading (log 11). -/
def Obligations.PginvInvalidates : Prop :=
  ∀ (s : State) (r r' : Byte), s.idle →
    exec .pginv s = .next (s.putSlot s.ctx (some (freshCommand (encode .pginv)))) ∧
    execRun .pginv [r, r'] s = .next { s with
      pageCache := .invalid, rxIn := r', history := s.history ++ [.pginv s.ctx, .resp s.ctx 0] } ∧
    (∀ c, c.word = encode .pginv → c.point = .accepted → c.todo = [] →
      exec .pginv (s.putSlot s.ctx (some c)) = .next { s with
        pageCache := .invalid, history := s.history ++ [.pginv s.ctx, .resp s.ctx 0] })

/-! ## Whole commands -/

/-- R137, R194, R196, R88: an RDREG that needs no page switch, from acceptance to response, in either chip-select mode: in the foreground it
masks and unmasks, in the interrupt context it takes the lock flag alone. -/
def Obligations.RdregRun : Prop :=
  ∀ (s : State) (addr : RegAddr) (a b d q0 q1 q2 q3 q4 q5 q6 q7 : Byte), addr.toNat < 2 ^ 10 →
    (mirrored addr = true ∨ s.pageCache = .page (pageOf addr)) →
    (s.foregroundIdle →
      execRun (.rdreg addr) [q0, q1, q2, q3, a, b, d, q4, q5, q6, q7] s = .next { s with
        irqMasked := false, lockOwner := none, csAsserted := false, rxIn := q7,
        history := s.history ++ [.mask, .lockAcq .fg, .csAssert .fg, .xchg s.cfg.cmdRead a .msb .fg,
          .xchg (offsetOf addr) b .msb .fg, .xchg s.cfg.dummyByte d .msb .fg, .csDeassert .fg, .lockRel .fg, .unmask,
          .resp .fg (0#48 ++ d ++ 0x00#8)] }) ∧
    (s.fault = .noFault → s.isrActive = true → s.isrSlot = none → s.lockHeld = false → s.bitOrder = .msb →
      execRun (.rdreg addr) [q0, q1, q2, a, b, d, q3, q4, q5] s = .next { s with
        lockOwner := none, csAsserted := false, rxIn := q5,
        history := s.history ++ [.lockAcq .isr, .csAssert .isr, .xchg s.cfg.cmdRead a .msb .isr,
          .xchg (offsetOf addr) b .msb .isr, .xchg s.cfg.dummyByte d .msb .isr, .csDeassert .isr, .lockRel .isr,
          .resp .isr (0#48 ++ d ++ 0x00#8)] })

/-- R138, R134: a WRREG that needs no page switch and whose first read-back matches makes one attempt of nine exchanges and responds OK: in
either context, in either chip-select mode, whatever the other answers. -/
def Obligations.WrregFirstAttemptRun : Prop :=
  ∀ (s : State) (addr : RegAddr) (val : Byte) (rxs : List Byte), s.ready → writeTargetFault s.cfg addr = none →
    (mirrored addr = true ∨ s.pageCache = .page (pageOf addr)) →
    rxs.length = wrregSteps s 1 → shadowAnswer s rxs 0 1 = offsetOf addr → shadowAnswer s rxs 0 2 = val →
    ∃ t, execRun (.wrreg addr val) rxs s = .next t ∧ s.wroteRegister (offsetOf addr) val 1 0 t

/-- R134, R138: a WRREG that needs no page switch and whose every read-back differs, in the address or the value shadow, costs exactly
(1 + RETRY_BOUND) × 9 exchanges and responds FAIL, leaving the lock free and no fault (R211): in either context, in either chip-select
mode, whatever the other answers. -/
def Obligations.WrregNeverVerifiedRun : Prop :=
  ∀ (s : State) (addr : RegAddr) (val : Byte) (rxs : List Byte), s.ready → writeTargetFault s.cfg addr = none →
    (mirrored addr = true ∨ s.pageCache = .page (pageOf addr)) →
    rxs.length = wrregSteps s (1 + s.cfg.retryBound) →
    (∀ k, k ≤ s.cfg.retryBound → ¬(shadowAnswer s rxs k 1 = offsetOf addr ∧ shadowAnswer s rxs k 2 = val)) →
    ∃ t, execRun (.wrreg addr val) rxs s = .next t ∧
      s.wroteRegister (offsetOf addr) val (1 + s.cfg.retryBound) 1 t

/-- R162, R161, R194, R223: a FIFOWR of any legal length, from acceptance to response, in either context and either chip-select mode. And in
flight, its PB changed or not, a FIFOWR at the end of its opening begins its FIFO_WRITE frame, and at the end of that frame the
closing. -/
def Obligations.FifowrRun : Prop :=
  ∀ (s : State) (nbits : BitVec 9), 1 ≤ nbits.toNat → nbits.toNat ≤ 256 →
    (∀ p rxs p' : List Byte, s.ready → p.length = 1 + (openEvents s.cfg s.ctx).length + csSteps s.cfg →
      rxs.length = 4 + (nbits.toNat + 7) / 8 → p'.length = csSteps s.cfg + (closeEvents s.cfg s.ctx).length + 1 →
      execRun (.fifowr nbits) (p ++ rxs ++ p') s = .next { s with
        irqMasked := if s.ctx = .fg then false else s.irqMasked, lockOwner := none, csAsserted := false, rxIn := p'.getLastD 0,
        history := s.history ++ openEvents s.cfg s.ctx ++ frameEvents s.cfg s.ctx
          ([.xchg s.cfg.cmdFifoWrite (rxs.getD 0 0) .msb s.ctx,
            .xchg (BitVec.ofNat 8 (nbits.toNat - 1)) (rxs.getD 1 0) .msb s.ctx, .order .lsb s.ctx] ++
            (List.range ((nbits.toNat + 7) / 8)).map
              (fun k => .xchg (readPayload s k) (rxs.getD (3 + k) 0) .lsb s.ctx) ++ [.order .msb s.ctx]) ++
          closeEvents s.cfg s.ctx ++ [.resp s.ctx 0] }) ∧
    (∀ (c : InFlight) (q : Byte), s.runs (.fifowr nbits) c → c.todo = [] →
      (c.point = .opened → ∃ t d, s.begins (.fifowr nbits) c q t d ∧ c.keepsTask d ∧
        d.point = .frame (.fifoWrite (BitVec.ofNat 8 (nbits.toNat - 1))) .fifo) ∧
      (∀ f, c.point = .frame f .fifo → ∃ t d, s.begins (.fifowr nbits) c q t d ∧ c.keepsTask d ∧ d.point = .closed))

/-- R166, R164, R167, R169, R223: a FIFORD from acceptance to response, in either context and either chip-select mode, for every status byte
with a legal answer. And in flight, a FIFORD or FIFORDALL at the end of an opening begins its FIFO_READ frame. -/
def Obligations.FifordRun : Prop :=
  ∀ s : State,
    (∀ (a x r0 r1 r2 r3 y st : Byte) (p p' : List Byte), s.ready →
      p.length = 1 + (openEvents s.cfg s.ctx).length + csSteps s.cfg →
      p'.length = csSteps s.cfg + (closeEvents s.cfg s.ctx).length + 1 → (128 ≤ st.toNat ∨ st.toNat % 64 ≤ 32) →
      execRun .fiford (p ++ [a, x, r0, r1, r2, r3, y, st] ++ p') s = .next { s with
        irqMasked := if s.ctx = .fg then false else s.irqMasked, lockOwner := none, csAsserted := false, rxIn := p'.getLastD 0,
        history := s.history ++ openEvents s.cfg s.ctx ++ frameEvents s.cfg s.ctx
          [.xchg s.cfg.cmdFifoRead a .msb s.ctx, .order .lsb s.ctx, .xchg s.cfg.dummyByte r0 .lsb s.ctx,
            .xchg s.cfg.dummyByte r1 .lsb s.ctx, .xchg s.cfg.dummyByte r2 .lsb s.ctx, .xchg s.cfg.dummyByte r3 .lsb s.ctx,
            .order .msb s.ctx, .xchg s.cfg.dummyByte st .msb s.ctx] ++
          closeEvents s.cfg s.ctx ++ [.resp s.ctx
            (if 128 ≤ st.toNat then 2 else r3 ++ r2 ++ r1 ++ r0 ++ 0#10 ++ st.extractLsb' 0 6 ++ 0x0000#16)] }) ∧
    (∀ (i : Instr) (c : InFlight) (q : Byte), (i = .fiford ∨ ∃ maxBits, i = .fifordall maxBits) → s.runs i c → c.todo = [] →
      c.point = .opened → ∃ t d, s.begins i c q t d ∧ c.keepsTask d ∧ d.point = .frame .fifoRead .fifo)

/-! ## What an instruction leaves unchanged -/

/-- R22, R27, R36, R130, R196: a step of RDREG, WRREG, WRBULK or PGINV leaves AB, the bit order and all surroundings as they were; the cache
changes only in PGINV's step or at the end of a page-select read-back; the mask only in the foreground; PGINV touches neither
lock, mask nor chip-select. Written: cache, lock, mask, chip-select, fault register, own slot, history, free values drawn. -/
def Obligations.FrameOfRegisterCommands : Prop :=
  ∀ (s t : State) (i : Instr), s.Inv →
    ((∃ addr, i = .rdreg addr) ∨ (∃ addr val, i = .wrreg addr val) ∨ (∃ count, i = .wrbulk count) ∨ i = .pginv) →
    exec i s = .next t →
    s.keeps t ∧ t.ab = s.ab ∧ t.abTotals = s.abTotals ∧ t.bitOrder = s.bitOrder ∧
    (t.pageCache ≠ s.pageCache → i = .pginv ∨
      ∃ c f, s.slot s.ctx = some c ∧ c.point = .frame f (.verify .page .value) ∧ c.todo = []) ∧
    (s.ctx = .isr → t.irqMasked = s.irqMasked) ∧
    (i = .pginv → t.lockHeld = s.lockHeld ∧ t.lockOwner = s.lockOwner ∧ t.irqMasked = s.irqMasked ∧
      t.csAsserted = s.csAsserted)

/-- R36, R57, R196: a step of FIFOWR, FIFORD or FIFORDALL leaves the page cache and all surroundings as they were, the mask too in the
interrupt context, and AB too but for FIFORDALL. Written: lock, mask, chip-select, bit order, fault register, own slot, history, free
values drawn, and AB by FIFORDALL. -/
def Obligations.FrameOfFifoCommands : Prop :=
  ∀ (s t : State) (i : Instr), s.Inv →
    ((∃ nbits, i = .fifowr nbits) ∨ i = .fiford ∨ ∃ maxBits, i = .fifordall maxBits) → exec i s = .next t →
    s.keeps t ∧ t.pageCache = s.pageCache ∧ (s.ctx = .isr → t.irqMasked = s.irqMasked) ∧
      ((∀ maxBits, i ≠ .fifordall maxBits) → t.ab = s.ab ∧ t.abTotals = s.abTotals)

/-- R58, R169, R170: FIFORDALL writes AB only at the indices its meaning appends at, from `total` on for the frame's valid count; a response
leaves every bit below `total` as it was; every other step leaves AB as it was. -/
def Obligations.FrameOfAccumulationBuffer : Prop :=
  ∀ (s t : State) (maxBits : BitVec 16), exec (.fifordall maxBits) s = .next t →
    (∀ c, s.slot s.ctx = some c → (c.point ≠ .closed ∨ c.todo ≠ [] ∨ c.word ≠ encode (.fifordall maxBits)) →
      ∀ j, readBit t j = readBit s j) ∧
    (s.slot s.ctx = none → ∀ j, readBit t j = readBit s j) ∧
    (∀ c w n, s.runs (.fifordall maxBits) c → c.point = .closed → c.todo = [] → frameAnswer c = .frame w n →
      0 < n → c.total + n ≤ maxBits.toNat →
      ∀ j, (j < c.total ∨ c.total + n ≤ j) → readBit t j = readBit s j) ∧
    (∀ c, s.runs (.fifordall maxBits) c → c.point = .closed → c.todo = [] →
      ∀ j, j < c.total → readBit t j = readBit s j)

/-- R130, R131, R132, R161, R164: a step of a wire frame leaves the page cache, the lock, the mask, the fault register, AB and all
surroundings as they were, and a register frame the bit order too. Written: chip-select (PER_ACCESS), bit order (FIFO frames), own slot,
history, free values drawn. -/
def Obligations.FrameOfWireFrames : Prop :=
  ∀ (s t : State) (i : Instr), s.Inv → i.isCommand = false → exec i s = .next t →
    s.keeps t ∧ t.pageCache = s.pageCache ∧ t.lockHeld = s.lockHeld ∧ t.lockOwner = s.lockOwner ∧
      t.irqMasked = s.irqMasked ∧ t.fault = s.fault ∧ t.faultInfo = s.faultInfo ∧ t.ab = s.ab ∧
      t.abTotals = s.abTotals ∧
      (s.cfg.csMode = .perTransaction → t.csAsserted = s.csAsserted) ∧
      (((∃ off, i = .regRead off) ∨ ∃ off val, i = .regWrite off val) → t.bitOrder = s.bitOrder)

/-- R212, R216: a step of an instruction that records a fault changes the fault register, its information and the history by the FAULT
event, and nothing else. -/
def Obligations.RaisingLeavesTheRest : Prop :=
  ∀ (s t : State) (i : Instr), s.Inv → s.fault = .noFault → exec i s = .next t → t.fault ≠ .noFault →
    t = s.raised t.fault t.faultInfo

/-- R13, R30, R85, R35: a step that emits a response emits it on the issuing context's port, empties that context's slot, and its status code
is 0 to 3. -/
def Obligations.ResponseEmptiesTheSlot : Prop :=
  ∀ (s t : State) (i : Instr) (x : Ctx) (r : ResponseWord), exec i s = .next t →
    .resp x r ∈ t.history.drop s.history.length →
    x = s.ctx ∧ t.slot s.ctx = none ∧ r.toNat % 16 ≤ 3

/-! ## The host buffers -/

/-- R56, R57, R255: a client's write to an entry of EB below MAX_BULK, or to one of PB's 32 bytes, makes that cell read as written and
leaves every other; a WRBULK (for EB) or FIFOWR (for PB) in flight uses free values from then on (I9, the model's choice: logs 6, 8);
nothing else changes. There is no other cell: such a write stops the machine (the model's choice, log 15). -/
def Obligations.ClientWritesABuffer : Prop :=
  ∀ (s : State) (i : Nat) (moves : List Move), s.cfg.wf = true → s.fault = .noFault →
    (∀ e : ConfigEntry, s.script = .writeEB s.ctx i e :: moves →
      (i < s.cfg.maxBulk → ∃ t, step s = .next t ∧ readEntry t i = e ∧ (∀ k, k ≠ i → readCell t.eb k = readCell s.eb k) ∧
        t = { s.setScript moves with
          eb := t.eb
          fgSlot := s.fgSlot.map (fun c => if c.word.toNat / 2 ^ 28 = 3 then { c with tainted := true } else c)
          isrSlot := s.isrSlot.map (fun c => if c.word.toNat / 2 ^ 28 = 3 then { c with tainted := true } else c) }) ∧
      (s.cfg.maxBulk ≤ i → step s = .fault .noSuchBufferCell)) ∧
    (∀ b : Byte, s.script = .writePB s.ctx i b :: moves →
      (i < 32 → ∃ t, step s = .next t ∧ readPayload t i = b ∧ (∀ k, k ≠ i → readCell t.pb k = readCell s.pb k) ∧
        t = { s.setScript moves with
          pb := t.pb
          fgSlot := s.fgSlot.map (fun c => if c.word.toNat / 2 ^ 28 = 4 then { c with tainted := true } else c)
          isrSlot := s.isrSlot.map (fun c => if c.word.toNat / 2 ^ 28 = 4 then { c with tainted := true } else c) }) ∧
      (32 ≤ i → step s = .fault .noSuchBufferCell))
end

