-- ==== Sys2Proof/Laws/State.lean ====
section
/-! SUPPORT. One lemma per field per update of the state, so that no proof unfolds an update. -/

namespace Sys2Proof.Machine

variable (s : State)

/-! ## `emit` -/

@[simp] theorem State.emit_pageCache (e : Event) : (s.emit e).pageCache = s.pageCache := rfl
@[simp] theorem State.emit_lockHeld (e : Event) : (s.emit e).lockHeld = s.lockHeld := rfl
@[simp] theorem State.emit_lockOwner (e : Event) : (s.emit e).lockOwner = s.lockOwner := rfl
@[simp] theorem State.emit_irqMasked (e : Event) : (s.emit e).irqMasked = s.irqMasked := rfl
@[simp] theorem State.emit_irqPending (e : Event) : (s.emit e).irqPending = s.irqPending := rfl
@[simp] theorem State.emit_isrActive (e : Event) : (s.emit e).isrActive = s.isrActive := rfl
@[simp] theorem State.emit_bitOrder (e : Event) : (s.emit e).bitOrder = s.bitOrder := rfl
@[simp] theorem State.emit_csAsserted (e : Event) : (s.emit e).csAsserted = s.csAsserted := rfl
@[simp] theorem State.emit_fault (e : Event) : (s.emit e).fault = s.fault := rfl
@[simp] theorem State.emit_faultInfo (e : Event) : (s.emit e).faultInfo = s.faultInfo := rfl
@[simp] theorem State.emit_fgSlot (e : Event) : (s.emit e).fgSlot = s.fgSlot := rfl
@[simp] theorem State.emit_isrSlot (e : Event) : (s.emit e).isrSlot = s.isrSlot := rfl
@[simp] theorem State.emit_history (e : Event) : (s.emit e).history = s.history ++ [e] := rfl
@[simp] theorem State.emit_eb (e : Event) : (s.emit e).eb = s.eb := rfl
@[simp] theorem State.emit_pb (e : Event) : (s.emit e).pb = s.pb := rfl
@[simp] theorem State.emit_ab (e : Event) : (s.emit e).ab = s.ab := rfl
@[simp] theorem State.emit_cfg (e : Event) : (s.emit e).cfg = s.cfg := rfl
@[simp] theorem State.emit_script (e : Event) : (s.emit e).script = s.script := rfl
@[simp] theorem State.emit_rxIn (e : Event) : (s.emit e).rxIn = s.rxIn := rfl
@[simp] theorem State.emit_draws (e : Event) : (s.emit e).draws = s.draws := rfl
@[simp] theorem State.emit_abTotals (e : Event) : (s.emit e).abTotals = s.abTotals := rfl

/-! ## `setPageCache` -/

@[simp] theorem State.setPageCache_pageCache (v : PageCache) : (s.setPageCache v).pageCache = v := rfl
@[simp] theorem State.setPageCache_lockHeld (v : PageCache) : (s.setPageCache v).lockHeld = s.lockHeld := rfl
@[simp] theorem State.setPageCache_lockOwner (v : PageCache) : (s.setPageCache v).lockOwner = s.lockOwner := rfl
@[simp] theorem State.setPageCache_irqMasked (v : PageCache) : (s.setPageCache v).irqMasked = s.irqMasked := rfl
@[simp] theorem State.setPageCache_irqPending (v : PageCache) : (s.setPageCache v).irqPending = s.irqPending := rfl
@[simp] theorem State.setPageCache_isrActive (v : PageCache) : (s.setPageCache v).isrActive = s.isrActive := rfl
@[simp] theorem State.setPageCache_bitOrder (v : PageCache) : (s.setPageCache v).bitOrder = s.bitOrder := rfl
@[simp] theorem State.setPageCache_csAsserted (v : PageCache) : (s.setPageCache v).csAsserted = s.csAsserted := rfl
@[simp] theorem State.setPageCache_fault (v : PageCache) : (s.setPageCache v).fault = s.fault := rfl
@[simp] theorem State.setPageCache_faultInfo (v : PageCache) : (s.setPageCache v).faultInfo = s.faultInfo := rfl
@[simp] theorem State.setPageCache_fgSlot (v : PageCache) : (s.setPageCache v).fgSlot = s.fgSlot := rfl
@[simp] theorem State.setPageCache_isrSlot (v : PageCache) : (s.setPageCache v).isrSlot = s.isrSlot := rfl
@[simp] theorem State.setPageCache_history (v : PageCache) : (s.setPageCache v).history = s.history := rfl
@[simp] theorem State.setPageCache_eb (v : PageCache) : (s.setPageCache v).eb = s.eb := rfl
@[simp] theorem State.setPageCache_pb (v : PageCache) : (s.setPageCache v).pb = s.pb := rfl
@[simp] theorem State.setPageCache_ab (v : PageCache) : (s.setPageCache v).ab = s.ab := rfl
@[simp] theorem State.setPageCache_cfg (v : PageCache) : (s.setPageCache v).cfg = s.cfg := rfl
@[simp] theorem State.setPageCache_script (v : PageCache) : (s.setPageCache v).script = s.script := rfl
@[simp] theorem State.setPageCache_rxIn (v : PageCache) : (s.setPageCache v).rxIn = s.rxIn := rfl
@[simp] theorem State.setPageCache_draws (v : PageCache) : (s.setPageCache v).draws = s.draws := rfl
@[simp] theorem State.setPageCache_abTotals (v : PageCache) : (s.setPageCache v).abTotals = s.abTotals := rfl

/-! ## `setLock` -/

@[simp] theorem State.setLock_pageCache (h : Bool) (o : Option Ctx) : (s.setLock h o).pageCache = s.pageCache := rfl
@[simp] theorem State.setLock_lockHeld (h : Bool) (o : Option Ctx) : (s.setLock h o).lockHeld = h := rfl
@[simp] theorem State.setLock_lockOwner (h : Bool) (o : Option Ctx) : (s.setLock h o).lockOwner = o := rfl
@[simp] theorem State.setLock_irqMasked (h : Bool) (o : Option Ctx) : (s.setLock h o).irqMasked = s.irqMasked := rfl
@[simp] theorem State.setLock_irqPending (h : Bool) (o : Option Ctx) : (s.setLock h o).irqPending = s.irqPending := rfl
@[simp] theorem State.setLock_isrActive (h : Bool) (o : Option Ctx) : (s.setLock h o).isrActive = s.isrActive := rfl
@[simp] theorem State.setLock_bitOrder (h : Bool) (o : Option Ctx) : (s.setLock h o).bitOrder = s.bitOrder := rfl
@[simp] theorem State.setLock_csAsserted (h : Bool) (o : Option Ctx) : (s.setLock h o).csAsserted = s.csAsserted := rfl
@[simp] theorem State.setLock_fault (h : Bool) (o : Option Ctx) : (s.setLock h o).fault = s.fault := rfl
@[simp] theorem State.setLock_faultInfo (h : Bool) (o : Option Ctx) : (s.setLock h o).faultInfo = s.faultInfo := rfl
@[simp] theorem State.setLock_fgSlot (h : Bool) (o : Option Ctx) : (s.setLock h o).fgSlot = s.fgSlot := rfl
@[simp] theorem State.setLock_isrSlot (h : Bool) (o : Option Ctx) : (s.setLock h o).isrSlot = s.isrSlot := rfl
@[simp] theorem State.setLock_history (h : Bool) (o : Option Ctx) : (s.setLock h o).history = s.history := rfl
@[simp] theorem State.setLock_eb (h : Bool) (o : Option Ctx) : (s.setLock h o).eb = s.eb := rfl
@[simp] theorem State.setLock_pb (h : Bool) (o : Option Ctx) : (s.setLock h o).pb = s.pb := rfl
@[simp] theorem State.setLock_ab (h : Bool) (o : Option Ctx) : (s.setLock h o).ab = s.ab := rfl
@[simp] theorem State.setLock_cfg (h : Bool) (o : Option Ctx) : (s.setLock h o).cfg = s.cfg := rfl
@[simp] theorem State.setLock_script (h : Bool) (o : Option Ctx) : (s.setLock h o).script = s.script := rfl
@[simp] theorem State.setLock_rxIn (h : Bool) (o : Option Ctx) : (s.setLock h o).rxIn = s.rxIn := rfl
@[simp] theorem State.setLock_draws (h : Bool) (o : Option Ctx) : (s.setLock h o).draws = s.draws := rfl
@[simp] theorem State.setLock_abTotals (h : Bool) (o : Option Ctx) : (s.setLock h o).abTotals = s.abTotals := rfl

/-! ## `setMask` -/

@[simp] theorem State.setMask_pageCache (v : Bool) : (s.setMask v).pageCache = s.pageCache := rfl
@[simp] theorem State.setMask_lockHeld (v : Bool) : (s.setMask v).lockHeld = s.lockHeld := rfl
@[simp] theorem State.setMask_lockOwner (v : Bool) : (s.setMask v).lockOwner = s.lockOwner := rfl
@[simp] theorem State.setMask_irqMasked (v : Bool) : (s.setMask v).irqMasked = v := rfl
@[simp] theorem State.setMask_irqPending (v : Bool) : (s.setMask v).irqPending = s.irqPending := rfl
@[simp] theorem State.setMask_isrActive (v : Bool) : (s.setMask v).isrActive = s.isrActive := rfl
@[simp] theorem State.setMask_bitOrder (v : Bool) : (s.setMask v).bitOrder = s.bitOrder := rfl
@[simp] theorem State.setMask_csAsserted (v : Bool) : (s.setMask v).csAsserted = s.csAsserted := rfl
@[simp] theorem State.setMask_fault (v : Bool) : (s.setMask v).fault = s.fault := rfl
@[simp] theorem State.setMask_faultInfo (v : Bool) : (s.setMask v).faultInfo = s.faultInfo := rfl
@[simp] theorem State.setMask_fgSlot (v : Bool) : (s.setMask v).fgSlot = s.fgSlot := rfl
@[simp] theorem State.setMask_isrSlot (v : Bool) : (s.setMask v).isrSlot = s.isrSlot := rfl
@[simp] theorem State.setMask_history (v : Bool) : (s.setMask v).history = s.history := rfl
@[simp] theorem State.setMask_eb (v : Bool) : (s.setMask v).eb = s.eb := rfl
@[simp] theorem State.setMask_pb (v : Bool) : (s.setMask v).pb = s.pb := rfl
@[simp] theorem State.setMask_ab (v : Bool) : (s.setMask v).ab = s.ab := rfl
@[simp] theorem State.setMask_cfg (v : Bool) : (s.setMask v).cfg = s.cfg := rfl
@[simp] theorem State.setMask_script (v : Bool) : (s.setMask v).script = s.script := rfl
@[simp] theorem State.setMask_rxIn (v : Bool) : (s.setMask v).rxIn = s.rxIn := rfl
@[simp] theorem State.setMask_draws (v : Bool) : (s.setMask v).draws = s.draws := rfl
@[simp] theorem State.setMask_abTotals (v : Bool) : (s.setMask v).abTotals = s.abTotals := rfl

/-! ## `setCs` -/

@[simp] theorem State.setCs_pageCache (v : Bool) : (s.setCs v).pageCache = s.pageCache := rfl
@[simp] theorem State.setCs_lockHeld (v : Bool) : (s.setCs v).lockHeld = s.lockHeld := rfl
@[simp] theorem State.setCs_lockOwner (v : Bool) : (s.setCs v).lockOwner = s.lockOwner := rfl
@[simp] theorem State.setCs_irqMasked (v : Bool) : (s.setCs v).irqMasked = s.irqMasked := rfl
@[simp] theorem State.setCs_irqPending (v : Bool) : (s.setCs v).irqPending = s.irqPending := rfl
@[simp] theorem State.setCs_isrActive (v : Bool) : (s.setCs v).isrActive = s.isrActive := rfl
@[simp] theorem State.setCs_bitOrder (v : Bool) : (s.setCs v).bitOrder = s.bitOrder := rfl
@[simp] theorem State.setCs_csAsserted (v : Bool) : (s.setCs v).csAsserted = v := rfl
@[simp] theorem State.setCs_fault (v : Bool) : (s.setCs v).fault = s.fault := rfl
@[simp] theorem State.setCs_faultInfo (v : Bool) : (s.setCs v).faultInfo = s.faultInfo := rfl
@[simp] theorem State.setCs_fgSlot (v : Bool) : (s.setCs v).fgSlot = s.fgSlot := rfl
@[simp] theorem State.setCs_isrSlot (v : Bool) : (s.setCs v).isrSlot = s.isrSlot := rfl
@[simp] theorem State.setCs_history (v : Bool) : (s.setCs v).history = s.history := rfl
@[simp] theorem State.setCs_eb (v : Bool) : (s.setCs v).eb = s.eb := rfl
@[simp] theorem State.setCs_pb (v : Bool) : (s.setCs v).pb = s.pb := rfl
@[simp] theorem State.setCs_ab (v : Bool) : (s.setCs v).ab = s.ab := rfl
@[simp] theorem State.setCs_cfg (v : Bool) : (s.setCs v).cfg = s.cfg := rfl
@[simp] theorem State.setCs_script (v : Bool) : (s.setCs v).script = s.script := rfl
@[simp] theorem State.setCs_rxIn (v : Bool) : (s.setCs v).rxIn = s.rxIn := rfl
@[simp] theorem State.setCs_draws (v : Bool) : (s.setCs v).draws = s.draws := rfl
@[simp] theorem State.setCs_abTotals (v : Bool) : (s.setCs v).abTotals = s.abTotals := rfl

/-! ## `setOrder` -/

@[simp] theorem State.setOrder_pageCache (o : BitOrder) : (s.setOrder o).pageCache = s.pageCache := rfl
@[simp] theorem State.setOrder_lockHeld (o : BitOrder) : (s.setOrder o).lockHeld = s.lockHeld := rfl
@[simp] theorem State.setOrder_lockOwner (o : BitOrder) : (s.setOrder o).lockOwner = s.lockOwner := rfl
@[simp] theorem State.setOrder_irqMasked (o : BitOrder) : (s.setOrder o).irqMasked = s.irqMasked := rfl
@[simp] theorem State.setOrder_irqPending (o : BitOrder) : (s.setOrder o).irqPending = s.irqPending := rfl
@[simp] theorem State.setOrder_isrActive (o : BitOrder) : (s.setOrder o).isrActive = s.isrActive := rfl
@[simp] theorem State.setOrder_bitOrder (o : BitOrder) : (s.setOrder o).bitOrder = o := rfl
@[simp] theorem State.setOrder_csAsserted (o : BitOrder) : (s.setOrder o).csAsserted = s.csAsserted := rfl
@[simp] theorem State.setOrder_fault (o : BitOrder) : (s.setOrder o).fault = s.fault := rfl
@[simp] theorem State.setOrder_faultInfo (o : BitOrder) : (s.setOrder o).faultInfo = s.faultInfo := rfl
@[simp] theorem State.setOrder_fgSlot (o : BitOrder) : (s.setOrder o).fgSlot = s.fgSlot := rfl
@[simp] theorem State.setOrder_isrSlot (o : BitOrder) : (s.setOrder o).isrSlot = s.isrSlot := rfl
@[simp] theorem State.setOrder_history (o : BitOrder) : (s.setOrder o).history = s.history := rfl
@[simp] theorem State.setOrder_eb (o : BitOrder) : (s.setOrder o).eb = s.eb := rfl
@[simp] theorem State.setOrder_pb (o : BitOrder) : (s.setOrder o).pb = s.pb := rfl
@[simp] theorem State.setOrder_ab (o : BitOrder) : (s.setOrder o).ab = s.ab := rfl
@[simp] theorem State.setOrder_cfg (o : BitOrder) : (s.setOrder o).cfg = s.cfg := rfl
@[simp] theorem State.setOrder_script (o : BitOrder) : (s.setOrder o).script = s.script := rfl
@[simp] theorem State.setOrder_rxIn (o : BitOrder) : (s.setOrder o).rxIn = s.rxIn := rfl
@[simp] theorem State.setOrder_draws (o : BitOrder) : (s.setOrder o).draws = s.draws := rfl
@[simp] theorem State.setOrder_abTotals (o : BitOrder) : (s.setOrder o).abTotals = s.abTotals := rfl

/-! ## `countDraw` -/

@[simp] theorem State.countDraw_pageCache : (s.countDraw).pageCache = s.pageCache := rfl
@[simp] theorem State.countDraw_lockHeld : (s.countDraw).lockHeld = s.lockHeld := rfl
@[simp] theorem State.countDraw_lockOwner : (s.countDraw).lockOwner = s.lockOwner := rfl
@[simp] theorem State.countDraw_irqMasked : (s.countDraw).irqMasked = s.irqMasked := rfl
@[simp] theorem State.countDraw_irqPending : (s.countDraw).irqPending = s.irqPending := rfl
@[simp] theorem State.countDraw_isrActive : (s.countDraw).isrActive = s.isrActive := rfl
@[simp] theorem State.countDraw_bitOrder : (s.countDraw).bitOrder = s.bitOrder := rfl
@[simp] theorem State.countDraw_csAsserted : (s.countDraw).csAsserted = s.csAsserted := rfl
@[simp] theorem State.countDraw_fault : (s.countDraw).fault = s.fault := rfl
@[simp] theorem State.countDraw_faultInfo : (s.countDraw).faultInfo = s.faultInfo := rfl
@[simp] theorem State.countDraw_fgSlot : (s.countDraw).fgSlot = s.fgSlot := rfl
@[simp] theorem State.countDraw_isrSlot : (s.countDraw).isrSlot = s.isrSlot := rfl
@[simp] theorem State.countDraw_history : (s.countDraw).history = s.history := rfl
@[simp] theorem State.countDraw_eb : (s.countDraw).eb = s.eb := rfl
@[simp] theorem State.countDraw_pb : (s.countDraw).pb = s.pb := rfl
@[simp] theorem State.countDraw_ab : (s.countDraw).ab = s.ab := rfl
@[simp] theorem State.countDraw_cfg : (s.countDraw).cfg = s.cfg := rfl
@[simp] theorem State.countDraw_script : (s.countDraw).script = s.script := rfl
@[simp] theorem State.countDraw_rxIn : (s.countDraw).rxIn = s.rxIn := rfl
@[simp] theorem State.countDraw_draws : (s.countDraw).draws = s.draws + 1 := rfl
@[simp] theorem State.countDraw_abTotals : (s.countDraw).abTotals = s.abTotals := rfl

/-! ## `putSlot` -/

@[simp] theorem State.putSlot_pageCache (x : Ctx) (c : Option InFlight) : (s.putSlot x c).pageCache = s.pageCache := by cases x <;> rfl
@[simp] theorem State.putSlot_lockHeld (x : Ctx) (c : Option InFlight) : (s.putSlot x c).lockHeld = s.lockHeld := by cases x <;> rfl
@[simp] theorem State.putSlot_lockOwner (x : Ctx) (c : Option InFlight) : (s.putSlot x c).lockOwner = s.lockOwner := by cases x <;> rfl
@[simp] theorem State.putSlot_irqMasked (x : Ctx) (c : Option InFlight) : (s.putSlot x c).irqMasked = s.irqMasked := by cases x <;> rfl
@[simp] theorem State.putSlot_irqPending (x : Ctx) (c : Option InFlight) : (s.putSlot x c).irqPending = s.irqPending := by cases x <;> rfl
@[simp] theorem State.putSlot_isrActive (x : Ctx) (c : Option InFlight) : (s.putSlot x c).isrActive = s.isrActive := by cases x <;> rfl
@[simp] theorem State.putSlot_bitOrder (x : Ctx) (c : Option InFlight) : (s.putSlot x c).bitOrder = s.bitOrder := by cases x <;> rfl
@[simp] theorem State.putSlot_csAsserted (x : Ctx) (c : Option InFlight) : (s.putSlot x c).csAsserted = s.csAsserted := by cases x <;> rfl
@[simp] theorem State.putSlot_fault (x : Ctx) (c : Option InFlight) : (s.putSlot x c).fault = s.fault := by cases x <;> rfl
@[simp] theorem State.putSlot_faultInfo (x : Ctx) (c : Option InFlight) : (s.putSlot x c).faultInfo = s.faultInfo := by cases x <;> rfl
@[simp] theorem State.putSlot_history (x : Ctx) (c : Option InFlight) : (s.putSlot x c).history = s.history := by cases x <;> rfl
@[simp] theorem State.putSlot_eb (x : Ctx) (c : Option InFlight) : (s.putSlot x c).eb = s.eb := by cases x <;> rfl
@[simp] theorem State.putSlot_pb (x : Ctx) (c : Option InFlight) : (s.putSlot x c).pb = s.pb := by cases x <;> rfl
@[simp] theorem State.putSlot_ab (x : Ctx) (c : Option InFlight) : (s.putSlot x c).ab = s.ab := by cases x <;> rfl
@[simp] theorem State.putSlot_cfg (x : Ctx) (c : Option InFlight) : (s.putSlot x c).cfg = s.cfg := by cases x <;> rfl
@[simp] theorem State.putSlot_script (x : Ctx) (c : Option InFlight) : (s.putSlot x c).script = s.script := by cases x <;> rfl
@[simp] theorem State.putSlot_rxIn (x : Ctx) (c : Option InFlight) : (s.putSlot x c).rxIn = s.rxIn := by cases x <;> rfl
@[simp] theorem State.putSlot_draws (x : Ctx) (c : Option InFlight) : (s.putSlot x c).draws = s.draws := by cases x <;> rfl
@[simp] theorem State.putSlot_abTotals (x : Ctx) (c : Option InFlight) : (s.putSlot x c).abTotals = s.abTotals := by cases x <;> rfl

@[simp] theorem State.putSlot_fg_fgSlot (c : Option InFlight) : (s.putSlot .fg c).fgSlot = c := rfl
@[simp] theorem State.putSlot_fg_isrSlot (c : Option InFlight) : (s.putSlot .fg c).isrSlot = s.isrSlot := rfl
@[simp] theorem State.putSlot_isr_fgSlot (c : Option InFlight) : (s.putSlot .isr c).fgSlot = s.fgSlot := rfl
@[simp] theorem State.putSlot_isr_isrSlot (c : Option InFlight) : (s.putSlot .isr c).isrSlot = c := rfl

/-! ## The running context and the slots -/

@[simp] theorem State.slot_fg : s.slot .fg = s.fgSlot := rfl
@[simp] theorem State.slot_isr : s.slot .isr = s.isrSlot := rfl

theorem State.ctx_of_idle (h : s.isrActive = false) : s.ctx = .fg := by simp [State.ctx, h]
theorem State.ctx_of_active (h : s.isrActive = true) : s.ctx = .isr := by simp [State.ctx, h]

@[simp] theorem State.putSlot_slot_same (x : Ctx) (c : Option InFlight) : (s.putSlot x c).slot x = c := by cases x <;> rfl

theorem State.putSlot_slot_other (x y : Ctx) (c : Option InFlight) (h : x ≠ y) : (s.putSlot x c).slot y = s.slot y := by
  cases x <;> cases y <;> first | rfl | exact absurd rfl h

@[simp] theorem State.putSlot_ctx (x : Ctx) (c : Option InFlight) : (s.putSlot x c).ctx = s.ctx := by cases x <;> rfl

@[simp] theorem State.emit_ctx (e : Event) : (s.emit e).ctx = s.ctx := rfl
@[simp] theorem State.emit_slot (x : Ctx) (e : Event) : (s.emit e).slot x = s.slot x := by cases x <;> rfl
@[simp] theorem State.setPageCache_ctx (v : PageCache) : (s.setPageCache v).ctx = s.ctx := rfl
@[simp] theorem State.setPageCache_slot (x : Ctx) (v : PageCache) : (s.setPageCache v).slot x = s.slot x := by cases x <;> rfl
@[simp] theorem State.setLock_ctx (h : Bool) (o : Option Ctx) : (s.setLock h o).ctx = s.ctx := rfl
@[simp] theorem State.setLock_slot (x : Ctx) (h : Bool) (o : Option Ctx) : (s.setLock h o).slot x = s.slot x := by cases x <;> rfl
@[simp] theorem State.setMask_ctx (v : Bool) : (s.setMask v).ctx = s.ctx := rfl
@[simp] theorem State.setMask_slot (x : Ctx) (v : Bool) : (s.setMask v).slot x = s.slot x := by cases x <;> rfl
@[simp] theorem State.setCs_ctx (v : Bool) : (s.setCs v).ctx = s.ctx := rfl
@[simp] theorem State.setCs_slot (x : Ctx) (v : Bool) : (s.setCs v).slot x = s.slot x := by cases x <;> rfl
@[simp] theorem State.setOrder_ctx (o : BitOrder) : (s.setOrder o).ctx = s.ctx := rfl
@[simp] theorem State.setOrder_slot (x : Ctx) (o : BitOrder) : (s.setOrder o).slot x = s.slot x := by cases x <;> rfl
@[simp] theorem State.countDraw_ctx : (s.countDraw).ctx = s.ctx := rfl
@[simp] theorem State.countDraw_slot (x : Ctx) : (s.countDraw).slot x = s.slot x := by cases x <;> rfl

/-! ## The open bracket -/

@[simp] theorem State.emit_bracket (e : Event) : (s.emit e).bracket = s.bracket := rfl
@[simp] theorem State.setPageCache_bracket (v : PageCache) : (s.setPageCache v).bracket = s.bracket := rfl
@[simp] theorem State.setMask_bracket (v : Bool) : (s.setMask v).bracket = s.bracket := rfl
@[simp] theorem State.countDraw_bracket : s.countDraw.bracket = s.bracket := rfl
@[simp] theorem State.putSlot_bracket (x : Ctx) (c : Option InFlight) : (s.putSlot x c).bracket = s.bracket := by
  cases x <;> rfl

/-! ## `receive` -/

@[simp] theorem State.receive_pageCache (rx : Byte) : (s.receive rx).pageCache = s.pageCache := rfl
@[simp] theorem State.receive_lockHeld (rx : Byte) : (s.receive rx).lockHeld = s.lockHeld := rfl
@[simp] theorem State.receive_lockOwner (rx : Byte) : (s.receive rx).lockOwner = s.lockOwner := rfl
@[simp] theorem State.receive_irqMasked (rx : Byte) : (s.receive rx).irqMasked = s.irqMasked := rfl
@[simp] theorem State.receive_irqPending (rx : Byte) : (s.receive rx).irqPending = s.irqPending := rfl
@[simp] theorem State.receive_isrActive (rx : Byte) : (s.receive rx).isrActive = s.isrActive := rfl
@[simp] theorem State.receive_bitOrder (rx : Byte) : (s.receive rx).bitOrder = s.bitOrder := rfl
@[simp] theorem State.receive_csAsserted (rx : Byte) : (s.receive rx).csAsserted = s.csAsserted := rfl
@[simp] theorem State.receive_fault (rx : Byte) : (s.receive rx).fault = s.fault := rfl
@[simp] theorem State.receive_faultInfo (rx : Byte) : (s.receive rx).faultInfo = s.faultInfo := rfl
@[simp] theorem State.receive_fgSlot (rx : Byte) : (s.receive rx).fgSlot = s.fgSlot := rfl
@[simp] theorem State.receive_isrSlot (rx : Byte) : (s.receive rx).isrSlot = s.isrSlot := rfl
@[simp] theorem State.receive_history (rx : Byte) : (s.receive rx).history = s.history := rfl
@[simp] theorem State.receive_eb (rx : Byte) : (s.receive rx).eb = s.eb := rfl
@[simp] theorem State.receive_pb (rx : Byte) : (s.receive rx).pb = s.pb := rfl
@[simp] theorem State.receive_ab (rx : Byte) : (s.receive rx).ab = s.ab := rfl
@[simp] theorem State.receive_cfg (rx : Byte) : (s.receive rx).cfg = s.cfg := rfl
@[simp] theorem State.receive_script (rx : Byte) : (s.receive rx).script = s.script := rfl
@[simp] theorem State.receive_rxIn (rx : Byte) : (s.receive rx).rxIn = rx := rfl
@[simp] theorem State.receive_draws (rx : Byte) : (s.receive rx).draws = s.draws := rfl
@[simp] theorem State.receive_abTotals (rx : Byte) : (s.receive rx).abTotals = s.abTotals := rfl
@[simp] theorem State.receive_ctx (rx : Byte) : (s.receive rx).ctx = s.ctx := rfl
@[simp] theorem State.receive_slot (x : Ctx) (rx : Byte) : (s.receive rx).slot x = s.slot x := by cases x <;> rfl
@[simp] theorem State.receive_bracket (rx : Byte) : (s.receive rx).bracket = s.bracket := rfl

/-! ## `setScript` -/

@[simp] theorem State.setScript_pageCache (m : List Move) : (s.setScript m).pageCache = s.pageCache := rfl
@[simp] theorem State.setScript_lockHeld (m : List Move) : (s.setScript m).lockHeld = s.lockHeld := rfl
@[simp] theorem State.setScript_lockOwner (m : List Move) : (s.setScript m).lockOwner = s.lockOwner := rfl
@[simp] theorem State.setScript_irqMasked (m : List Move) : (s.setScript m).irqMasked = s.irqMasked := rfl
@[simp] theorem State.setScript_irqPending (m : List Move) : (s.setScript m).irqPending = s.irqPending := rfl
@[simp] theorem State.setScript_isrActive (m : List Move) : (s.setScript m).isrActive = s.isrActive := rfl
@[simp] theorem State.setScript_bitOrder (m : List Move) : (s.setScript m).bitOrder = s.bitOrder := rfl
@[simp] theorem State.setScript_csAsserted (m : List Move) : (s.setScript m).csAsserted = s.csAsserted := rfl
@[simp] theorem State.setScript_fault (m : List Move) : (s.setScript m).fault = s.fault := rfl
@[simp] theorem State.setScript_faultInfo (m : List Move) : (s.setScript m).faultInfo = s.faultInfo := rfl
@[simp] theorem State.setScript_fgSlot (m : List Move) : (s.setScript m).fgSlot = s.fgSlot := rfl
@[simp] theorem State.setScript_isrSlot (m : List Move) : (s.setScript m).isrSlot = s.isrSlot := rfl
@[simp] theorem State.setScript_history (m : List Move) : (s.setScript m).history = s.history := rfl
@[simp] theorem State.setScript_eb (m : List Move) : (s.setScript m).eb = s.eb := rfl
@[simp] theorem State.setScript_pb (m : List Move) : (s.setScript m).pb = s.pb := rfl
@[simp] theorem State.setScript_ab (m : List Move) : (s.setScript m).ab = s.ab := rfl
@[simp] theorem State.setScript_cfg (m : List Move) : (s.setScript m).cfg = s.cfg := rfl
@[simp] theorem State.setScript_script (m : List Move) : (s.setScript m).script = m := rfl
@[simp] theorem State.setScript_rxIn (m : List Move) : (s.setScript m).rxIn = s.rxIn := rfl
@[simp] theorem State.setScript_draws (m : List Move) : (s.setScript m).draws = s.draws := rfl
@[simp] theorem State.setScript_abTotals (m : List Move) : (s.setScript m).abTotals = s.abTotals := rfl
@[simp] theorem State.setScript_ctx (m : List Move) : (s.setScript m).ctx = s.ctx := rfl
@[simp] theorem State.setScript_slot (x : Ctx) (m : List Move) : (s.setScript m).slot x = s.slot x := by cases x <;> rfl
@[simp] theorem State.setScript_bracket (m : List Move) : (s.setScript m).bracket = s.bracket := rfl

/-! ## `setAb` -/

@[simp] theorem State.setAb_pageCache (m : Memory Bool) : (s.setAb m).pageCache = s.pageCache := rfl
@[simp] theorem State.setAb_lockHeld (m : Memory Bool) : (s.setAb m).lockHeld = s.lockHeld := rfl
@[simp] theorem State.setAb_lockOwner (m : Memory Bool) : (s.setAb m).lockOwner = s.lockOwner := rfl
@[simp] theorem State.setAb_irqMasked (m : Memory Bool) : (s.setAb m).irqMasked = s.irqMasked := rfl
@[simp] theorem State.setAb_irqPending (m : Memory Bool) : (s.setAb m).irqPending = s.irqPending := rfl
@[simp] theorem State.setAb_isrActive (m : Memory Bool) : (s.setAb m).isrActive = s.isrActive := rfl
@[simp] theorem State.setAb_bitOrder (m : Memory Bool) : (s.setAb m).bitOrder = s.bitOrder := rfl
@[simp] theorem State.setAb_csAsserted (m : Memory Bool) : (s.setAb m).csAsserted = s.csAsserted := rfl
@[simp] theorem State.setAb_fault (m : Memory Bool) : (s.setAb m).fault = s.fault := rfl
@[simp] theorem State.setAb_faultInfo (m : Memory Bool) : (s.setAb m).faultInfo = s.faultInfo := rfl
@[simp] theorem State.setAb_fgSlot (m : Memory Bool) : (s.setAb m).fgSlot = s.fgSlot := rfl
@[simp] theorem State.setAb_isrSlot (m : Memory Bool) : (s.setAb m).isrSlot = s.isrSlot := rfl
@[simp] theorem State.setAb_history (m : Memory Bool) : (s.setAb m).history = s.history := rfl
@[simp] theorem State.setAb_eb (m : Memory Bool) : (s.setAb m).eb = s.eb := rfl
@[simp] theorem State.setAb_pb (m : Memory Bool) : (s.setAb m).pb = s.pb := rfl
@[simp] theorem State.setAb_ab (m : Memory Bool) : (s.setAb m).ab = m := rfl
@[simp] theorem State.setAb_cfg (m : Memory Bool) : (s.setAb m).cfg = s.cfg := rfl
@[simp] theorem State.setAb_script (m : Memory Bool) : (s.setAb m).script = s.script := rfl
@[simp] theorem State.setAb_rxIn (m : Memory Bool) : (s.setAb m).rxIn = s.rxIn := rfl
@[simp] theorem State.setAb_draws (m : Memory Bool) : (s.setAb m).draws = s.draws := rfl
@[simp] theorem State.setAb_abTotals (m : Memory Bool) : (s.setAb m).abTotals = s.abTotals := rfl
@[simp] theorem State.setAb_ctx (m : Memory Bool) : (s.setAb m).ctx = s.ctx := rfl
@[simp] theorem State.setAb_slot (x : Ctx) (m : Memory Bool) : (s.setAb m).slot x = s.slot x := by cases x <;> rfl
@[simp] theorem State.setAb_bracket (m : Memory Bool) : (s.setAb m).bracket = s.bracket := rfl

/-! ## `forgetAb` -/

@[simp] theorem State.forgetAb_pageCache (n : Nat) : (s.forgetAb n).pageCache = s.pageCache := rfl
@[simp] theorem State.forgetAb_lockHeld (n : Nat) : (s.forgetAb n).lockHeld = s.lockHeld := rfl
@[simp] theorem State.forgetAb_lockOwner (n : Nat) : (s.forgetAb n).lockOwner = s.lockOwner := rfl
@[simp] theorem State.forgetAb_irqMasked (n : Nat) : (s.forgetAb n).irqMasked = s.irqMasked := rfl
@[simp] theorem State.forgetAb_irqPending (n : Nat) : (s.forgetAb n).irqPending = s.irqPending := rfl
@[simp] theorem State.forgetAb_isrActive (n : Nat) : (s.forgetAb n).isrActive = s.isrActive := rfl
@[simp] theorem State.forgetAb_bitOrder (n : Nat) : (s.forgetAb n).bitOrder = s.bitOrder := rfl
@[simp] theorem State.forgetAb_csAsserted (n : Nat) : (s.forgetAb n).csAsserted = s.csAsserted := rfl
@[simp] theorem State.forgetAb_fault (n : Nat) : (s.forgetAb n).fault = s.fault := rfl
@[simp] theorem State.forgetAb_faultInfo (n : Nat) : (s.forgetAb n).faultInfo = s.faultInfo := rfl
@[simp] theorem State.forgetAb_fgSlot (n : Nat) : (s.forgetAb n).fgSlot = s.fgSlot := rfl
@[simp] theorem State.forgetAb_isrSlot (n : Nat) : (s.forgetAb n).isrSlot = s.isrSlot := rfl
@[simp] theorem State.forgetAb_history (n : Nat) : (s.forgetAb n).history = s.history := rfl
@[simp] theorem State.forgetAb_eb (n : Nat) : (s.forgetAb n).eb = s.eb := rfl
@[simp] theorem State.forgetAb_pb (n : Nat) : (s.forgetAb n).pb = s.pb := rfl
@[simp] theorem State.forgetAb_ab (n : Nat) : (s.forgetAb n).ab = forgetFrom s.ab n := rfl
@[simp] theorem State.forgetAb_cfg (n : Nat) : (s.forgetAb n).cfg = s.cfg := rfl
@[simp] theorem State.forgetAb_script (n : Nat) : (s.forgetAb n).script = s.script := rfl
@[simp] theorem State.forgetAb_rxIn (n : Nat) : (s.forgetAb n).rxIn = s.rxIn := rfl
@[simp] theorem State.forgetAb_draws (n : Nat) : (s.forgetAb n).draws = s.draws := rfl
@[simp] theorem State.forgetAb_abTotals (n : Nat) : (s.forgetAb n).abTotals = n :: s.abTotals := rfl
@[simp] theorem State.forgetAb_ctx (n : Nat) : (s.forgetAb n).ctx = s.ctx := rfl
@[simp] theorem State.forgetAb_slot (x : Ctx) (n : Nat) : (s.forgetAb n).slot x = s.slot x := by cases x <;> rfl
@[simp] theorem State.forgetAb_bracket (n : Nat) : (s.forgetAb n).bracket = s.bracket := rfl

/-! ## `raiseFault` -/

variable (code : FaultCode) (info : FaultInfo)

@[simp] theorem raiseFault_pageCache : (raiseFault code info s).pageCache = s.pageCache := rfl
@[simp] theorem raiseFault_lockHeld : (raiseFault code info s).lockHeld = s.lockHeld := rfl
@[simp] theorem raiseFault_lockOwner : (raiseFault code info s).lockOwner = s.lockOwner := rfl
@[simp] theorem raiseFault_irqMasked : (raiseFault code info s).irqMasked = s.irqMasked := rfl
@[simp] theorem raiseFault_irqPending : (raiseFault code info s).irqPending = s.irqPending := rfl
@[simp] theorem raiseFault_isrActive : (raiseFault code info s).isrActive = s.isrActive := rfl
@[simp] theorem raiseFault_bitOrder : (raiseFault code info s).bitOrder = s.bitOrder := rfl
@[simp] theorem raiseFault_csAsserted : (raiseFault code info s).csAsserted = s.csAsserted := rfl
@[simp] theorem raiseFault_fault : (raiseFault code info s).fault = code := rfl
@[simp] theorem raiseFault_faultInfo : (raiseFault code info s).faultInfo = info := rfl
@[simp] theorem raiseFault_fgSlot : (raiseFault code info s).fgSlot = s.fgSlot := rfl
@[simp] theorem raiseFault_isrSlot : (raiseFault code info s).isrSlot = s.isrSlot := rfl
@[simp] theorem raiseFault_history : (raiseFault code info s).history = s.history ++ [.fault code] := rfl
@[simp] theorem raiseFault_eb : (raiseFault code info s).eb = s.eb := rfl
@[simp] theorem raiseFault_pb : (raiseFault code info s).pb = s.pb := rfl
@[simp] theorem raiseFault_ab : (raiseFault code info s).ab = s.ab := rfl
@[simp] theorem raiseFault_cfg : (raiseFault code info s).cfg = s.cfg := rfl
@[simp] theorem raiseFault_script : (raiseFault code info s).script = s.script := rfl
@[simp] theorem raiseFault_rxIn : (raiseFault code info s).rxIn = s.rxIn := rfl
@[simp] theorem raiseFault_draws : (raiseFault code info s).draws = s.draws := rfl
@[simp] theorem raiseFault_abTotals : (raiseFault code info s).abTotals = s.abTotals := rfl

@[simp] theorem raiseFault_ctx : (raiseFault code info s).ctx = s.ctx := rfl
@[simp] theorem raiseFault_slot (x : Ctx) : (raiseFault code info s).slot x = s.slot x := by cases x <;> rfl

@[simp] theorem State.running_iff : s.running = true ↔ s.fault = .noFault := by simp [State.running]

end Sys2Proof.Machine
end

