-- ==== Sys2Proof/Laws/Memory.lean ====
section
/-! SUPPORT. The laws of the buffers: a read after a write, cells left alone, and the canonical form every operation keeps. -/

namespace Sys2Proof.Machine

variable {α : Type}

theorem Memory.wf_iff (m : Memory α) : m.wf = true ↔ (m.map (·.1)).Pairwise (· < ·) := by simp [Memory.wf]

@[simp] theorem Memory.wf_nil : Memory.wf ([] : Memory α) = true := rfl

/-! ## Reads after writes -/

@[simp] theorem readCell_writeCell_same (m : Memory α) (a : Nat) (v : α) : readCell (writeCell m a v) a = some v := by
  induction m with
  | nil => simp [writeCell, readCell]
  | cons c m ih =>
    obtain ⟨b, w⟩ := c
    unfold writeCell
    split_ifs with h1 h2
    · simp [readCell]
    · simp [readCell]
    · simp [readCell, h2, ih]

theorem readCell_writeCell_other (m : Memory α) (a b : Nat) (v : α) (h : b ≠ a) :
    readCell (writeCell m a v) b = readCell m b := by
  induction m with
  | nil => simp [writeCell, readCell, h]
  | cons c m ih =>
    obtain ⟨d, w⟩ := c
    unfold writeCell
    split_ifs with h1 h2
    · simp [readCell, h]
    · subst h2; simp [readCell, h]
    · simp [readCell, ih]

/-! ## The canonical form -/

theorem map_fst_writeCell_mem (m : Memory α) (a : Nat) (v : α) (x : Nat) :
    x ∈ (writeCell m a v).map (·.1) → x = a ∨ x ∈ m.map (·.1) := by
  induction m with
  | nil => simp [writeCell]
  | cons c m ih =>
    obtain ⟨b, w⟩ := c
    unfold writeCell
    split_ifs with h1 h2
    · simp
    · subst h2; simp
    · intro hx
      rw [List.map_cons, List.mem_cons] at hx
      rcases hx with hx | hx
      · exact .inr (by simp_all)
      · rcases ih hx with h | h
        · exact .inl h
        · exact .inr (by rw [List.map_cons, List.mem_cons]; exact .inr h)

theorem writeCell_wf (m : Memory α) (a : Nat) (v : α) (h : Memory.wf m = true) : Memory.wf (writeCell m a v) = true := by
  rw [Memory.wf_iff] at h ⊢
  induction m with
  | nil => simp [writeCell]
  | cons c m ih =>
    obtain ⟨b, w⟩ := c
    rw [List.map_cons, List.pairwise_cons] at h
    unfold writeCell
    split_ifs with h1 h2
    · rw [List.map_cons, List.pairwise_cons, List.map_cons, List.pairwise_cons]
      refine ⟨fun x hx => ?_, h⟩
      rcases List.mem_cons.mp hx with rfl | hx
      · exact h1
      · exact Nat.lt_trans h1 (h.1 x hx)
    · subst h2
      rw [List.map_cons, List.pairwise_cons]
      exact h
    · rw [List.map_cons, List.pairwise_cons]
      refine ⟨fun x hx => ?_, ih h.2⟩
      rcases map_fst_writeCell_mem m a v x hx with rfl | hx
      · show b < x
        omega
      · exact h.1 x hx

theorem forgetFrom_wf (m : Memory α) (n : Nat) (h : Memory.wf m = true) : Memory.wf (forgetFrom m n) = true := by
  rw [Memory.wf_iff] at h ⊢
  exact h.sublist ((List.filter_sublist).map _)

theorem writeBits_wf (m : Memory Bool) (i : Nat) (v : BitVec 32) (n : Nat) (h : Memory.wf m = true) :
    Memory.wf (writeBits m i v n) = true := by
  induction n with
  | zero => exact h
  | succ n ih => exact writeCell_wf _ _ _ ih

/-! ## AB (R58) -/

theorem readCell_forgetFrom (m : Memory α) (n a : Nat) :
    readCell (forgetFrom m n) a = if a < n then readCell m a else none := by
  induction m with
  | nil => simp [forgetFrom, readCell]
  | cons c m ih =>
    obtain ⟨b, w⟩ := c
    unfold forgetFrom at ih ⊢
    by_cases hb : b < n
    · rw [List.filter_cons_of_pos (by simpa using hb)]
      by_cases hab : a = b
      · subst hab; simp [readCell, hb]
      · simp [readCell, hab, ih]
    · rw [List.filter_cons_of_neg (by simpa using hb), ih]
      by_cases hab : a = b
      · subst hab; simp [hb]
      · simp [readCell, hab]

theorem readCell_writeBits_in (m : Memory Bool) (i : Nat) (v : BitVec 32) (n k : Nat) (h : k < n) :
    readCell (writeBits m i v n) (i + k) = some (v.getLsbD k) := by
  induction n with
  | zero => omega
  | succ n ih =>
    unfold writeBits
    by_cases hk : k = n
    · subst hk; simp
    · rw [readCell_writeCell_other _ _ _ _ (by omega)]
      exact ih (by omega)

theorem readCell_writeBits_out (m : Memory Bool) (i : Nat) (v : BitVec 32) (n a : Nat) (h : a < i ∨ i + n ≤ a) :
    readCell (writeBits m i v n) a = readCell m a := by
  induction n with
  | zero => rfl
  | succ n ih =>
    unfold writeBits
    rw [readCell_writeCell_other _ _ _ _ (by omega)]
    exact ih (by omega)

/-- An appended bit reads as it was written. -/
theorem readBit_append_in (s : State) (i : Nat) (v : BitVec 32) (n k : Nat) (h : k < n) :
    readBit (s.setAb (writeBits s.ab i v n)) (i + k) = v.getLsbD k := by
  simp [readBit, readCell_writeBits_in _ _ _ _ _ h]

/-- An append leaves every other bit as it was. -/
theorem readBit_append_out (s : State) (i : Nat) (v : BitVec 32) (n j : Nat) (h : j < i ∨ i + n ≤ j) :
    readBit (s.setAb (writeBits s.ab i v n)) j = readBit s j := by
  simp [readBit, unspecifiedBy, readCell_writeBits_out _ _ _ _ _ h]

/-- A response leaves the bits below its total as they were. -/
theorem readBit_forgetAb_below (s : State) (n j : Nat) (h : j < n) : readBit (s.forgetAb n) j = readBit s j := by
  have hn : ¬ n ≤ j := Nat.not_le.2 h
  simp [readBit, unspecifiedBy, readCell_forgetFrom, h, hn]

/-- A response leaves every bit at its total and above a free value that no earlier content of the bit is. -/
theorem readBit_forgetAb_above (s : State) (n j : Nat) (h : n ≤ j) :
    readBit (s.forgetAb n) j = Config.abUnspecified (unspecifiedBy s j + 1) j := by
  have hn : ¬ j < n := Nat.not_lt.2 h
  simp [readBit, unspecifiedBy, readCell_forgetFrom, hn, h]

/-- What is read of AB depends on its bits alone. -/
theorem readBits_congr (s t : State) (i n : Nat) (h : ∀ k, k < n → readBit t (i + k) = readBit s (i + k)) :
    readBits t i n = readBits s i n := by
  induction n with
  | zero => rfl
  | succ n ih => simp only [readBits, ih (fun k hk => h k (by omega)), h n (by omega)]

/-- `MemRead(AB, i, n)` is an n-bit number. -/
theorem readBits_lt (s : State) (i n : Nat) : readBits s i n < 2 ^ n := by
  induction n with
  | zero => simp [readBits]
  | succ n ih =>
    have : (readBit s (i + n)).toNat ≤ 1 := Bool.toNat_le _
    simp only [readBits, pow_succ]
    nlinarith [Nat.two_pow_pos n]

/-- A longer read has the shorter one below the rest. -/
theorem readBits_add (s : State) (i m n : Nat) :
    readBits s i (m + n) = readBits s i m + readBits s (i + m) n * 2 ^ m := by
  induction n with
  | zero => simp [readBits]
  | succ n ih =>
    rw [← Nat.add_assoc]
    simp only [readBits, ih, ← Nat.add_assoc]
    rw [show i + m + n = i + (m + n) by omega, pow_add]
    ring

/-- The reset state's buffers are in canonical form. -/
theorem reset_memoryWf : State.reset.memoryWf = true := rfl

end Sys2Proof.Machine
end

