-- ==== Sys2Proof/Laws/Ops.lean ====
section
/-! SUPPORT. What each shared operation can do, said once: primitives, blocks, acceptance, completion, and the driver. -/

namespace Sys2Proof.Machine

variable (c : InFlight) (s : State)

/-! ## Primitives -/

@[simp] theorem perform_mask :
    perform .mask c s = .next (((s.putSlot s.ctx (some c)).setMask true).emit .mask) := rfl

@[simp] theorem perform_unmask :
    perform .unmask c s = .next (((s.putSlot s.ctx (some c)).setMask false).emit .unmask) := rfl

theorem perform_lockAcq_free (h : s.lockHeld = false) :
    perform .lockAcq c s = .next (((s.putSlot s.ctx (some c)).setLock true (some s.ctx)).emit (.lockAcq s.ctx)) := by
  simp [perform, h]

theorem perform_lockAcq_held (h : s.lockHeld = true) : perform .lockAcq c s = reentry c.word s := by simp [perform, h]

@[simp] theorem perform_lockRel :
    perform .lockRel c s = .next (((s.putSlot s.ctx (some c)).setLock false none).emit (.lockRel s.ctx)) := rfl

@[simp] theorem perform_csAssert :
    perform .csAssert c s = .next (((s.putSlot s.ctx (some c)).setCs true).emit (.csAssert s.ctx)) := rfl

@[simp] theorem perform_csDeassert :
    perform .csDeassert c s = .next (((s.putSlot s.ctx (some c)).setCs false).emit (.csDeassert s.ctx)) := rfl

@[simp] theorem perform_order (o : BitOrder) :
    perform (.order o) c s = .next (((s.putSlot s.ctx (some c)).setOrder o).emit (.order o s.ctx)) := rfl

@[simp] theorem perform_xchg_byte (b : Byte) :
    perform (.xchg (.byte b)) c s = .next ((s.putSlot s.ctx (some { c with rx := c.rx ++ [s.rxIn] })).emit
      (.xchg b s.rxIn s.bitOrder s.ctx)) := rfl

theorem perform_xchg_payload (k : Nat) (h : c.tainted = false) :
    perform (.xchg (.payload k)) c s = .next ((s.putSlot s.ctx (some { c with rx := c.rx ++ [s.rxIn] })).emit
      (.xchg (readPayload s k) s.rxIn s.bitOrder s.ctx)) := by simp [perform, txDrawn, txByte, h]

theorem perform_xchg_payload_tainted (k : Nat) (h : c.tainted = true) :
    perform (.xchg (.payload k)) c s = .next ((s.countDraw.putSlot s.ctx (some { c with rx := c.rx ++ [s.rxIn] })).emit
      (.xchg (Config.freeByte s.draws) s.rxIn s.bitOrder s.ctx)) := by simp [perform, txDrawn, txByte, h]

/-- Choosing the byte to send changes at most the count of free values drawn. -/
theorem txDrawn_cases (src : TxSource) : txDrawn src c s = s ∨ txDrawn src c s = s.countDraw := by
  cases src with
  | byte b => exact .inl rfl
  | payload k => cases h : c.tainted <;> simp [txDrawn, h]

theorem reentry_checked (w : CommandWord) (h : s.cfg.debugLockCheck = true) :
    reentry w s = .next (raiseFault .lockReentry ⟨w, s.ctx, none, none⟩ s) := by simp [reentry, h]

theorem reentry_unchecked (w : CommandWord) (h : s.cfg.debugLockCheck = false) :
    reentry w s = .refused .refusedReentry := by simp [reentry, h]

/-- A re-entrant acquisition records a fault and changes nothing else, or is refused. -/
theorem reentry_next {w : CommandWord} {s t : State} (h : reentry w s = .next t) :
    t = raiseFault .lockReentry ⟨w, s.ctx, none, none⟩ s := by
  unfold reentry at h
  split at h
  · exact (Host.Outcome.next.inj h).symm
  · cases h

/-! ## Blocks -/

theorem performNext_cons (p : Prim) (rest : List Prim) (h : c.todo = p :: rest) :
    performNext c s = perform p { c with todo := rest } s := by simp [performNext, h]

theorem frameStep_frame (f : Frame) (role : Role) (h : c.point = .frame f role) : frameStep f c s = performNext c s := by
  simp [frameStep, h]

@[simp] theorem startFrame_eq (f : Frame) (role : Role) :
    startFrame f role c s = performNext { c with point := .frame f role, todo := framePrims s.cfg f, rx := [] } s := by
  simp [startFrame, frameStep]

theorem openPrims_fg_transaction (cfg : Config) (h : cfg.csMode = .perTransaction) :
    openPrims cfg .fg = [.mask, .lockAcq, .csAssert] := by simp [openPrims, h]

theorem openPrims_fg_access (cfg : Config) (h : cfg.csMode = .perAccess) : openPrims cfg .fg = [.mask, .lockAcq] := by
  simp [openPrims, h]

theorem openPrims_isr_transaction (cfg : Config) (h : cfg.csMode = .perTransaction) :
    openPrims cfg .isr = [.lockAcq, .csAssert] := by simp [openPrims, h]

theorem openPrims_isr_access (cfg : Config) (h : cfg.csMode = .perAccess) : openPrims cfg .isr = [.lockAcq] := by
  simp [openPrims, h]

theorem closePrims_fg_transaction (cfg : Config) (h : cfg.csMode = .perTransaction) :
    closePrims cfg .fg = [.csDeassert, .lockRel, .unmask] := by simp [closePrims, h]

theorem closePrims_fg_access (cfg : Config) (h : cfg.csMode = .perAccess) : closePrims cfg .fg = [.lockRel, .unmask] := by
  simp [closePrims, h]

theorem closePrims_isr_transaction (cfg : Config) (h : cfg.csMode = .perTransaction) :
    closePrims cfg .isr = [.csDeassert, .lockRel] := by simp [closePrims, h]

theorem closePrims_isr_access (cfg : Config) (h : cfg.csMode = .perAccess) : closePrims cfg .isr = [.lockRel] := by
  simp [closePrims, h]

theorem framePrims_transaction (cfg : Config) (f : Frame) (h : cfg.csMode = .perTransaction) :
    framePrims cfg f = frameBody cfg f := by simp [framePrims, h]

theorem framePrims_access (cfg : Config) (f : Frame) (h : cfg.csMode = .perAccess) :
    framePrims cfg f = .csAssert :: (frameBody cfg f ++ [.csDeassert]) := by simp [framePrims, h]

/-! ## Acceptance, completion, and the driver -/

theorem accept_none (i : Instr) (h : acceptFault i s = none) :
    accept i s = .next (s.putSlot s.ctx (some (freshCommand (encode i)))) := by simp [accept, h]

theorem accept_some (i : Instr) (f : OperandFault) (e : Option Nat) (h : acceptFault i s = some (f, e)) :
    accept i s = .next (raiseFault (operandFaultCode f) ⟨encode i, s.ctx, e, none⟩ s) := by simp [accept, h]

/-- A halted engine's commands take no step (R213). -/
theorem runCommand_halted (i : Instr) (k : InFlight → State → Result) (h : s.fault ≠ .noFault) :
    runCommand i k s = .next s := by simp [runCommand, State.running, h]

theorem runCommand_idle (i : Instr) (k : InFlight → State → Result) (hf : s.fault = .noFault) (hs : s.slot s.ctx = none) :
    runCommand i k s = accept i s := by simp [runCommand, State.running, hf, hs]

theorem runCommand_block {i : Instr} {k : InFlight → State → Result} {p : Prim} {rest : List Prim} {c : InFlight} {s : State}
    (hf : s.fault = .noFault) (hs : s.slot s.ctx = some c) (hw : c.word = encode i) (ht : c.todo = p :: rest) :
    runCommand i k s = perform p { c with todo := rest } s := by
  simp [runCommand, State.running, hf, hs, hw, ht, performNext]

theorem runCommand_proceed {i : Instr} {k : InFlight → State → Result} {c : InFlight} {s : State}
    (hf : s.fault = .noFault) (hs : s.slot s.ctx = some c) (hw : c.word = encode i) (ht : c.todo = []) :
    runCommand i k s = k c s := by
  simp [runCommand, State.running, hf, hs, hw, ht]

theorem runCommand_other {i : Instr} {k : InFlight → State → Result} {c : InFlight} {s : State}
    (hf : s.fault = .noFault) (hs : s.slot s.ctx = some c) (hw : c.word ≠ encode i) :
    runCommand i k s = reentry (encode i) s := by
  simp [runCommand, State.running, hf, hs, hw]

theorem runFrame_halted (f : Frame) (h : s.fault ≠ .noFault) : runFrame f s = .next s := by
  simp [runFrame, State.running, h]

theorem runFrame_block {f : Frame} {role : Role} {p : Prim} {rest : List Prim} {c : InFlight} {s : State}
    (hf : s.fault = .noFault) (hs : s.slot s.ctx = some c) (hp : c.point = .frame f role) (ht : c.todo = p :: rest) :
    runFrame f s = perform p { c with todo := rest } s := by
  simp [runFrame, State.running, hf, hs, frameStep, hp, ht, performNext]

@[simp] theorem respond_eq (r : ResponseWord) :
    respond r s = .next ((s.putSlot s.ctx none).emit (.resp s.ctx r)) := rfl

end Sys2Proof.Machine
end

