-- ==== Sys2Proof/Laws/Encoding.lean ====
section
/-! SUPPORT. Fields of concatenated words, and the decoder opcode by opcode. -/

namespace Sys2Proof.Machine

/-! ## Fields of a concatenation -/

theorem extract_append_high {m n k : Nat} (a : BitVec m) (b : BitVec n) (i : Nat) :
    (a ++ b).extractLsb' (n + i) k = a.extractLsb' i k := by
  ext j hj
  rw [BitVec.getElem_extractLsb', BitVec.getElem_extractLsb', BitVec.getLsbD_append]
  simp [show ¬ n + i + j < n by omega, show n + i + j - n = i + j by omega]

theorem extract_append_low {m n k : Nat} (a : BitVec m) (b : BitVec n) (i : Nat) (h : i + k ≤ n) :
    (a ++ b).extractLsb' i k = b.extractLsb' i k := by
  ext j hj
  rw [BitVec.getElem_extractLsb', BitVec.getElem_extractLsb', BitVec.getLsbD_append]
  simp [show i + j < n by omega]

theorem extract_whole {n : Nat} (a : BitVec n) : a.extractLsb' 0 n = a := by simp

/-- The fields of a word laid out as opcode, 12 reserved bits, 16 operand bits (R83). -/
theorem fields_word (op : BitVec 4) (z : BitVec 12) (b : BitVec 16) :
    (op ++ z ++ b).extractLsb' 28 4 = op ∧ (op ++ z ++ b).extractLsb' 16 12 = z ∧ (op ++ z ++ b).extractLsb' 0 16 = b := by
  refine ⟨?_, ?_, ?_⟩
  · rw [extract_append_high (n := 16) _ _ 12, extract_append_high (n := 12) _ _ 0, extract_whole]
  · rw [extract_append_high (n := 16) _ _ 0, extract_append_low _ _ _ (by omega), extract_whole]
  · rw [extract_append_low _ _ _ (by omega), extract_whole]

/-- The fields of WRREG's word (R83). -/
theorem fields_wrreg (op z : BitVec 4) (v : BitVec 8) (b : BitVec 16) :
    (op ++ z ++ v ++ b).extractLsb' 28 4 = op ∧ (op ++ z ++ v ++ b).extractLsb' 24 4 = z ∧
      (op ++ z ++ v ++ b).extractLsb' 16 8 = v ∧ (op ++ z ++ v ++ b).extractLsb' 0 16 = b := by
  refine ⟨?_, ?_, ?_, ?_⟩
  · rw [extract_append_high (n := 16) _ _ 12, extract_append_high (n := 8) _ _ 4, extract_append_high (n := 4) _ _ 0,
      extract_whole]
  · rw [extract_append_high (n := 16) _ _ 8, extract_append_high (n := 8) _ _ 0, extract_append_low _ _ _ (by omega),
      extract_whole]
  · rw [extract_append_high (n := 16) _ _ 0, extract_append_low _ _ _ (by omega), extract_whole]
  · rw [extract_append_low _ _ _ (by omega), extract_whole]

/-- The fields of FIFOWR's word (R83). -/
theorem fields_fifowr (op : BitVec 4) (z : BitVec 19) (b : BitVec 9) :
    (op ++ z ++ b).extractLsb' 28 4 = op ∧ (op ++ z ++ b).extractLsb' 9 19 = z ∧ (op ++ z ++ b).extractLsb' 0 9 = b := by
  refine ⟨?_, ?_, ?_⟩
  · rw [extract_append_high (n := 9) _ _ 19, extract_append_high (n := 19) _ _ 0, extract_whole]
  · rw [extract_append_high (n := 9) _ _ 0, extract_append_low _ _ _ (by omega), extract_whole]
  · rw [extract_append_low _ _ _ (by omega), extract_whole]

/-- A word is its opcode and its operand bits. -/
theorem join_word (w : CommandWord) : w.extractLsb' 28 4 ++ w.extractLsb' 0 28 = w := by
  rw [BitVec.extractLsb'_append_extractLsb'_eq_extractLsb' (by rfl), extract_whole]

/-- The operand bits split at any place. -/
theorem join_fields (w : CommandWord) (i j k : Nat) :
    w.extractLsb' (i + j) k ++ w.extractLsb' i j = w.extractLsb' i (k + j) := by
  rw [BitVec.extractLsb'_append_extractLsb'_eq_extractLsb' (by omega)]

/-! ## The decoder opcode by opcode -/

theorem checked_zero {n : Nat} {z : BitVec n} (h : z = 0#n) (i : Instr) : checked (z == 0) i = .ok i := by
  subst h; simp [checked]

theorem checked_ok {b : Bool} {i j : Instr} (h : checked b i = .ok j) : b = true ∧ i = j := by
  unfold checked at h
  split at h
  · exact ⟨‹_›, Except.ok.inj h⟩
  · cases h

variable (w : CommandWord)

theorem decode_rdreg (h : opcodeOf w = 1#4) :
    decode w = checked (w.extractLsb' 16 12 == 0) (.rdreg (lowField w)) := by unfold decode; rw [h]; rfl

theorem decode_wrreg (h : opcodeOf w = 2#4) :
    decode w = checked (w.extractLsb' 24 4 == 0) (.wrreg (lowField w) (w.extractLsb' 16 8)) := by unfold decode; rw [h]; rfl

theorem decode_wrbulk (h : opcodeOf w = 3#4) :
    decode w = checked (w.extractLsb' 16 12 == 0) (.wrbulk (lowField w)) := by unfold decode; rw [h]; rfl

theorem decode_fifowr (h : opcodeOf w = 4#4) :
    decode w = checked (w.extractLsb' 9 19 == 0) (.fifowr (w.extractLsb' 0 9)) := by unfold decode; rw [h]; rfl

theorem decode_fiford (h : opcodeOf w = 5#4) : decode w = checked (w.extractLsb' 0 28 == 0) .fiford := by
  unfold decode; rw [h]; rfl

theorem decode_fifordall (h : opcodeOf w = 6#4) :
    decode w = checked (w.extractLsb' 16 12 == 0) (.fifordall (lowField w)) := by unfold decode; rw [h]; rfl

theorem decode_pginv (h : opcodeOf w = 7#4) : decode w = checked (w.extractLsb' 0 28 == 0) .pginv := by
  unfold decode; rw [h]; rfl

end Sys2Proof.Machine
end

