-- ==== Sys2Proof/Laws/Phases.lean ====
section
/-! SUPPORT. One step of an instruction by where its command is: waiting, inside a block, at the end of a block; and what beginning a
frame or a transaction's end leaves. -/

namespace Sys2Proof.Machine

/-- Inside a block every instruction performs the next primitive, whichever command or frame it is. -/
theorem exec_block {s : State} {i : Instr} {c : InFlight} {p : Prim} {rest : List Prim} (h : s.executes i c)
    (hc : c.todo = p :: rest) : exec i s = perform p { c with todo := rest } s := by
  obtain ⟨hf, hs, ⟨hi, hw⟩ | hi⟩ := h
  · cases i <;> first | exact runCommand_block hf hs hw hc | cases hi
  · unfold InFlight.frameInstr at hi
    cases hp : c.point with
    | frame f r =>
      have key : ∀ g, c.point = .frame g r → runFrame g s = perform p { c with todo := rest } s :=
        fun g hg => runFrame_block hf hs hg hc
      rw [hp] at hi key
      cases f <;> (cases hi; exact key _ rfl)
    | _ => rw [hp] at hi; cases hi

/-- Into an empty slot a command is offered for acceptance. -/
theorem exec_idle {s : State} {i : Instr} (h : s.idle) (hi : i.isCommand = true) : exec i s = accept i s := by
  cases i <;> first | exact runCommand_idle _ _ _ h.1 h.2 | cases hi

theorem exec_rdreg_end {s : State} {addr : RegAddr} {c : InFlight} (h : s.runs (.rdreg addr) c) (hc : c.todo = []) :
    exec (.rdreg addr) s = proceedRdreg addr c s := runCommand_proceed h.1 h.2.1 h.2.2 hc

theorem exec_wrreg_end {s : State} {addr : RegAddr} {val : Byte} {c : InFlight} (h : s.runs (.wrreg addr val) c)
    (hc : c.todo = []) : exec (.wrreg addr val) s = proceedWrreg addr val c s := runCommand_proceed h.1 h.2.1 h.2.2 hc

theorem exec_wrbulk_end {s : State} {count : BitVec 16} {c : InFlight} (h : s.runs (.wrbulk count) c) (hc : c.todo = []) :
    exec (.wrbulk count) s = proceedWrbulk count c s := runCommand_proceed h.1 h.2.1 h.2.2 hc

theorem exec_fifowr_end {s : State} {nbits : BitVec 9} {c : InFlight} (h : s.runs (.fifowr nbits) c) (hc : c.todo = []) :
    exec (.fifowr nbits) s = proceedFifowr nbits c s := runCommand_proceed h.1 h.2.1 h.2.2 hc

theorem exec_fiford_end {s : State} {c : InFlight} (h : s.runs .fiford c) (hc : c.todo = []) :
    exec .fiford s = proceedFiford c s := runCommand_proceed h.1 h.2.1 h.2.2 hc

theorem exec_fifordall_end {s : State} {maxBits : BitVec 16} {c : InFlight} (h : s.runs (.fifordall maxBits) c)
    (hc : c.todo = []) : exec (.fifordall maxBits) s = proceedFifordall maxBits c s :=
  runCommand_proceed h.1 h.2.1 h.2.2 hc

theorem exec_pginv_end {s : State} {c : InFlight} (h : s.runs .pginv c) (hc : c.todo = []) :
    exec .pginv s = proceedPginv c s := runCommand_proceed h.1 h.2.1 h.2.2 hc

theorem execRun_cons {i : Instr} {rx : Byte} {rest : List Byte} {s t : State} (h : exec i (s.receive rx) = .next t) :
    execRun i (rx :: rest) s = execRun i rest t := by simp [execRun, h]

/-- A run is the run of its first part, and then of the rest from where that ended. -/
theorem execRun_append {i : Instr} {xs ys : List Byte} {s t : State} (h : execRun i xs s = .next t) :
    execRun i (xs ++ ys) s = execRun i ys t := by
  induction xs generalizing s with
  | nil => cases h; rfl
  | cons x xs ih =>
    simp only [List.cons_append, execRun] at h ⊢
    cases hr : exec i (s.receive x) with
    | next u => rw [hr] at h; exact ih h
    | fault e => rw [hr] at h; exact absurd h (by simp)
    | refused e => rw [hr] at h; exact absurd h (by simp)

theorem mirrored_iff (a : RegAddr) : mirrored a = true ↔ 0xA0 ≤ a.toNat % 256 := by
  simp only [mirrored, mirroredOffset, offsetOf, BitVec.extractLsb'_toNat]
  exact decide_eq_true_iff

/-- Beginning a frame performs its first primitive: the phase is in the frame, and only the slot, chip-select, the history and the count of
free values may differ. -/
theorem startFrame_next (f : Frame) (role : Role) (c : InFlight) (s : State) :
    ∃ t d, startFrame f role c s = .next t ∧ t.slot s.ctx = some d ∧ t.pageCache = s.pageCache ∧ d.point = .frame f role ∧
      d.attempt = c.attempt ∧ d.index = c.index ∧ d.cur = c.cur ∧ d.shadowA = c.shadowA ∧
      d.todo.length + 1 = (framePrims s.cfg f).length := by
  rw [startFrame_eq]
  cases hm : s.cfg.csMode
  · rw [framePrims_transaction _ _ hm]
    cases f <;> refine ⟨_, _, rfl, State.putSlot_slot_same _ _ _, ?_⟩ <;> simp [frameBody, txDrawn]
  · rw [framePrims_access _ _ hm]
    refine ⟨_, _, rfl, State.putSlot_slot_same _ _ _, ?_⟩
    simp

/-- Beginning a transaction with the lock free performs its first primitive: the phase is in the opening, and the cache, the fault register
and AB are as they were. -/
theorem openTransaction_next (c : InFlight) (s : State) (h : s.lockHeld = false) :
    ∃ t d, openTransaction c s = .next t ∧ t.slot s.ctx = some d ∧ t.pageCache = s.pageCache ∧ t.fault = s.fault ∧
      t.ab = s.ab ∧ t.abTotals = s.abTotals ∧ d.point = .opened ∧ d.word = c.word ∧ d.total = c.total ∧ d.rx = c.rx := by
  unfold openTransaction
  cases hx : s.ctx <;> cases hm : s.cfg.csMode <;>
    simp [openPrims, hm, performNext, hx, perform_lockAcq_free, h]

/-- Beginning a transaction's end performs its first primitive: the phase is in the closing, and the cache, the fault register and AB are
as they were. -/
theorem closeTransaction_next (ok : Bool) (c : InFlight) (s : State) :
    ∃ t d, closeTransaction ok c s = .next t ∧ t.slot s.ctx = some d ∧ t.pageCache = s.pageCache ∧ t.fault = s.fault ∧
      t.ab = s.ab ∧ t.abTotals = s.abTotals ∧ d.point = .closed ∧ d.ok = ok ∧ d.index = c.index ∧ d.rx = c.rx := by
  unfold closeTransaction
  cases hx : s.ctx <;> cases hm : s.cfg.csMode <;>
    simp [closePrims, hm, performNext, hx]

end Sys2Proof.Machine
end

