-- ==== Sys2Proof/Laws/Invariant.lean ====
section
/-! SUPPORT. What keeps the invariant of Safety.lean: each primitive, each beginning of a block, each command's pseudocode at the end of a
block. The provers' statement about `step` follows from these and from what each move does. -/

set_option linter.unusedSimpArgs false
set_option linter.unusedVariables false


namespace Sys2Proof.Machine

theorem bracketOf_append (h : List Event) (e : Event) :
    bracketOf (h ++ [e]) = (bracketOf h).bind (fun b => bracketStep b e) := by simp [bracketOf]

theorem bracket_owner (cfg : Config) (x : Ctx) (c : InFlight) : (c.bracket cfg x).owner.isSome = c.holdsLock := by
  unfold InFlight.bracket; split_ifs with h <;> simp_all [Bracket.free]

theorem bracket_free_of (cfg : Config) (x : Ctx) (c : InFlight)
    (h : c.holdsLock = false) : c.bracket cfg x = Bracket.free := by
  simp [InFlight.bracket, h]

/-- What is left of a block agrees with itself: after each primitive the flag it drives is as it sets it, exchanges, chip-select and bit
order come only with the lock held, and the foreground's lock only with the mask held. -/
def flagsAgree (cfg : Config) (x : Ctx) (inB : Bool) : List Prim → Prop
 | [] => True
 | p :: l => flagsAgree cfg x inB l ∧
    (let lk := flagNow .lockAcq .lockRel inB
     let mk := flagNow .mask .unmask inB
     let cs := flagNow .csAssert .csDeassert (inB && cfg.csMode == .perTransaction)
     let od := flagNow (.order .lsb) (.order .msb) false
     (x = .fg → lk l = true → mk l = true) ∧
     match p with
     | .mask => x = .fg ∧ lk l = false ∧ mk l = true
     | .unmask => x = .fg ∧ lk l = false ∧ mk l = false
     | .lockAcq => lk l = true ∧ cs l = false ∧ od l = false ∧ (x = .fg → mk l = true)
     | .lockRel => lk l = false ∧ cs l = false ∧ od l = false ∧ (x = .fg → mk l = true)
     | .csAssert => lk l = true ∧ cs l = true
     | .csDeassert => lk l = true ∧ cs l = false
     | .order .lsb => lk l = true ∧ cs l = true ∧ od l = true
     | .order .msb => lk l = true ∧ cs l = true ∧ od l = false
     | .xchg _ => lk l = true ∧ cs l = true)

theorem flagsAgree_suffix {cfg x b} {l m : List Prim} (h : l <:+ m)
    (hm : flagsAgree cfg x b m) : flagsAgree cfg x b l := by
  obtain ⟨k, rfl⟩ := h
  induction k with
  | nil => exact hm
  | cons p k ih => exact ih hm.1

theorem flagsAgree_open (cfg x) : flagsAgree cfg x true (openPrims cfg x) := by
  cases x <;> cases h : cfg.csMode <;> simp [openPrims, h, flagsAgree, flagNow]

theorem flagsAgree_close (cfg x) : flagsAgree cfg x false (closePrims cfg x) := by
  cases x <;> cases h : cfg.csMode <;> simp [closePrims, h, flagsAgree, flagNow]

theorem flagNow_payload (u d : Prim) (b : Bool) (ks : List Nat) (l : List Prim) (hu : ∀ k, u ≠ .xchg k)
    (hd : ∀ k, d ≠ .xchg k) :
   flagNow u d b (ks.map (fun k => Prim.xchg (.payload k)) ++ l) = flagNow u d b l := by
  induction ks with
  | nil => rfl
  | cons k ks ih => simp [flagNow, ih, (hu _).symm, (hd _).symm]

theorem flagsAgree_payload (cfg x b) (ks : List Nat) (l : List Prim) (h : flagsAgree cfg x b l)
    (h1 : flagNow .lockAcq .lockRel b l = true)
   (h3 : flagNow .csAssert .csDeassert (b && cfg.csMode == .perTransaction) l = true)
       (h2 : x = .fg → flagNow .mask .unmask b l = true) :
   flagsAgree cfg x b (ks.map (fun k => Prim.xchg (.payload k)) ++ l) := by
  induction ks with
  | nil => exact h
  | cons k ks ih => simp [flagsAgree]; rw [flagNow_payload, flagNow_payload,
        flagNow_payload] <;> first | simp | exact ⟨ih, fun hx _ => h2 hx, h1, h3⟩

theorem flagsAgree_frame (cfg x f) : flagsAgree cfg x true (framePrims cfg f) := by
  cases f <;> cases h : cfg.csMode
  case fifoWrite.perTransaction len =>
    simp only [framePrims, h, frameBody]
    have hp := flagsAgree_payload cfg x true (List.range (payloadCount len)) [.order .msb] (by simp [flagsAgree,
        flagNow, h]) (by simp [flagNow]) (by simp [flagNow, h]) (by simp [flagNow])
    simp [flagsAgree, flagNow, hp, h, flagNow_payload]
  case fifoWrite.perAccess len =>
    simp only [framePrims, h, frameBody]
    have hp := flagsAgree_payload cfg x true (List.range (payloadCount len)) [.order .msb,
        .csDeassert] (by simp [flagsAgree, flagNow, h]) (by simp [flagNow]) (by simp [flagNow, h]) (by simp [flagNow])
    simp [flagsAgree, flagNow, hp, h, flagNow_payload]
  all_goals simp [framePrims, h, frameBody, flagsAgree, flagNow]

theorem placed_flagsAgree {cfg x i c} (h : InFlight.placed cfg x i c) : flagsAgree cfg x c.point.inBody c.todo := by
  unfold InFlight.placed at h
  cases hp : c.point <;> simp only [hp] at h
  · rw [h]; trivial
  · exact flagsAgree_suffix h.2 (flagsAgree_open cfg x)
  · exact flagsAgree_suffix h.2.1 (flagsAgree_frame cfg x _)
  · exact flagsAgree_suffix h.2.1 (flagsAgree_close cfg x)

theorem legal_flagsAgree {cfg x c} (h : InFlight.legal cfg x c) : flagsAgree cfg x c.point.inBody c.todo := by
  obtain ⟨i, _, _, hp, _⟩ := h; exact placed_flagsAgree hp

theorem holdsMask_of_holdsLock {cfg} {c : InFlight} (hl : c.legal cfg .fg)
    (h : c.holdsLock = true) : c.holdsMask = true := by
  have := legal_flagsAgree hl
  unfold InFlight.holdsLock at h
  unfold InFlight.holdsMask
  cases ht : c.todo with
  | nil => rw [ht] at h; exact h
  | cons p l =>
    rw [ht] at this h
    simp only [flagsAgree] at this
    cases p <;> simp_all [flagNow]

/-- The fields agree with the running context's slot, and no other slot has a transaction open. -/
theorem State.Inv.at_ctx {s : State} (h : s.Inv) : s.bracket = slotBracket s.cfg s.ctx (s.slot s.ctx) ∧
    ∀ y, y ≠ s.ctx → slotBracket s.cfg y (s.slot y) = Bracket.free := by
  cases ha : s.isrActive
  · rw [State.ctx_of_idle s ha]
    have hn : s.isrSlot = none := by
      by_contra hc; have := h.isrRuns hc; simp_all
    have hf := h.fields
    constructor
    · rw [hf]; split_ifs with h1
      · rfl
      · simp only [State.slot_fg]
        simp only [hn, slotBracket]
        cases hs : s.fgSlot with
        | none => rfl
        | some c =>
          simp only [hs, slotBracket] at h1
          rw [bracket_owner] at h1
          exact (bracket_free_of _ _ _ (by simpa using h1)).symm
    · intro y hy; cases y; exact absurd rfl hy; simp [hn, slotBracket]
  · rw [State.ctx_of_active s ha]
    have hfree : slotBracket s.cfg .fg s.fgSlot = Bracket.free := by
      cases hs : s.fgSlot with
      | none => rfl
      | some c =>
        apply bracket_free_of
        by_contra hc
        have := h.fgMasks c hs (holdsMask_of_holdsLock (h.fgLegal c hs) (by simpa using hc))
        simp_all
    constructor
    · rw [h.fields, hfree]; rfl
    · intro y hy; cases y; exact hfree; exact absurd rfl hy

theorem fields_of {s : State} (hb : s.bracket = slotBracket s.cfg s.ctx (s.slot s.ctx))
    (ho : ∀ y, y ≠ s.ctx → slotBracket s.cfg y (s.slot y) = Bracket.free) :
   s.bracket = if (slotBracket s.cfg .fg s.fgSlot).owner.isSome then slotBracket s.cfg .fg s.fgSlot
                else slotBracket s.cfg .isr s.isrSlot := by
  cases hx : s.ctx
  · rw [hx] at hb ho
    have := ho .isr (by simp)
    simp only [State.slot_isr, State.slot_fg] at *
    rw [hb, this]
    cases hs : s.fgSlot with
    | none => rfl
    | some c =>
      simp only [slotBracket, bracket_owner]
      split_ifs with h1
      · rfl
      · exact (bracket_free_of _ _ _ (by simpa using h1))
  · rw [hx] at hb ho
    have := ho .fg (by simp)
    simp only [State.slot_isr, State.slot_fg] at *
    rw [hb, this]; rfl

/-- The invariant after a step that changed the running context's slot and the fields it drives. -/
theorem State.Inv.rebuild {s t : State} (h : s.Inv) (hcfg : t.cfg = s.cfg) (hact : t.isrActive = s.isrActive)
   (hoth : ∀ y, y ≠ s.ctx → t.slot y = s.slot y)
   (hleg : ∀ c, t.slot s.ctx = some c → c.legal s.cfg s.ctx)
   (hmask : s.ctx = .fg → ∀ c, t.slot s.ctx = some c → c.holdsMask = true → t.irqMasked = true)
   (hmask2 : s.ctx = .isr → t.irqMasked = s.irqMasked)
   (hlf : t.lockHeld = t.lockOwner.isSome)
   (hb : t.bracket = slotBracket s.cfg s.ctx (t.slot s.ctx))
   (hh : bracketOf t.history = some t.bracket) : t.Inv := by
  have hctx : t.ctx = s.ctx := by simp [State.ctx, hact]
  have hK := h.at_ctx
  refine ⟨?_, ?_, ?_, ?_, hlf, ?_, hh⟩
  · intro c hc
    rw [hcfg]
    by_cases hx : s.ctx = .fg
    · rw [hx] at hleg; exact hleg c hc
    · exact h.fgLegal c (by have := hoth .fg (fun h => hx h.symm); simp at this; rw [← this]; exact hc)
  · intro c hc
    rw [hcfg]
    by_cases hx : s.ctx = .isr
    · rw [hx] at hleg; exact hleg c hc
    · exact h.isrLegal c (by have := hoth .isr (fun h => hx h.symm); simp at this; rw [← this]; exact hc)
  · intro hn
    rw [hact]
    by_cases hx : s.ctx = .isr
    · by_contra hc; simp at hc; rw [State.ctx_of_idle s hc] at hx; cases hx
    · apply h.isrRuns
      have := hoth .isr (fun h => hx h.symm); simp at this; rw [← this]; exact hn
  · intro c hc hm
    rw [hact]
    cases ha : s.isrActive
    · have hx := State.ctx_of_idle s ha
      exact ⟨hmask hx c (by rw [hx]; exact hc) hm, rfl⟩
    · have hx := State.ctx_of_active s ha
      have := hoth .fg (by simp [hx]); simp at this
      have := (h.fgMasks c (by rw [← this]; exact hc) hm).2
      simp_all
  · apply fields_of
    · rw [hcfg, hctx]; exact hb
    · rw [hcfg, hctx]; intro y hy; rw [hoth y hy]; exact hK.2 y hy

/-- The invariant after the slot took another legal phase with the same transaction open. -/
theorem State.Inv.swap {s t : State} (h : s.Inv) {c c' : InFlight} (hs : s.slot s.ctx = some c)
   (hl : c'.legal s.cfg s.ctx) (hb : c'.bracket s.cfg s.ctx = c.bracket s.cfg s.ctx)
   (hm : s.ctx = .fg → c'.holdsMask = true → c.holdsMask = true)
   (hcfg : t.cfg = s.cfg) (hact : t.isrActive = s.isrActive)
   (hoth : ∀ y, y ≠ s.ctx → t.slot y = s.slot y) (hslot : t.slot s.ctx = some c')
   (h1 : t.irqMasked = s.irqMasked) (h2 : t.lockHeld = s.lockHeld) (h3 : t.bracket = s.bracket)
       (h4 : t.history = s.history) : t.Inv := by
  have hK := h.at_ctx
  refine h.rebuild hcfg hact hoth ?_ ?_ (fun _ => h1) ?_ ?_ ?_
  · intro d hd; rw [hslot] at hd; cases hd; exact hl
  · intro hx d hd hdm; rw [hslot] at hd; cases hd
    rw [h1]
    rw [hx] at hs
    exact (h.fgMasks c hs (hm hx hdm)).1
  · rw [h2, h.lockFlag]; have := congrArg Bracket.owner h3; simp [State.bracket] at this; rw [this]
  · rw [h3, hK.1, hs, hslot]; simp [slotBracket, hb]
  · rw [h4, h3]; exact h.bracketed

/-- The invariant after a primitive of a command in flight. -/
theorem State.Inv.performNext {s t : State} (h : s.Inv) {c : InFlight} (hs : s.slot s.ctx = some c)
   (ht : performNext c s = .next t) : t.Inv := by
  obtain ⟨p, rest, hc⟩ : ∃ p rest, c.todo = p :: rest := by
    cases hc : c.todo with
    | nil => simp [Machine.performNext, hc] at ht
    | cons p l => exact ⟨p, l, rfl⟩
  rw [performNext_cons _ _ _ _ hc] at ht
  have hl : c.legal s.cfg s.ctx := by
    cases hx : s.ctx <;> rw [hx] at hs
    · exact h.fgLegal c hs
    · exact h.isrLegal c hs
  have hco := legal_flagsAgree hl
  rw [hc] at hco
  obtain ⟨hco', hlm, hco2⟩ := hco
  have hK := h.at_ctx
  rw [hs] at hK
  simp only [slotBracket] at hK
  have hlegal' : ∀ rx, rx = c.rx ∨ (∃ src b, p = .xchg src ∧ rx = c.rx ++ [b]) → (∀ src, p = .xchg src →
      ∃ b, rx = c.rx ++ [b]) →  ({c with todo := rest, rx := rx} : InFlight).legal s.cfg s.ctx := by
    intro rx hrx hrx2
    obtain ⟨i, h1, h2, h3, h4⟩ := hl
    refine ⟨i, h1, h2, ?_, h4⟩
    unfold InFlight.placed at h3 ⊢
    have hsuf : rest <:+ c.todo := by rw [hc]; exact List.suffix_cons p rest
    cases hp : c.point with
    | accepted => simp [hp, hc] at h3
    | opened => simp only [hp] at h3 ⊢; exact ⟨h3.1, hsuf.trans h3.2⟩
    | frame f r =>
      simp only [hp] at h3 ⊢
      refine ⟨?_, hsuf.trans h3.2.1, ?_, h3.2.2.2⟩
      · rw [← h3.1]; rfl
      · rw [← h3.2.2.1, hc]
        cases p with
        | xchg src =>
          obtain ⟨b, rfl⟩ := hrx2 src rfl
          simp [exchanges]; omega
        | _ =>
          rcases hrx with rfl | ⟨_, _, hh, _⟩
          · simp [exchanges]
          · cases hh
    | closed =>
      simp only [hp] at h3 ⊢
      refine ⟨h3.1, hsuf.trans h3.2.1, ?_⟩
      have : rx = c.rx := by
        rcases hrx with rfl | ⟨src, b, hh, _⟩
        · rfl
        · have hm := h3.2.1.subset (by rw [hc, hh]; exact List.mem_cons_self : Prim.xchg src ∈ c.todo)
          simp [closePrims] at hm
      subst this
      exact h3.2.2
  have hbr := h.bracketed
  rw [hK.1] at hbr
  have hmask := fun hx => h.fgMasks c hx
  cases p with
  | mask =>
    simp at ht; subst ht
    obtain ⟨hx, hk, hm⟩ := hco2
    refine h.rebuild ?_ ?_ ?_ ?_ ?_ ?_ ?_ ?_ ?_
    · simp
    · simp
    · intro y hy; simp [State.putSlot_slot_other _ _ _ _ hy.symm]
    · intro d hd; simp at hd; subst hd; exact hlegal' _ (.inl rfl) (by simp)
    · simp
    · simp [hx]
    · simpa using h.lockFlag
    · simp [slotBracket]
      rw [hK.1]
      simp [InFlight.bracket, InFlight.holdsLock, hc, flagNow, hk]
    · simp [bracketOf_append]
      rw [hbr]
      rw [hK.1]
      simp [bracketStep, InFlight.bracket, InFlight.holdsLock, hc, flagNow, hk, Bracket.free]
  | unmask =>
    simp at ht; subst ht
    obtain ⟨hx, hk, hm⟩ := hco2
    refine h.rebuild ?_ ?_ ?_ ?_ ?_ ?_ ?_ ?_ ?_
    · simp
    · simp
    · intro y hy; simp [State.putSlot_slot_other _ _ _ _ hy.symm]
    · intro d hd; simp at hd; subst hd; exact hlegal' _ (.inl rfl) (by simp)
    · intro _ d hd; simp at hd; subst hd; simp [InFlight.holdsMask, hm]
    · simp [hx]
    · simpa using h.lockFlag
    · simp [slotBracket]
      rw [hK.1]
      simp [InFlight.bracket, InFlight.holdsLock, hc, flagNow, hk]
    · simp [bracketOf_append]
      rw [hbr]
      rw [hK.1]
      simp [bracketStep, InFlight.bracket, InFlight.holdsLock, hc, flagNow, hk, Bracket.free]
  | lockAcq =>
    obtain ⟨hk, hcs, hod, hm⟩ := hco2
    have hfree : c.bracket s.cfg s.ctx = Bracket.free := by simp [InFlight.bracket, InFlight.holdsLock, hc, flagNow]
    have hun : s.lockHeld = false := by
      rw [h.lockFlag]; have := hK.1; rw [hfree] at this; have := congrArg Bracket.owner this; simp [State.bracket,
          Bracket.free] at this; simp [this]
    rw [perform_lockAcq_free _ _ hun] at ht
    simp at ht; subst ht
    have hb := hK.1
    rw [hfree] at hb
    have hb1 : s.csAsserted = false := congrArg Bracket.cs hb
    have hb2 : s.bitOrder = .msb := congrArg Bracket.order hb
    refine h.rebuild ?_ ?_ ?_ ?_ ?_ ?_ ?_ ?_ ?_
    · simp
    · simp
    · intro y hy; simp [State.putSlot_slot_other _ _ _ _ hy.symm]
    · intro d hd; simp at hd; subst hd; exact hlegal' _ (.inl rfl) (by simp)
    · intro hx d hd; simp at hd; subst hd; simp
      intro _
      have hs' := hs; rw [hx] at hs'
      exact (h.fgMasks c hs' (by simp [InFlight.holdsMask, hc, flagNow]; exact hm hx)).1
    · simp
    · simp
    · simp [slotBracket, State.bracket, InFlight.bracket, InFlight.holdsLock, hk, InFlight.holdsCs, hcs,
          InFlight.orderHeld, hod, hb1, hb2]
    · simp [bracketOf_append]
      rw [hbr]
      simp [bracketStep, hfree, State.bracket, hb1, hb2]
  | lockRel =>
    obtain ⟨hk, hcs, hod, hm⟩ := hco2
    have hb := hK.1
    simp [InFlight.bracket, InFlight.holdsLock, hc, flagNow, InFlight.holdsCs, hcs, InFlight.orderHeld, hod] at hb
    have hb1 : s.csAsserted = false := congrArg Bracket.cs hb
    have hb2 : s.bitOrder = .msb := congrArg Bracket.order hb
    simp at ht; subst ht
    refine h.rebuild ?_ ?_ ?_ ?_ ?_ ?_ ?_ ?_ ?_
    · simp
    · simp
    · intro y hy; simp [State.putSlot_slot_other _ _ _ _ hy.symm]
    · intro d hd; simp at hd; subst hd; exact hlegal' _ (.inl rfl) (by simp)
    · intro hx d hd; simp at hd; subst hd; simp
      intro _
      have hs' := hs; rw [hx] at hs'
      exact (h.fgMasks c hs' (by simp [InFlight.holdsMask, hc, flagNow]; exact hm hx)).1
    · simp
    · simp
    · simp [slotBracket, State.bracket, InFlight.bracket, InFlight.holdsLock, hk, hb1, hb2, Bracket.free]
    · simp [bracketOf_append]
      rw [hbr]
      simp [bracketStep, State.bracket, InFlight.bracket, InFlight.holdsLock, hc, flagNow, InFlight.holdsCs, hcs,
          InFlight.orderHeld, hod, hb1, hb2, Bracket.free]
  | csAssert =>
    obtain ⟨hk, hcs⟩ := hco2
    have hb := hK.1
    simp [InFlight.bracket, InFlight.holdsLock, hc, flagNow, InFlight.holdsCs, hcs, InFlight.orderHeld, hk] at hb
    have hb0 : s.lockOwner = some s.ctx := congrArg Bracket.owner hb
    have hb1 : s.csAsserted = false := congrArg Bracket.cs hb
    have hb2 := congrArg Bracket.order hb
    simp [State.bracket] at hb2
    simp at ht; subst ht
    refine h.rebuild ?_ ?_ ?_ ?_ ?_ ?_ ?_ ?_ ?_
    · simp
    · simp
    · intro y hy; simp [State.putSlot_slot_other _ _ _ _ hy.symm]
    · intro d hd; simp at hd; subst hd; exact hlegal' _ (.inl rfl) (by simp)
    · intro hx d hd; simp at hd; subst hd; simp
      intro _
      have hs' := hs; rw [hx] at hs'
      exact (h.fgMasks c hs' (by simp [InFlight.holdsMask, hc, flagNow]; exact hlm hx hk)).1
    · simp
    · simpa using h.lockFlag
    · simp [slotBracket, State.bracket, InFlight.bracket, InFlight.holdsLock, hk, InFlight.holdsCs, hcs,
          InFlight.orderHeld, hb0, hb2]
    · simp [bracketOf_append]
      rw [hbr, ← hK.1]
      simp [bracketStep, State.bracket, hb0, hb1]
  | csDeassert =>
    obtain ⟨hk, hcs⟩ := hco2
    have hb := hK.1
    simp [InFlight.bracket, InFlight.holdsLock, hc, flagNow, InFlight.holdsCs, hcs, InFlight.orderHeld, hk] at hb
    have hb0 : s.lockOwner = some s.ctx := congrArg Bracket.owner hb
    have hb1 : s.csAsserted = true := congrArg Bracket.cs hb
    have hb2 := congrArg Bracket.order hb
    simp [State.bracket] at hb2
    simp at ht; subst ht
    refine h.rebuild ?_ ?_ ?_ ?_ ?_ ?_ ?_ ?_ ?_
    · simp
    · simp
    · intro y hy; simp [State.putSlot_slot_other _ _ _ _ hy.symm]
    · intro d hd; simp at hd; subst hd; exact hlegal' _ (.inl rfl) (by simp)
    · intro hx d hd; simp at hd; subst hd; simp
      intro _
      have hs' := hs; rw [hx] at hs'
      exact (h.fgMasks c hs' (by simp [InFlight.holdsMask, hc, flagNow]; exact hlm hx hk)).1
    · simp
    · simpa using h.lockFlag
    · simp [slotBracket, State.bracket, InFlight.bracket, InFlight.holdsLock, hk, InFlight.holdsCs, hcs,
          InFlight.orderHeld, hb0, hb2]
    · simp [bracketOf_append]
      rw [hbr, ← hK.1]
      simp [bracketStep, State.bracket, hb0, hb1]
  | order o =>
    have hk : flagNow .lockAcq .lockRel c.point.inBody rest = true := by cases o <;> exact hco2.1
    have hcs : flagNow .csAssert .csDeassert (c.point.inBody && s.cfg.csMode == .perTransaction) rest = true := by
        cases o <;> exact hco2.2.1
    have hod : flagNow (.order .lsb) (.order .msb) false rest = decide (o = .lsb) := by cases o <;> simpa using hco2.2.2
    have hb := hK.1
    simp [InFlight.bracket, InFlight.holdsLock, hc, flagNow, InFlight.holdsCs, hcs, InFlight.orderHeld, hk] at hb
    have hb0 : s.lockOwner = some s.ctx := congrArg Bracket.owner hb
    have hb1 : s.csAsserted = true := congrArg Bracket.cs hb
    simp at ht; subst ht
    refine h.rebuild ?_ ?_ ?_ ?_ ?_ ?_ ?_ ?_ ?_
    · simp
    · simp
    · intro y hy; simp [State.putSlot_slot_other _ _ _ _ hy.symm]
    · intro d hd; simp at hd; subst hd; exact hlegal' _ (.inl rfl) (by simp)
    · intro hx d hd; simp at hd; subst hd; simp
      intro _
      have hs' := hs; rw [hx] at hs'
      exact (h.fgMasks c hs' (by simp [InFlight.holdsMask, hc, flagNow]; exact hlm hx hk)).1
    · simp
    · simpa using h.lockFlag
    · cases o <;> simp [slotBracket, State.bracket, InFlight.bracket, InFlight.holdsLock, hk, InFlight.holdsCs, hcs,
          InFlight.orderHeld, hb0, hb1, hod]
    · simp [bracketOf_append]
      rw [hbr, ← hK.1]
      simp [bracketStep, State.bracket, hb0, hb1]
  | xchg src =>
    obtain ⟨hk, hcs⟩ := hco2
    have hb := hK.1
    simp [InFlight.bracket, InFlight.holdsLock, hc, flagNow, InFlight.holdsCs, hcs, InFlight.orderHeld, hk] at hb
    have hb0 : s.lockOwner = some s.ctx := congrArg Bracket.owner hb
    have hb1 : s.csAsserted = true := congrArg Bracket.cs hb
    have hb2 := congrArg Bracket.order hb
    simp [State.bracket] at hb2
    simp [perform] at ht; subst ht
    have e1 : ∀ (u : State), u = txDrawn src {c with todo := rest} s →
        u.cfg = s.cfg ∧ u.isrActive = s.isrActive ∧ u.irqMasked = s.irqMasked ∧ u.lockHeld = s.lockHeld ∧
        u.lockOwner = s.lockOwner ∧ u.csAsserted = s.csAsserted ∧ u.bitOrder = s.bitOrder ∧ u.history = s.history ∧
        ∀ y, u.slot y = s.slot y := by
      rintro u rfl; rcases txDrawn_cases {c with todo := rest} s src with e | e <;> rw [e] <;> simp
    obtain ⟨e1, e2, e3, e4, e5, e6, e7, e8, e9⟩ := e1 _ rfl
    refine h.rebuild ?_ ?_ ?_ ?_ ?_ ?_ ?_ ?_ ?_
    · simp [e1]
    · simp [e2]
    · intro y hy; simp [State.putSlot_slot_other _ _ _ _ hy.symm, e9]
    · intro d hd; simp at hd; subst hd; exact hlegal' _ (.inr ⟨src, _, rfl, rfl⟩) (by simp)
    · intro hx d hd; simp at hd; subst hd; simp [e3]
      intro _
      have hs' := hs; rw [hx] at hs'
      exact (h.fgMasks c hs' (by simp [InFlight.holdsMask, hc, flagNow]; exact hlm hx hk)).1
    · simp [e3]
    · simpa [e4, e5] using h.lockFlag
    · simp [slotBracket, State.bracket, InFlight.bracket, InFlight.holdsLock, hk, InFlight.holdsCs, hcs,
          InFlight.orderHeld, hb0, hb2, hb1, e5, e6, e7]
    · simp [bracketOf_append, e8]
      rw [hbr, ← hK.1]
      simp [bracketStep, State.bracket, hb0, hb1, e5, e6, e7]

/-- The outcome is a next state with the invariant. -/
def KeepsInv (r : Result) : Prop := ∃ t, r = .next t ∧ t.Inv

theorem putSlot_putSlot (s : State) (x) (c d) : (s.putSlot x c).putSlot x d = s.putSlot x d := by cases x <;> rfl

theorem perform_putSlot (p : Prim) (c : InFlight) (s : State) (d) (h : s.lockHeld = false ∨ p ≠ .lockAcq) :
   perform p c (s.putSlot s.ctx d) = perform p c s := by
  cases p with
  | lockAcq =>
    have h : s.lockHeld = false := by rcases h with h | h; exact h; exact absurd rfl h
    rw [perform_lockAcq_free _ _ h, perform_lockAcq_free _ _ (by simpa using h)]; simp [putSlot_putSlot]
  | xchg src =>
    cases src with
    | byte b => simp [putSlot_putSlot]
    | payload k =>
      cases ht : c.tainted
      · rw [perform_xchg_payload _ _ _ ht, perform_xchg_payload _ _ _ ht]; simp [putSlot_putSlot, readPayload]
      · rw [perform_xchg_payload_tainted _ _ _ ht, perform_xchg_payload_tainted _ _ _ ht]; simp
        congr 1
        cases hx : s.ctx <;> rfl
  | _ => simp [putSlot_putSlot]

theorem State.Inv.unlocked {s : State} (h : s.Inv) {c : InFlight} (hs : s.slot s.ctx = some c)
    (hl : c.holdsLock = false) : s.lockHeld = false := by
  have hK := h.at_ctx.1
  rw [hs] at hK
  simp [slotBracket, InFlight.bracket, hl] at hK
  have : s.lockOwner = none := congrArg Bracket.owner hK
  rw [h.lockFlag, this]; rfl

theorem State.Inv.keeps_performNext {s : State} (h : s.Inv) {c : InFlight} (hs : s.slot s.ctx = some c)
    (hne : c.todo ≠ []) : KeepsInv (Machine.performNext c s) := by
  obtain ⟨p, rest, hc⟩ : ∃ p rest, c.todo = p :: rest := by
    cases hc : c.todo with
    | nil => exact absurd hc hne
    | cons p l => exact ⟨p, l, rfl⟩
  have : ∃ t, Machine.performNext c s = .next t := by
    rw [performNext_cons _ _ _ _ hc]
    cases p with
    | lockAcq => rw [perform_lockAcq_free _ _ (h.unlocked hs (by simp [InFlight.holdsLock, hc, flagNow]))]; exact ⟨_, rfl⟩
    | _ => exact ⟨_, rfl⟩
  obtain ⟨t, ht⟩ := this
  exact ⟨t, ht, h.performNext hs ht⟩

/-- Beginning a legal block keeps the invariant. -/
theorem State.Inv.keeps_block {s u : State} (h : s.Inv) {c c' : InFlight} (hs : s.slot s.ctx = some c)
   (hl : c'.legal s.cfg s.ctx) (hb : c'.bracket s.cfg s.ctx = c.bracket s.cfg s.ctx)
   (hm : s.ctx = .fg → c'.holdsMask = true → c.holdsMask = true) (hne : c'.todo ≠ [])
   (hcfg : u.cfg = s.cfg) (hact : u.isrActive = s.isrActive)
   (hoth : ∀ y,  u.slot y = s.slot y)
   (h1 : u.irqMasked = s.irqMasked) (h2 : u.lockHeld = s.lockHeld) (h3 : u.bracket = s.bracket)
       (h4 : u.history = s.history) : KeepsInv (Machine.performNext c' u) := by
  have hctx : u.ctx = s.ctx := by simp [State.ctx, hact]
  have hI : (u.putSlot s.ctx (some c')).Inv := by
    refine h.swap hs hl hb hm (by simpa) (by simpa) ?_ (by simp) (by simpa) (by simpa) ?_ (by simpa)
    · intro y hy; rw [State.putSlot_slot_other _ _ _ _ hy.symm]; exact hoth y
    · rw [State.putSlot_bracket]; exact h3
  have hG := hI.keeps_performNext (c := c') (by simp [hctx]) hne
  have : Machine.performNext c' (u.putSlot s.ctx (some c')) = Machine.performNext c' u := by
    cases hc : c'.todo with
    | nil => exact absurd hc hne
    | cons p l =>
      rw [performNext_cons _ _ _ _ hc, performNext_cons _ _ _ _ hc, ← hctx]
      apply perform_putSlot
      by_cases hp : p = .lockAcq
      · left
        have := hI.unlocked (c := c') (by simp [hctx]) (by simp [InFlight.holdsLock, hc, hp, flagNow])
        simpa using this
      · exact .inr hp
  rw [← this]; exact hG

/-- `u` differs from `s` at most in the page cache, the buffers and the counters. -/
structure SameOpen (s u : State) : Prop where
  hcfg : u.cfg = s.cfg
  hact : u.isrActive = s.isrActive
  hoth : ∀ y, u.slot y = s.slot y
  h1 : u.irqMasked = s.irqMasked
  h2 : u.lockHeld = s.lockHeld
  h3 : u.bracket = s.bracket
  h4 : u.history = s.history
  h5 : u.fault = s.fault

theorem frame_ne (cfg f) : framePrims cfg f ≠ [] := by
  unfold framePrims; split; simp; cases f <;> simp [frameBody]
theorem open_ne (cfg f) : openPrims cfg f ≠ [] := by
  simp [openPrims]
theorem close_ne (cfg f) : closePrims cfg f ≠ [] := by
  simp [closePrims]

theorem frame_flags (cfg f) (up dn b)
    (h : (up, dn) = (Prim.lockAcq, .lockRel) ∨ (up, dn) = (Prim.mask, .unmask))
    : flagNow up dn b (framePrims cfg f) = b := by
  have key : ∀ l : List Prim, up ∉ l → dn ∉ l → flagNow up dn b l = b := by
    intro l; induction l with
    | nil => simp [flagNow]
    | cons p l ih => intro h1 h2; simp at h1 h2; simp [flagNow, Ne.symm h1.1, Ne.symm h2.1, ih h1.2 h2.2]
  apply key
  · rcases h with h | h <;> cases h <;> unfold framePrims <;> split <;> cases f <;> simp [frameBody]
  · rcases h with h | h <;> cases h <;> unfold framePrims <;> split <;> cases f <;> simp [frameBody]

theorem frame_cs (cfg f) : flagNow .csAssert .csDeassert (cfg.csMode == .perTransaction)
    (framePrims cfg f) = (cfg.csMode == .perTransaction) := by
  cases h : cfg.csMode
  · rw [framePrims_transaction _ _ h]
    cases f <;> simp [frameBody, flagNow, flagNow_payload]
  · simp [framePrims_access _ _ h, flagNow]

theorem frame_ord (cfg f) : flagNow (.order .lsb) (.order .msb) false (framePrims cfg f) = false := by
  cases h : cfg.csMode
  · rw [framePrims_transaction _ _ h]
    cases f <;> simp [frameBody, flagNow, flagNow_payload]
  · rw [framePrims_access _ _ h]
    cases f <;> simp [frameBody, flagNow, flagNow_payload]

theorem bracket_end {c : InFlight} (ht : c.todo = []) (hb : c.point.inBody = true)
    (cfg x) : c.bracket cfg x = ⟨some x, cfg.csMode == .perTransaction, .msb⟩ := by
  simp [InFlight.bracket, InFlight.holdsLock, ht, hb, flagNow, InFlight.holdsCs, InFlight.orderHeld]

theorem keeps_startFrame {s u : State} (h : s.Inv) {c c' : InFlight} (hs : s.slot s.ctx = some c) (ht : c.todo = [])
    (hb : c.point.inBody = true)
   (f role) (hu : SameOpen s u) (hw : c'.word = c.word)
   (hl : ∀ i, decode c.word = .ok i → i.wellFormed s.cfg = true → c.placed s.cfg s.ctx i → c.ranged s.cfg i →
       frameFor s.cfg i c' role = some f ∧ (∀ count, i = .wrbulk count → c'.index < count.toNat) ∧ c'.ranged s.cfg i) :
   KeepsInv (startFrame f role c' u) := by
  rw [startFrame_eq, hu.hcfg]
  have hleg : c.legal s.cfg s.ctx := by
    cases hx : s.ctx <;> rw [hx] at hs
    · exact h.fgLegal c hs
    · exact h.isrLegal c hs
  obtain ⟨i, h1, h2, h3, h4⟩ := hleg
  obtain ⟨g1, gi, g2⟩ := hl i h1 h2 h3 h4
  refine h.keeps_block hs ⟨i, by simpa [hw] using h1, h2, ?_, ?_⟩ ?_ ?_ ?_ hu.hcfg hu.hact hu.hoth hu.h1 hu.h2 hu.h3 hu.h4
  · simp only [InFlight.placed]
    refine ⟨?_, List.suffix_refl _, by simp, gi⟩
    rw [← g1]; rfl
  · exact g2
  · rw [bracket_end ht hb]
    simp [InFlight.bracket, InFlight.holdsLock, InFlight.holdsCs, InFlight.orderHeld, Point.inBody, frame_flags,
        frame_cs, frame_ord]
  · intro _ _; simp [InFlight.holdsMask, ht, hb, flagNow]
  · exact frame_ne _ _

theorem keeps_close {s u : State} (h : s.Inv) {c c' : InFlight} (hs : s.slot s.ctx = some c) (ht : c.todo = [])
    (hb : c.point.inBody = true)
   (ok) (hu : SameOpen s u) (hw : c'.word = c.word)
   (hl : ∀ i, decode c.word = .ok i → i.wellFormed s.cfg = true → c.placed s.cfg s.ctx i → c.ranged s.cfg i →
       i ≠ .pginv ∧ answered i {c' with ok := ok} ∧ c'.ranged s.cfg i) :
   KeepsInv (closeTransaction ok c' u) := by
  have hctx : u.ctx = s.ctx := by simp [State.ctx, hu.hact]
  unfold closeTransaction
  rw [hu.hcfg, hctx]
  have hleg : c.legal s.cfg s.ctx := by
    cases hx : s.ctx <;> rw [hx] at hs
    · exact h.fgLegal c hs
    · exact h.isrLegal c hs
  obtain ⟨i, h1, h2, h3, h4⟩ := hleg
  obtain ⟨g0, g1, g2⟩ := hl i h1 h2 h3 h4
  refine h.keeps_block hs ⟨i, by simpa [hw] using h1, h2, ?_, ?_⟩ ?_ ?_ ?_ hu.hcfg hu.hact hu.hoth hu.h1 hu.h2 hu.h3 hu.h4
  · exact ⟨g0, List.suffix_refl _, g1⟩
  · exact g2
  · rw [bracket_end ht hb]
    cases hx : s.ctx <;> cases hm : s.cfg.csMode <;>
        simp [InFlight.bracket, InFlight.holdsLock, InFlight.holdsCs, InFlight.orderHeld, Point.inBody, closePrims,
        hm, flagNow]
  · intro _ _; simp [InFlight.holdsMask, ht, hb, flagNow]
  · exact close_ne _ _

theorem keeps_open {s u : State} (h : s.Inv) {c c' : InFlight} (hs : s.slot s.ctx = some c) (ht : c.todo = [])
    (hb : c.point.inBody = false)
   (hu : SameOpen s u) (hw : c'.word = c.word)
   (hl : ∀ i, decode c.word = .ok i → i.wellFormed s.cfg = true → c.placed s.cfg s.ctx i → c.ranged s.cfg i →
       i ≠ .pginv ∧ c'.ranged s.cfg i) :
   KeepsInv (openTransaction c' u) := by
  have hctx : u.ctx = s.ctx := by simp [State.ctx, hu.hact]
  unfold openTransaction
  rw [hu.hcfg, hctx]
  have hleg : c.legal s.cfg s.ctx := by
    cases hx : s.ctx <;> rw [hx] at hs
    · exact h.fgLegal c hs
    · exact h.isrLegal c hs
  obtain ⟨i, h1, h2, h3, h4⟩ := hleg
  obtain ⟨g0, g1⟩ := hl i h1 h2 h3 h4
  refine h.keeps_block hs ⟨i, by simpa [hw] using h1, h2, ?_, ?_⟩ ?_ ?_ ?_ hu.hcfg hu.hact hu.hoth hu.h1 hu.h2 hu.h3 hu.h4
  · exact ⟨g0, List.suffix_refl _⟩
  · exact g1
  · have : c.bracket s.cfg s.ctx = Bracket.free := by simp [InFlight.bracket, InFlight.holdsLock, ht, hb, flagNow]
    rw [this]
    cases hx : s.ctx <;> cases hm : s.cfg.csMode <;> simp [InFlight.bracket, InFlight.holdsLock, openPrims, hm, flagNow]
  · intro hx hh; rw [hx] at hh; cases hm : s.cfg.csMode <;> simp [InFlight.holdsMask, openPrims, flagNow, hm] at hh
  · exact open_ne _ _

theorem keeps_respond {s u : State} (h : s.Inv) {c : InFlight} (hs : s.slot s.ctx = some c) (ht : c.todo = [])
    (hb : c.point.inBody = false)
   (hu : SameOpen s u) (es : List Event) (hes : bracketOf (s.history ++ es) = some Bracket.free) (r) (u')
       (hu' : u' = {u with history := s.history ++ es}):
   KeepsInv (respond r u') := by
  subst hu'
  refine ⟨_, rfl, ?_⟩
  have hctx : u.ctx = s.ctx := by simp [State.ctx, hu.hact]
  have hctx' : ({u with history := s.history ++ es} : State).ctx = s.ctx := hctx
  have hfree : c.bracket s.cfg s.ctx = Bracket.free := by simp [InFlight.bracket, InFlight.holdsLock, ht, hb, flagNow]
  have hK := h.at_ctx.1
  rw [hs] at hK
  simp only [slotBracket, hfree] at hK
  have hslots : ∀ y, ({u with history := s.history ++ es} : State).slot y = s.slot y := by
      intro y; rw [← hu.hoth y]; cases y <;> rfl
  have hbr : ({u with history := s.history ++ es} : State).bracket = Bracket.free := by rw [← hK, ← hu.h3]; rfl
  refine h.rebuild ?_ ?_ ?_ ?_ ?_ ?_ ?_ ?_ ?_
  · simp [hu.hcfg]
  · simp [hu.hact]
  · intro y hy; rw [State.emit_slot, State.putSlot_slot_other, hslots]; rw [hctx']; exact hy.symm
  · intro d hd; simp [hctx'] at hd
  · intro _ d hd; simp [hctx'] at hd
  · simp [hu.h1]
  · have := h.lockFlag; simp [hu.h2, this]; have h3 := congrArg Bracket.owner hu.h3; simp [State.bracket] at h3; rw [h3]
  · simp [hbr, hctx', slotBracket]
  · rw [State.emit_history, State.putSlot_history, bracketOf_append]
    rw [hes]; simp [bracketStep, Bracket.free, hbr]

theorem SameOpen.refl (s) : SameOpen s s := ⟨rfl,rfl,fun _ => rfl,rfl,rfl,rfl,rfl,rfl⟩
theorem SameOpen.page (s v) : SameOpen s (s.setPageCache v) := ⟨rfl,rfl,fun y => by cases y <;> rfl,rfl,rfl,rfl,rfl,rfl⟩
theorem SameOpen.draw {s u} (h : SameOpen s u)
    : SameOpen s u.countDraw := ⟨h.1,h.2,fun y => by rw [← h.3 y]; cases y <;> rfl,h.4,h.5,h.6,h.7,h.8⟩
theorem SameOpen.ab (s m) : SameOpen s (s.setAb m) := ⟨rfl,rfl,fun y => by cases y <;> rfl,rfl,rfl,rfl,rfl,rfl⟩
theorem SameOpen.forget (s n) : SameOpen s (s.forgetAb n) := ⟨rfl,rfl,fun y => by cases y <;> rfl,rfl,rfl,rfl,rfl,rfl⟩

theorem keeps_raise {s : State} (h : s.Inv) (code info) : KeepsInv (.next (raiseFault code info s)) := by
  refine ⟨_, rfl, ?_⟩
  refine ⟨h.1,h.2,h.3,h.4,h.5,h.6,?_⟩
  show bracketOf (s.history ++ [_]) = _
  rw [bracketOf_append, h.bracketed]; simp [bracketStep]; rfl

/-- The running context's command `i` is at the end of a block, in a state with the invariant. -/
structure AtEnd (s : State) (c : InFlight) (i : Instr) : Prop where
  h : s.Inv
  hs : s.slot s.ctx = some c
  ht : c.todo = []
  hi : decode c.word = .ok i

theorem AtEnd.facts {s c i} (k : AtEnd s c i)
    : i.wellFormed s.cfg = true ∧ c.placed s.cfg s.ctx i ∧ c.ranged s.cfg i := by
  have hleg : c.legal s.cfg s.ctx := by
    have hs := k.hs
    cases hx : s.ctx <;> rw [hx] at hs
    · exact k.h.fgLegal c hs
    · exact k.h.isrLegal c hs
  obtain ⟨j, h1, h2, h3, h4⟩ := hleg
  rw [k.hi] at h1; cases h1
  exact ⟨h2, h3, h4⟩

theorem AtEnd.frame {s u c c' i} (k : AtEnd s c i) (hb : c.point.inBody = true) (f role) (hu : SameOpen s u)
    (hw : c'.word = c.word)
   (h1 : frameFor s.cfg i c' role = some f) (h2 : c'.ranged s.cfg i)
       (h3 : ∀ count, i = .wrbulk count → c'.index < count.toNat := by simp) : KeepsInv (startFrame f role c' u) :=
  keeps_startFrame k.h k.hs k.ht hb f role hu hw (fun j hj _ _ _ => by rw [k.hi] at hj; cases hj; exact ⟨h1, h3, h2⟩)

theorem AtEnd.close {s u c c' i} (k : AtEnd s c i) (hb : c.point.inBody = true) (ok) (hu : SameOpen s u)
    (hw : c'.word = c.word)
   (h0 : i ≠ .pginv) (h1 : answered i {c' with ok := ok})
       (h2 : c'.ranged s.cfg i) : KeepsInv (closeTransaction ok c' u) :=
  keeps_close k.h k.hs k.ht hb ok hu hw (fun j hj _ _ _ => by rw [k.hi] at hj; cases hj; exact ⟨h0, h1, h2⟩)

theorem AtEnd.open {s u c c' i} (k : AtEnd s c i) (hb : c.point.inBody = false) (hu : SameOpen s u)
    (hw : c'.word = c.word)
   (h0 : i ≠ .pginv) (h2 : c'.ranged s.cfg i) : KeepsInv (openTransaction c' u) :=
  keeps_open k.h k.hs k.ht hb hu hw (fun j hj _ _ _ => by rw [k.hi] at hj; cases hj; exact ⟨h0, h2⟩)

theorem AtEnd.respond {s u c i} (k : AtEnd s c i) (hb : c.point.inBody = false) (hu : SameOpen s u)
    (r) : KeepsInv (respond r u) := by
  have hfree : c.bracket s.cfg s.ctx = Bracket.free := by simp [InFlight.bracket, InFlight.holdsLock, k.ht, hb, flagNow]
  have hK := k.h.at_ctx.1
  rw [k.hs] at hK
  simp only [slotBracket, hfree] at hK
  refine keeps_respond k.h k.hs k.ht hb hu [] ?_ r u ?_
  · simp [k.h.bracketed, hK]
  · simp [← hu.h4]

theorem AtEnd.write {s c i} (k : AtEnd s c i) (hb : c.point.inBody = true) (g st off val)
    (done : Bool → InFlight → State → Result)
   (hf1 : frameFor s.cfg i c (.verify g .write) = some (.regWrite off val))
   (hf2 : frameFor s.cfg i c (.verify g .addr) = some (.regRead (shadowAddrOffset s.cfg)))
   (hf3 : frameFor s.cfg i c (.verify g .value) = some (.regRead (shadowValOffset s.cfg)))
   (hd : ∀ b, KeepsInv (done b c s)) (h3 : ∀ count, i = .wrbulk count → c.index < count.toNat := by
       simp) : KeepsInv (continueWrite g st off val c s done) := by
  obtain ⟨_, _, hr⟩ := k.facts
  unfold continueWrite
  cases st
  · exact k.frame hb _ _ (SameOpen.refl s) rfl hf2 hr h3
  · exact k.frame hb _ _ (SameOpen.refl s) rfl hf3 hr h3
  · dsimp only
    split_ifs with h1 h2
    · exact hd _
    · refine k.frame hb _ _ (SameOpen.refl s) rfl hf1 ⟨?_, hr.2⟩ h3
      show c.attempt + 1 ≤ _; omega
    · exact hd _

theorem ranged_attempt {cfg i c} (h : InFlight.ranged cfg i c)
    : ({c with attempt := 0} : InFlight).ranged cfg i := ⟨Nat.zero_le _, h.2⟩

/-- `EnsurePage` keeps the invariant if what follows it does. -/
theorem AtEnd.ensure {s u c c' i a} (k : AtEnd s c i) (hb : c.point.inBody = true) (go) (hu : SameOpen s u)
    (hp : u.pageCache = s.pageCache) (hw : c'.word = c.word) (hr : c'.ranged s.cfg i)
   (ha : accessAddr i c' = some a) (hg : KeepsInv (go c' u))
       (h3 : ∀ count, i = .wrbulk count → c'.index < count.toNat := by simp) : KeepsInv (ensurePage a go c' u) := by
  unfold ensurePage
  split_ifs with h1 h2
  · exact hg
  · exact hg
  · unfold beginWrite
    rw [hu.hcfg]
    refine k.frame hb _ _ hu hw ?_ (ranged_attempt hr) h3
    have : accessAddr i { c' with attempt := 0 } = some a := by rw [← ha]; rfl
    simp [frameFor, pageWrite, verifyFrame, this, h1]

theorem AtEnd.page {s c i a} (k : AtEnd s c i) (hb : c.point.inBody = true) (st) (go) (h0 : i ≠ .pginv)
   (ha : accessAddr i c = some a) (hm : mirrored a = false) (hg : KeepsInv (go c (s.setPageCache (.page (pageOf a)))))
   (han : answered i {c with ok := false}) (h3 : ∀ count, i = .wrbulk count → c.index < count.toNat := by
       simp) : KeepsInv (continuePage a st go c s) := by
  obtain ⟨_, _, hr⟩ := k.facts
  unfold continuePage
  refine k.write hb _ _ _ _ _ ?_ ?_ ?_ ?_ h3
  · simp [frameFor, pageWrite, verifyFrame, ha, hm]
  · simp [frameFor, pageWrite, verifyFrame, ha, hm]
  · simp [frameFor, pageWrite, verifyFrame, ha, hm]
  · intro b; cases b
    · exact k.close hb _ (SameOpen.page _ _) rfl h0 han hr
    · simpa using hg

theorem keeps_rdreg {s c addr} (k : AtEnd s c (.rdreg addr)) : KeepsInv (proceedRdreg addr c s) := by
  obtain ⟨hw, hp, hr⟩ := k.facts
  unfold proceedRdreg
  unfold InFlight.placed at hp
  have hgo : c.point.inBody = true → ∀ u, SameOpen s u → KeepsInv (beginRead (offsetOf addr) c u) := fun hb u hu =>
    k.frame hb _ _ hu rfl (by simp [frameFor, pageWrite, verifyFrame, accessAddr, readTarget, writeTarget, fifoFrame]) hr
  cases hpt : c.point with
  | accepted => exact k.open (by simp [hpt, Point.inBody]) (SameOpen.refl s) rfl (by simp) hr
  | opened => exact k.ensure  (by simp [hpt, Point.inBody]) _ (SameOpen.refl s) rfl rfl hr rfl (hgo (by simp [hpt,
        Point.inBody]) _ (SameOpen.refl s))
  | frame f role =>
    rw [hpt] at hp; dsimp only at hp
    have hb : c.point.inBody = true := by simp [hpt, Point.inBody]
    match role with
    | .verify .page st =>
      refine k.page  hb st _ (by simp) rfl ?_ (hgo hb _ (SameOpen.page _ _)) (by simp [answered, readTarget, fifoFrame])
      cases st <;> (have := hp.1; simp [frameFor, pageWrite, verifyFrame, accessAddr, readTarget, writeTarget,
          fifoFrame] at this; simp [this.1])
    | .read =>
      have hlen := hp.2.2.1
      simp [frameFor, pageWrite, verifyFrame, accessAddr, readTarget, writeTarget, fifoFrame] at hp
      refine k.close hb _ (SameOpen.refl s) rfl (by simp) ?_ hr
      refine ⟨?_, by simp [fifoFrame]⟩
      intro _ _
      show c.rx.length = 3
      rw [← hp.1, k.ht] at hlen
      simp [exchanges] at hlen
      rw [hlen]
      cases hm : s.cfg.csMode
      · simp [framePrims_transaction _ _ hm, frameBody]
      · simp [framePrims_access _ _ hm, frameBody]
    | .verify .target st => cases st <;> simp [frameFor, pageWrite, verifyFrame, accessAddr, readTarget, writeTarget,
          fifoFrame] at hp
    | .fifo => simp [frameFor, pageWrite, verifyFrame, accessAddr, readTarget, writeTarget, fifoFrame] at hp
  | closed =>
    dsimp only [finishRdreg]; split_ifs
    · exact k.respond (by simp [hpt, Point.inBody]) (SameOpen.refl s) _
    · exact k.respond (by simp [hpt, Point.inBody]) (SameOpen.refl s).draw _

theorem keeps_wrreg {s c addr val} (k : AtEnd s c (.wrreg addr val)) : KeepsInv (proceedWrreg addr val c s) := by
  obtain ⟨hw, hp, hr⟩ := k.facts
  unfold proceedWrreg
  unfold InFlight.placed at hp
  have hgo : c.point.inBody = true → ∀ u, SameOpen s u → KeepsInv (beginWrite .target (offsetOf addr) val c u)
      := fun hb u hu =>
    k.frame hb _ _ hu rfl (by simp [frameFor, pageWrite, verifyFrame, accessAddr, readTarget, writeTarget,
        fifoFrame]) (ranged_attempt hr)
  cases hpt : c.point with
  | accepted => exact k.open (by simp [hpt, Point.inBody]) (SameOpen.refl s) rfl (by simp) hr
  | opened => exact k.ensure  (by simp [hpt, Point.inBody]) _ (SameOpen.refl s) rfl rfl hr rfl (hgo (by simp [hpt,
        Point.inBody]) _ (SameOpen.refl s))
  | frame f role =>
    rw [hpt] at hp; dsimp only at hp
    have hb : c.point.inBody = true := by simp [hpt, Point.inBody]
    match role with
    | .verify .page st =>
      refine k.page  hb st _ (by simp) rfl ?_ (hgo hb _ (SameOpen.page _ _)) (by simp [answered, readTarget, fifoFrame])
      cases st <;> (have := hp.1; simp [frameFor, pageWrite, verifyFrame, accessAddr, readTarget, writeTarget,
          fifoFrame] at this; simp [this.1])
    | .read => simp [frameFor, pageWrite, verifyFrame, accessAddr, readTarget, writeTarget, fifoFrame] at hp
    | .verify .target st =>
       refine k.write hb _ _ _ _ _ (by simp [frameFor, pageWrite, verifyFrame, accessAddr, readTarget, writeTarget,
           fifoFrame]) (by simp [frameFor, pageWrite, verifyFrame, accessAddr, readTarget, writeTarget,
           fifoFrame]) (by simp [frameFor, pageWrite, verifyFrame, accessAddr, readTarget, writeTarget, fifoFrame]) ?_
       intro b; exact k.close hb _ (SameOpen.refl s) rfl (by simp) (by simp [answered, readTarget, fifoFrame]) hr
    | .fifo => simp [frameFor, pageWrite, verifyFrame, accessAddr, readTarget, writeTarget, fifoFrame] at hp
  | closed => exact k.respond (by simp [hpt, Point.inBody]) (SameOpen.refl s) _

theorem keeps_nextEntry {s c c' count} (k : AtEnd s c (.wrbulk count)) (hb : c.point.inBody = true)
    (hw : c'.word = c.word) (hr : c'.ranged s.cfg (.wrbulk count)) : KeepsInv (nextEntry count c' s) := by
  have hdr : SameOpen s (bulkDrawn c' s) := by
      unfold bulkDrawn; split; exact (SameOpen.refl s).draw; exact SameOpen.refl s
  have hpg : (bulkDrawn c' s).pageCache = s.pageCache := by unfold bulkDrawn; split <;> rfl
  unfold nextEntry
  split_ifs with hlt
  · have h3 : ∀ n : BitVec 16, Instr.wrbulk count = .wrbulk n → c'.index < n.toNat := by intro n hn; cases hn; exact hlt
    refine k.ensure hb _ hdr hpg hw ⟨hr.1, hr.2.1, hr.2.2⟩ rfl ?_ h3
    exact k.frame hb _ _ hdr hw (by simp [frameFor, pageWrite, verifyFrame, accessAddr, readTarget, writeTarget,
        fifoFrame]) ⟨Nat.zero_le _, hr.2⟩ h3
  · exact k.close hb _ (SameOpen.refl s) hw (by simp) (by simp [answered, readTarget, fifoFrame]) hr

theorem keeps_wrbulk {s c count} (k : AtEnd s c (.wrbulk count)) : KeepsInv (proceedWrbulk count c s) := by
  obtain ⟨hw, hp, hr⟩ := k.facts
  unfold proceedWrbulk
  unfold InFlight.placed at hp
  have hgo : c.point.inBody = true → c.index < count.toNat → ∀ u, SameOpen s u →
      KeepsInv (beginWrite .target (offsetOf c.cur.addr) c.cur.val c u) := fun hb hi u hu =>
    k.frame hb _ _ hu rfl (by simp [frameFor, pageWrite, verifyFrame, accessAddr, readTarget, writeTarget,
        fifoFrame]) (ranged_attempt hr) (by intro n hn; cases hn; exact hi)
  cases hpt : c.point with
  | accepted => exact k.open (by simp [hpt, Point.inBody]) (SameOpen.refl s) rfl (by simp) hr
  | opened => exact keeps_nextEntry k (by simp [hpt, Point.inBody]) rfl ⟨hr.1, by simp, by simp⟩
  | frame f role =>
    rw [hpt] at hp; dsimp only at hp
    have hb : c.point.inBody = true := by simp [hpt, Point.inBody]
    have hidx := hp.2.2.2 count rfl
    have h3 : ∀ n : BitVec 16, Instr.wrbulk count = .wrbulk n → c.index < n.toNat := by intro n hn; cases hn; exact hidx
    match role with
    | .verify .page st =>
      refine k.page  hb st _ (by simp) rfl ?_ (hgo hb hidx _ (SameOpen.page _ _))
          (by simp [answered, readTarget, fifoFrame]) h3
      cases st <;> (have := hp.1; simp [frameFor, pageWrite, verifyFrame, accessAddr, readTarget, writeTarget,
          fifoFrame] at this; simp [this.1])
    | .read => simp [frameFor, pageWrite, verifyFrame, accessAddr, readTarget, writeTarget, fifoFrame] at hp
    | .verify .target st =>
       refine k.write hb _ _ _ _ _ (by simp [frameFor, pageWrite, verifyFrame, accessAddr, readTarget, writeTarget,
           fifoFrame]) (by simp [frameFor, pageWrite, verifyFrame, accessAddr, readTarget, writeTarget,
           fifoFrame]) (by simp [frameFor, pageWrite, verifyFrame, accessAddr, readTarget, writeTarget, fifoFrame]) ?_ h3
       intro b; unfold afterEntry; split_ifs with hbb
       · refine keeps_nextEntry k hb rfl ⟨hr.1, ?_, by simp⟩
         intro n hn; cases hn; show c.index + 1 ≤ _; omega
       · exact k.close hb _ (SameOpen.refl s) rfl (by simp) (by simp [answered, readTarget, fifoFrame]) hr
    | .fifo => simp [frameFor, pageWrite, verifyFrame, accessAddr, readTarget, writeTarget, fifoFrame] at hp
  | closed => exact k.respond (by simp [hpt, Point.inBody]) (SameOpen.refl s) _

theorem keeps_closeFifo {s c i} (k : AtEnd s c i) (hb : c.point.inBody = true)
    (hi : i = .fiford ∨ ∃ n, i = .fifordall n) (hlen : c.rx.length = 6) : KeepsInv (closeFifoRead c s) := by
  obtain ⟨hw, hp, hr⟩ := k.facts
  have hne : i ≠ .pginv := by rcases hi with rfl | ⟨n, rfl⟩ <;> simp
  have han : frameAnswer c ≠ .badCount → answered i { c with ok := true } := by
    intro h; rcases hi with rfl | ⟨n, rfl⟩ <;> exact ⟨by simp [readTarget], fun _ => ⟨hlen, h⟩⟩
  unfold closeFifoRead
  cases hf : frameAnswer c with
  | badCount => exact keeps_raise k.h _ _
  | overflow => exact k.close hb _ (SameOpen.refl s) rfl hne (han (by simp [hf])) hr
  | frame w n => exact k.close hb _ (SameOpen.refl s) rfl hne (han (by simp [hf])) hr

theorem fifoRead_answers {s c i f} (k : AtEnd s c i) (hpt : c.point = .frame f .fifo)
    (hf : f = .fifoRead) : c.rx.length = 6 := by
  obtain ⟨hw, hp, hr⟩ := k.facts
  subst hf
  unfold InFlight.placed at hp
  rw [hpt] at hp
  have hlen := hp.2.2.1
  rw [k.ht] at hlen
  simp [exchanges] at hlen
  rw [hlen]
  cases hm : s.cfg.csMode
  · simp [framePrims_transaction _ _ hm, frameBody]
  · simp [framePrims_access _ _ hm, frameBody]

theorem keeps_fifowr {s c n} (k : AtEnd s c (.fifowr n)) : KeepsInv (proceedFifowr n c s) := by
  obtain ⟨hw, hp, hr⟩ := k.facts
  unfold proceedFifowr
  unfold InFlight.placed at hp
  cases hpt : c.point with
  | accepted => exact k.open (by simp [hpt, Point.inBody]) (SameOpen.refl s) rfl (by simp) hr
  | opened => exact k.frame (by simp [hpt, Point.inBody]) _ _ (SameOpen.refl s) rfl (by simp [frameFor, pageWrite,
        verifyFrame, accessAddr, readTarget, writeTarget, fifoFrame]) hr
  | frame f role =>
    rw [hpt] at hp; dsimp only at hp
    have hb : c.point.inBody = true := by simp [hpt, Point.inBody]
    match role with
    | .verify g st => cases g <;> cases st <;> simp [frameFor, pageWrite, verifyFrame, accessAddr, readTarget,
          writeTarget, fifoFrame] at hp
    | .read => simp [frameFor, pageWrite, verifyFrame, accessAddr, readTarget, writeTarget, fifoFrame] at hp
    | .fifo => exact k.close hb _ (SameOpen.refl s) rfl (by simp) (by simp [answered, readTarget, fifoFrame]) hr
  | closed => exact k.respond (by simp [hpt, Point.inBody]) (SameOpen.refl s) _

theorem keeps_fiford {s c} (k : AtEnd s c .fiford) : KeepsInv (proceedFiford c s) := by
  obtain ⟨hw, hp, hr⟩ := k.facts
  unfold proceedFiford
  unfold InFlight.placed at hp
  cases hpt : c.point with
  | accepted => exact k.open (by simp [hpt, Point.inBody]) (SameOpen.refl s) rfl (by simp) hr
  | opened => exact k.frame (by simp [hpt, Point.inBody]) _ _ (SameOpen.refl s) rfl (by simp [frameFor, pageWrite,
        verifyFrame, accessAddr, readTarget, writeTarget, fifoFrame]) hr
  | frame f role =>
    rw [hpt] at hp; dsimp only at hp
    have hb : c.point.inBody = true := by simp [hpt, Point.inBody]
    match role with
    | .verify g st => cases g <;> cases st <;> simp [frameFor, pageWrite, verifyFrame, accessAddr, readTarget,
          writeTarget, fifoFrame] at hp
    | .read => simp [frameFor, pageWrite, verifyFrame, accessAddr, readTarget, writeTarget, fifoFrame] at hp
    | .fifo =>
      have hfr := hp.1
      simp [frameFor, fifoFrame] at hfr
      exact keeps_closeFifo k hb (.inl rfl) (fifoRead_answers k hpt hfr.symm)
  | closed =>
    rw [hpt] at hp
    dsimp only [finishFiford]
    cases hf : frameAnswer c with
    | badCount => exact absurd hf (hp.2.2.2 rfl).2
    | overflow => exact k.respond (by simp [hpt, Point.inBody]) (SameOpen.refl s) _
    | frame w n => exact k.respond (by simp [hpt, Point.inBody]) (SameOpen.refl s) _

theorem keeps_fifordall {s c n} (k : AtEnd s c (.fifordall n)) : KeepsInv (proceedFifordall n c s) := by
  obtain ⟨hw, hp, hr⟩ := k.facts
  unfold proceedFifordall
  unfold InFlight.placed at hp
  cases hpt : c.point with
  | accepted => exact k.open (by simp [hpt, Point.inBody]) (SameOpen.refl s) rfl (by simp) ⟨hr.1, by simp, by simp⟩
  | opened => exact k.frame (by simp [hpt, Point.inBody]) _ _ (SameOpen.refl s) rfl (by simp [frameFor, pageWrite,
        verifyFrame, accessAddr, readTarget, writeTarget, fifoFrame]) hr
  | frame f role =>
    rw [hpt] at hp; dsimp only at hp
    have hb : c.point.inBody = true := by simp [hpt, Point.inBody]
    match role with
    | .verify g st => cases g <;> cases st <;> simp [frameFor, pageWrite, verifyFrame, accessAddr, readTarget,
          writeTarget, fifoFrame] at hp
    | .read => simp [frameFor, pageWrite, verifyFrame, accessAddr, readTarget, writeTarget, fifoFrame] at hp
    | .fifo =>
      have hfr := hp.1
      simp [frameFor, fifoFrame] at hfr
      exact keeps_closeFifo k hb (.inr ⟨_, rfl⟩) (fifoRead_answers k hpt hfr.symm)
  | closed =>
    rw [hpt] at hp
    have hb : c.point.inBody = false := by simp [hpt, Point.inBody]
    dsimp only [afterFrame, finishFifordall]
    cases hf : frameAnswer c with
    | badCount => exact absurd hf (hp.2.2.2 rfl).2
    | overflow => exact k.respond hb (SameOpen.forget s _) _
    | frame w m =>
      dsimp only
      split_ifs with h1 h2
      · exact k.respond hb (SameOpen.forget s _) _
      · exact k.respond hb (SameOpen.forget s _) _
      · refine k.open hb (SameOpen.ab s _) rfl (by simp) ⟨hr.1, by simp, ?_⟩
        intro mb hmb; cases hmb
        show c.total + m ≤ _; omega

theorem keeps_pginv {s c} (k : AtEnd s c .pginv) : KeepsInv (proceedPginv c s) := by
  obtain ⟨hw, hp, hr⟩ := k.facts
  unfold proceedPginv
  unfold InFlight.placed at hp
  cases hpt : c.point with
  | accepted =>
    have hb : c.point.inBody = false := by simp [hpt, Point.inBody]
    have hfree : c.bracket s.cfg s.ctx = Bracket.free := by simp [InFlight.bracket, InFlight.holdsLock, k.ht, hb, flagNow]
    have hK := k.h.at_ctx.1
    rw [k.hs] at hK
    simp only [slotBracket, hfree] at hK
    refine keeps_respond k.h k.hs k.ht hb (SameOpen.page s .invalid) [.pginv s.ctx] ?_ _ _ rfl
    rw [bracketOf_append, k.h.bracketed, hK]; simp [bracketStep, Bracket.free]
  | opened => simp [hpt] at hp
  | closed => simp [hpt] at hp
  | frame f role =>
    rw [hpt] at hp; dsimp only at hp
    match role with
    | .verify g st => cases g <;> cases st <;> simp [frameFor, pageWrite, verifyFrame, accessAddr, readTarget,
          writeTarget, fifoFrame] at hp
    | .read => simp [frameFor, pageWrite, verifyFrame, accessAddr, readTarget, writeTarget, fifoFrame] at hp
    | .fifo => simp [frameFor, pageWrite, verifyFrame, accessAddr, readTarget, writeTarget, fifoFrame] at hp

end Sys2Proof.Machine
end

