-- ==== Sys2Proof/Laws/PerInstr.lean ====
section
/-! SUPPORT. Statements for all instructions, one lemma per constructor. -/

namespace Sys2Proof.Laws.OperandFaults

open Sys2Proof Sys2Proof.Machine

/-- The operand faults an instruction's own rule allows at acceptance (R137-R140, R162, R166, R169; the wire frames carry no checked
operand). -/
def allowed : Instr → List OperandFault
  | .rdreg _ => [.addrReservedBits]
  | .wrreg _ _ => [.addrReservedBits, .protectedTarget]
  | .wrbulk _ => [.operandRange]
  | .fifowr _ => [.operandRange]
  | .fiford => []
  | .fifordall _ => [.operandRange]
  | .pginv => []
  | .regRead _ => []
  | .regWrite _ _ => []
  | .fifoWrite _ => []
  | .fifoRead => []

/-- Under every configuration the instruction's own operands fail only with a fault its rule lists. -/
def Statement (i : Instr) : Prop := ∀ cfg f, operandFault cfg i = some f → f ∈ allowed i

theorem rdreg (addr : RegAddr) : Statement (.rdreg addr) := by
  intro cfg f h
  simp only [operandFault, readTargetFault] at h
  split at h <;> simp_all [allowed]

theorem wrreg (addr : RegAddr) (val : Byte) : Statement (.wrreg addr val) := by
  intro cfg f h
  simp only [operandFault, writeTargetFault] at h
  split at h
  · simp_all [allowed]
  · split at h <;> simp_all [allowed]

theorem wrbulk (count : BitVec 16) : Statement (.wrbulk count) := by
  intro cfg f h
  simp only [operandFault] at h
  split at h <;> simp_all [allowed]

theorem fifowr (nbits : BitVec 9) : Statement (.fifowr nbits) := by
  intro cfg f h
  simp only [operandFault] at h
  split at h <;> simp_all [allowed]

theorem fiford : Statement .fiford := by intro cfg f h; cases h

theorem fifordall (maxBits : BitVec 16) : Statement (.fifordall maxBits) := by
  intro cfg f h
  simp only [operandFault] at h
  split at h <;> simp_all [allowed]

theorem pginv : Statement .pginv := by intro cfg f h; cases h

theorem regRead (off : Byte) : Statement (.regRead off) := by intro cfg f h; cases h

theorem regWrite (off val : Byte) : Statement (.regWrite off val) := by intro cfg f h; cases h

theorem fifoWrite (len : Byte) : Statement (.fifoWrite len) := by intro cfg f h; cases h

theorem fifoRead : Statement .fifoRead := by intro cfg f h; cases h

end Sys2Proof.Laws.OperandFaults
end

