-- ==== Sys2Proof/Machine/RefDevice.lean ====
section
/-! DEFINITION. The non-normative reference device of R72-R74, beside the engine and no part of its State: the spec uses it for
its vectors, and no statement about the engine may rest on it (R71, D36; DESIGN CHOICE, log 19). -/

namespace Sys2Proof.Machine

/-- The reference device's parser (R73). -/
inductive DeviceParser where
  | idle
  | readOffset
  | readData (off : Byte)
  | writeOffset
  | writeData (off : Byte)
  | fifoLength
  /-- `left` payload bytes to come of a frame of `bits` bits, with the wire bits received so far. -/
  | fifoPayload (bits left : Nat) (got : List Bool)
  /-- Byte `k` of the answer to a FIFO read is next: four word bytes, then the status byte. -/
  | fifoAnswer (k : Nat)
  deriving DecidableEq, Repr

/-- The reference device's state (R72). Registers not listed hold 0x00. -/
structure RefDevice where
  /-- `reg(p, o)`, by 256 p + o. -/
  paged    : Memory Byte
  /-- `mreg(o)`, by o. -/
  mirror   : Memory Byte
  devPage  : Page
  shadowA  : Byte
  shadowV  : Byte
  txBits   : List Bool
  rxFrames : List (BitVec 32 × Byte)
  parser   : DeviceParser
  /-- The offsets whose writes the device loses. -/
  drop     : List Byte
  deriving DecidableEq, Repr

/-- The reference device at power-on (R72), with the example status registers of D37. -/
def refPowerOn (drop : List Byte) : RefDevice where
  paged    := []
  mirror   := [(0xF0, 0xFF), (0xF1, 0xFF), (0xF2, 0xFF)]
  devPage  := 0
  shadowA  := 0
  shadowV  := 0
  txBits   := []
  rxFrames := []
  parser   := .idle
  drop     := drop

/-- The cell of a paged register. -/
def pagedIndex (p : Page) (o : Byte) : Nat := 256 * p.toNat + o.toNat

/-- What a REG_READ of offset `o` answers (R72, R74). -/
def refRead (cfg : Config) (d : RefDevice) (o : Byte) : Byte :=
  if o = shadowAddrOffset cfg then d.shadowA
  else if o = shadowValOffset cfg then d.shadowV
  else if o = pageSelOffset cfg then pageSelectValue d.devPage
  else if mirroredOffset o then (readCell d.mirror o.toNat).getD 0
  else (readCell d.paged (pagedIndex d.devPage o)).getD 0

/-- The effect of a REG_WRITE frame (R74). -/
def refWrite (cfg : Config) (d : RefDevice) (o v : Byte) : RefDevice :=
  if o ∈ d.drop then d
  else
    let d := { d with shadowA := o, shadowV := v }
    if o = shadowAddrOffset cfg ∨ o = shadowValOffset cfg then d
    else if o = pageSelOffset cfg then { d with devPage := v.extractLsb' 0 2 }
    else if mirroredOffset o then { d with mirror := writeCell d.mirror o.toNat v }
    else { d with paged := writeCell d.paged (pagedIndex d.devPage o) v }

/-- Byte k of the head frame's answer: the word's bytes from the low one, then the status byte; an empty queue answers
zeros (R73). -/
def refFifoByte (d : RefDevice) (k : Nat) : Byte :=
  match d.rxFrames with
  | [] => 0
  | (w, st) :: _ => if k < 4 then w.extractLsb' (8 * k) 8 else st

/-- A byte that opens a frame (R73); any other is ignored. -/
def refOpen (cfg : Config) (tx : Byte) : DeviceParser :=
  if tx = cfg.cmdRead then .readOffset
  else if tx = cfg.cmdWrite then .writeOffset
  else if tx = cfg.cmdFifoWrite then .fifoLength
  else if tx = cfg.cmdFifoRead then .fifoAnswer 0
  else .idle

/-- One exchange (R73, R74): the device's answer and its next state. -/
def refExchange (cfg : Config) (tx : Byte) (o : BitOrder) (d : RefDevice) : Byte × RefDevice :=
  match d.parser with
  | .idle => (0, { d with parser := refOpen cfg tx })
  | .readOffset => (0, { d with parser := .readData tx })
  | .readData off => (refRead cfg d off, { d with parser := .idle })
  | .writeOffset => (0, { d with parser := .writeData tx })
  | .writeData off => (0, { (refWrite cfg d off tx) with parser := .idle })
  | .fifoLength => (0, { d with parser := .fifoPayload (tx.toNat + 1) (payloadCount tx) [] })
  | .fifoPayload bits left got =>
    if left ≤ 1 then
      (0, { d with parser := .idle, txBits := d.txBits ++ (got ++ wireBits o tx).take bits })
    else (0, { d with parser := .fifoPayload bits (left - 1) (got ++ wireBits o tx) })
  | .fifoAnswer k =>
    if k < 4 then (refFifoByte d k, { d with parser := .fifoAnswer (k + 1) })
    else (refFifoByte d k, { d with parser := .idle, rxFrames := d.rxFrames.tail })

/-- The device sees a bus event other than an exchange (R73): with PER_ACCESS a CS_DEASSERT returns the parser to idle. -/
def refObserve (cfg : Config) (e : Option Event) (d : RefDevice) : RefDevice :=
  match e with
  | some (.csDeassert _) => if cfg.csMode = .perAccess then { d with parser := .idle } else d
  | _ => d

/-- The last event a step appended to the history. -/
def lastEmitted (s t : State) : Option Event := (t.history.drop s.history.length).getLast?

/-- One step of the running context's slot with the reference device answering: what the step sends does not depend on the
answer, so the step taken with any answer shows the byte the device is asked. -/
def coupledStep (s : State) (d : RefDevice) : Result × RefDevice :=
  match engineStep s.ctx 0 s with
  | .next t =>
    match lastEmitted s t with
    | some (.xchg tx _ o _) =>
      (engineStep s.ctx (refExchange s.cfg tx o d).1 s, (refExchange s.cfg tx o d).2)
    | e => (.next t, refObserve s.cfg e d)
  | r => (r, d)

end Sys2Proof.Machine
end

