-- ==== Sys2Proof/Tests/Slice0.lean ====
section
/-! SUPPORT. Small tests of the model, with expected results from the spec's examples and vectors (95_test_vectors.md, profile D37), and for
every statement a witness that its hypotheses can be met. -/

namespace Sys2Proof.Tests

open Sys2Proof Sys2Proof.Machine

/-! ## Small states -/

/-- A command at a phase. -/
def at' (i : Instr) (p : Point) (todo : List Prim) : InFlight := { freshCommand (encode i) with point := p, todo := todo }

/-- The reset state with a foreground command in flight, inside its transaction. -/
def busy (c : InFlight) : State :=
  { State.reset with fgSlot := some c, irqMasked := true, lockHeld := true, lockOwner := some .fg, csAsserted := true }

/-- The reset state with a foreground command in flight, outside any transaction. -/
def between (c : InFlight) : State := { State.reset with fgSlot := some c }

/-- The reset state with the interrupt context running. -/
def inIsr : State := { State.reset with isrActive := true }

/-- The reset state under PER_ACCESS. -/
def perAccess : State := State.resetWith { Config.exampleProfile with csMode := .perAccess }

/-- The last event of a next state. -/
def lastEvent : Result → Option Event
  | .next t => t.history.getLast?
  | .fault _ => none
  | .refused _ => none

/-- The fault register of a next state. -/
def faultOf : Result → Option FaultCode
  | .next t => some t.fault
  | .fault _ => none
  | .refused _ => none

/-- The page cache of a next state. -/
def pageOfNext : Result → Option PageCache
  | .next t => some t.pageCache
  | .fault _ => none
  | .refused _ => none

/-! ## WellFormed: an ill-formed term for each check -/

theorem smoke_profile : Config.exampleProfile.wf = true := by decide
theorem smoke_commands : ({ Config.exampleProfile with cmdWrite := 0xC1 } : Config).wf = false := by decide
theorem smoke_pageSel_low : ({ Config.exampleProfile with pageSelAddr := 0x009F } : Config).wf = false := by decide
theorem smoke_shadowAddr_high : ({ Config.exampleProfile with shadowAddrAddr := 0x04FE } : Config).wf = false := by decide
theorem smoke_shadowVal_low : ({ Config.exampleProfile with shadowValAddr := 0x0010 } : Config).wf = false := by decide
theorem smoke_offsets : ({ Config.exampleProfile with shadowValAddr := 0x03FE } : Config).wf = false := by decide
theorem smoke_retry : ({ Config.exampleProfile with retryBound := 256 } : Config).wf = false := by decide
theorem smoke_bulk_zero : ({ Config.exampleProfile with maxBulk := 0 } : Config).wf = false := by decide
theorem smoke_bulk_wide : ({ Config.exampleProfile with maxBulk := 65536 } : Config).wf = false := by decide
theorem smoke_acc_wide : ({ Config.exampleProfile with maxAccBits := 65536 } : Config).wf = false := by decide

theorem smoke_rdreg : Instr.wellFormed Config.exampleProfile (.rdreg 0x0400) = false := by decide
theorem smoke_wrreg_high : Instr.wellFormed Config.exampleProfile (.wrreg 0x8000 1) = false := by decide
theorem smoke_wrreg_protocol : Instr.wellFormed Config.exampleProfile (.wrreg 0x03FE 1) = false := by decide
theorem smoke_wrbulk : Instr.wellFormed Config.exampleProfile (.wrbulk 17) = false := by decide
theorem smoke_fifowr_none : Instr.wellFormed Config.exampleProfile (.fifowr 0) = false := by decide
theorem smoke_fifowr_long : Instr.wellFormed Config.exampleProfile (.fifowr 257) = false := by decide
theorem smoke_fifordall : Instr.wellFormed Config.exampleProfile (.fifordall 257) = false := by decide
theorem smoke_legal : ([.rdreg 0x00FF, .wrreg 0x03B0 1, .wrbulk 16, .fifowr 1, .fifowr 256, .fifordall 256] : List Instr).all
    (Instr.wellFormed Config.exampleProfile) = true := by decide

/-! ## Decoding: each constructor by a word or frame written out (R83, R88-R90) -/

theorem test_decode_rdreg : decode 0x10000112 = .ok (.rdreg 0x0112) := by decide
theorem test_decode_wrreg : decode 0x205A0112 = .ok (.wrreg 0x0112 0x5A) := by decide
theorem test_decode_wrbulk : decode 0x30000003 = .ok (.wrbulk 3) := by decide
theorem test_decode_fifowr : decode 0b0100000000000000000000_0100000000 = .ok (.fifowr 256) := by decide
theorem test_decode_fiford : decode 0x50000000 = .ok .fiford := by decide
theorem test_decode_fifordall : decode 0x60000040 = .ok (.fifordall 64) := by decide
theorem test_decode_pginv : decode 0x70000000 = .ok .pginv := by decide
theorem test_decode_zero : decode 0 = .error .illegalOpcode := by decide
theorem test_decode_opcode_first : decode 0x80000001 = .error .illegalOpcode := by decide
theorem test_decode_reserved : decode 0x40000200 = .error .reservedField := by decide
theorem test_decode_reserved_wrreg : decode 0x21000000 = .error .reservedField := by decide
theorem test_decode_reserved_pginv : decode 0x70000001 = .error .reservedField := by decide

theorem test_frame_regRead : decodeFrame Config.exampleProfile [0xC1, 0x12, 0x00] = .ok (.regRead 0x12, [], []) := by decide
theorem test_frame_regWrite : decodeFrame Config.exampleProfile [0xC2, 0x12, 0x5A, 0xC1] =
    .ok (.regWrite 0x12 0x5A, [], [0xC1]) := by decide
theorem test_frame_fifoWrite : decodeFrame Config.exampleProfile [0xC3, 0x08, 0xA5, 0x01] =
    .ok (.fifoWrite 0x08, [0xA5, 0x01], []) := by decide
theorem test_frame_fifoRead : decodeFrame Config.exampleProfile [0xC4, 0, 0, 0, 0, 0] = .ok (.fifoRead, [], []) := by decide
theorem test_frame_unknown : decodeFrame Config.exampleProfile [0x00, 0, 0] = .error .noCommandByte := by decide
theorem test_frame_short : decodeFrame Config.exampleProfile [0xC3, 0x08, 0xA5] = .error .truncated := by decide
theorem test_table_word : decodeTableWord 32 0x205A0112 = some (.wrreg 0x0112 0x5A) := by decide
theorem test_table_frame : decodeTableWord 8 0xC2 = some (.regWrite 0 0) := by decide

/-! ## One step of each instruction -/

/-- R137: the response word of the rule's example. -/
theorem test_rdreg_responds : lastEvent (exec (.rdreg 0x00B0)
    (between { at' (.rdreg 0x00B0) .closed [] with ok := true, rx := [0, 0, 0x7E] })) =
      some (.resp .fg 0x0000000000007E00) := by decide

/-- R135: with the cache INVALID the first byte sent is CMD_WRITE, of the page-select write. -/
theorem test_rdreg_switches : lastEvent (exec (.rdreg 0x0112) (busy (at' (.rdreg 0x0112) .opened []))) =
    some (.xchg 0xC2 0 .msb .fg) := by decide

/-- R138: FAIL when the last attempt did not verify, here at attempt 2 of RETRY_BOUND 2. -/
theorem test_wrreg_gives_up : lastEvent (exec (.wrreg 0x00B0 0x42) (busy { at' (.wrreg 0x00B0 0x42)
    (.frame (.regRead 0xFD) (.verify .target .value)) [] with attempt := 2, shadowA := 0xB0, rx := [0, 0, 0x41] })) =
      some (.csDeassert .fg) := by decide

/-- R134: a mismatch at attempt 1 is retried with the full write. -/
theorem test_wrreg_retries : lastEvent (exec (.wrreg 0x00B0 0x42) (busy { at' (.wrreg 0x00B0 0x42)
    (.frame (.regRead 0xFD) (.verify .target .value)) [] with attempt := 1, shadowA := 0xB1, rx := [0, 0, 0x42] })) =
      some (.xchg 0xC2 0 .msb .fg) := by decide

/-- V-S8c: FAIL with one entry applied. -/
theorem test_wrbulk_fails : lastEvent (exec (.wrbulk 3) (between { at' (.wrbulk 3) .closed [] with index := 1 })) =
    some (.resp .fg 0x0000000000010001) := by decide

/-- R93, R139: the first bad entry decides, before any bus access. -/
theorem test_wrbulk_protected : exec (.wrbulk 2) { State.reset with eb := [(0, ⟨0x00A1, 1⟩), (1, ⟨0x01FF, 2⟩)] } =
    .next { State.reset with
      eb := [(0, ⟨0x00A1, 1⟩), (1, ⟨0x01FF, 2⟩)], fault := .protectedTarget,
      faultInfo := ⟨0x30000002, .fg, some 1, none⟩, history := [.fault .protectedTarget] } := by rfl

/-- R162: `fifowr 257` is out of range. -/
theorem test_fifowr_range : faultOf (exec (.fifowr 257) State.reset) = some .operandRange := by decide

/-- R162: FIFOWR responds OK. -/
theorem test_fifowr_responds : lastEvent (exec (.fifowr 9) (between (at' (.fifowr 9) .closed []))) =
    some (.resp .fg 0) := by decide

/-- R166: the response word of the rule's example. -/
theorem test_fiford_responds : lastEvent (exec .fiford
    (between { at' .fiford .closed [] with rx := [0, 0xCD, 0xAB, 0x00, 0x00, 0x10] })) =
      some (.resp .fg 0x0000ABCD00100000) := by decide

/-- R167: a count of 33 with bit 7 clear faults; with bit 7 set it is OVERFLOW. -/
theorem test_fiford_count : faultOf (exec .fiford (busy { at' .fiford (.frame .fifoRead .fifo) [] with
    rx := [0, 1, 0, 0, 0, 0x21] })) = some .fifoCountRange ∧
    lastEvent (exec .fiford (between { at' .fiford .closed [] with rx := [0, 1, 0, 0, 0, 0xA1] })) =
      some (.resp .fg 2) := by decide

/-- R170: the frame (0x1, 1 bit) after 2 accumulated bits 0b11 makes 0b111. -/
theorem test_fifordall_appends : (match exec (.fifordall 64) { (between { at' (.fifordall 64) .closed [] with
      total := 2, rx := [0, 1, 0, 0, 0, 1] }) with ab := [(0, true), (1, true)] } with
    | .next t => some (readBits t 0 3)
    | .fault _ => none
    | .refused _ => none) = some 0b111 := by decide

/-- R58: bits of AB that a FIFORDALL did not write are some bits, and those it wrote stay beside them in one byte. -/
theorem test_ab_byte : abByte State.reset 0 ≠ none ∧ abByte State.reset 32 = none ∧
    (abByte { State.reset with ab := (List.range 8).map (fun k => (k, k == 0)) } 0) = some 1 := by
  refine ⟨by simp [abByte, State.reset, State.resetWith, Config.exampleProfile, ceilBytes], by decide, by decide⟩

/-- R169: a frame that does not fit ends with BUFFER_TOO_SMALL and the bits accumulated before it. -/
theorem test_fifordall_small : lastEvent (exec (.fifordall 32) (between { at' (.fifordall 32) .closed [] with
    total := 32, rx := [0, 1, 0, 0, 0, 1] })) = some (.resp .fg 0x0000000000200003) := by decide

/-- R140: PGINV in one step. -/
theorem test_pginv : exec .pginv (between (at' .pginv .accepted [])) =
    .next { State.reset with pageCache := .invalid, history := [.pginv .fg, .resp .fg 0] } := by rfl

/-- R131: the last exchange of a REG_READ frame sends DUMMY_BYTE MSB-first. -/
theorem test_regRead : lastEvent (exec (.regRead 0xB0) ((busy { at' (.rdreg 0x00B0) (.frame (.regRead 0xB0) .read)
    [.xchg (.byte 0)] with rx := [0, 0] }).receive 0x7E)) = some (.xchg 0x00 0x7E .msb .fg) := by decide

/-- R132: the second exchange of a REG_WRITE frame sends the offset. -/
theorem test_regWrite : lastEvent (exec (.regWrite 0x12 0x5A) (busy { at' (.wrreg 0x0112 0x5A)
    (.frame (.regWrite 0x12 0x5A) (.verify .target .write)) [.xchg (.byte 0x12), .xchg (.byte 0x5A)] with rx := [0] })) =
      some (.xchg 0x12 0 .msb .fg) := by decide

/-- R161: a payload byte of PB goes LSB-first. -/
theorem test_fifoWrite : lastEvent (exec (.fifoWrite 8) { (busy { at' (.fifowr 9) (.frame (.fifoWrite 8) .fifo)
    [.xchg (.payload 1), .order .msb] with rx := [0, 0, 0] }) with bitOrder := .lsb, pb := [(0, 0xA5), (1, 0x01)] }) =
      some (.xchg 0x01 0 .lsb .fg) := by decide

/-- R165: the order is MSB again before the status exchange. -/
theorem test_fifoRead : lastEvent (exec .fifoRead { (busy { at' .fiford (.frame .fifoRead .fifo)
    [.order .msb, .xchg (.byte 0)] with rx := [0, 0xCD, 0xAB, 0, 0] }) with bitOrder := .lsb }) =
      some (.order .msb .fg) := by decide

/-! ## The moves and the reference device -/

/-- A frame placed for the host is the next thing sent. -/
theorem test_placed_frame : lastEvent (step (State.reset.withFetchWord 8 0xC4)) = some (.xchg 0xC4 0 .msb .fg) := by decide

/-- A command word placed for the host is accepted. -/
theorem test_placed_word : step (State.reset.withFetchWord 32 0x70000000) =
    .next { State.reset with fgSlot := some (freshCommand 0x70000000) } := by rfl

/-- R199, R220: an edge while masked stays latched and enters nothing. -/
theorem test_masked_edge : step { (busy (at' (.rdreg 0) .opened [])) with irqPending := true, script := [.isrEnter] } =
    .next { (busy (at' (.rdreg 0) .opened [])) with irqPending := true } := by rfl

/-- I9: a client's write to PB taints the FIFOWR in flight. -/
theorem test_taint : (match step { (busy (at' (.fifowr 8) .opened [])) with script := [.writePB .fg 0 0xFF] } with
    | .next t => t.fgSlot.map (·.tainted)
    | .fault _ => none
    | .refused _ => none) = some true := by decide

/-- R74: the reference device answers the shadows of the last write it took, and keeps what it took on the selected page. -/
theorem test_device_write : (let d := refWrite Config.exampleProfile (refPowerOn []) 0x12 0x5A
    (refRead Config.exampleProfile d 0xFE, refRead Config.exampleProfile d 0xFD, refRead Config.exampleProfile d 0x12)) =
      (0x12, 0x5A, 0x5A) := by decide

/-- R73: an empty queue answers a FIFO_READ with zeros. -/
theorem test_device_empty : (refExchange Config.exampleProfile 0 .msb { refPowerOn [] with parser := .fifoAnswer 4 }).1 = 0 := by
  decide

/-! ## Invariants at concrete states -/

/-- The coming moves are no part of the invariant. -/
theorem inv_setScript {s : State} (h : s.Inv) (moves : List Move) : (s.setScript moves).Inv :=
  ⟨h.fgLegal, h.isrLegal, h.isrRuns, h.fgMasks, h.lockFlag, h.fields, h.bracketed⟩

/-- The invariant with one foreground command in flight. -/
theorem inv_fg {s : State} {c : InFlight} (hs : s.fgSlot = some c) (hn : s.isrSlot = none) (hl : c.legal s.cfg .fg)
    (hm : s.irqMasked = true ∧ s.isrActive = false ∨ c.holdsMask = false) (hk : s.lockHeld = s.lockOwner.isSome)
    (hf : s.bracket = if (slotBracket s.cfg .fg s.fgSlot).owner.isSome then slotBracket s.cfg .fg s.fgSlot
      else slotBracket s.cfg .isr s.isrSlot) (hb : bracketOf s.history = some s.bracket) : s.Inv where
  fgLegal := by intro d hd; rw [hs] at hd; cases hd; exact hl
  isrLegal := by intro d hd; rw [hn] at hd; cases hd
  isrRuns := fun h => absurd hn h
  fgMasks := by
    intro d hd hh
    rw [hs] at hd
    cases hd
    rcases hm with hm | hm
    · exact hm
    · rw [hm] at hh; cases hh
  lockFlag := hk
  fields := hf
  bracketed := hb

theorem reset_inv : State.reset.Inv where
  fgLegal := by intro c h; cases h
  isrLegal := by intro c h; cases h
  isrRuns := by intro h; exact absurd rfl h
  fgMasks := by intro c h; cases h
  lockFlag := rfl
  fields := rfl
  bracketed := rfl

/-- A foreground RDREG of a mirrored register, its command byte sent. -/
def midRead : State :=
  { busy { at' (.rdreg 0x00B0) (.frame (.regRead 0xB0) .read) [.xchg (.byte 0xB0), .xchg (.byte 0)] with rx := [0] } with
    history := [.mask, .lockAcq .fg, .csAssert .fg, .xchg 0xC1 0 .msb .fg] }

theorem midRead_inv : midRead.Inv :=
  inv_fg rfl rfl ⟨.rdreg 0x00B0, rfl, rfl, ⟨rfl, ⟨[.xchg (.byte 0xC1)], rfl⟩, rfl, nofun⟩, Nat.zero_le _, nofun, nofun⟩
    (.inl ⟨rfl, rfl⟩) rfl rfl rfl

theorem midRead_pageKept : midRead.pageKept := by
  intro x c i f role a hs hd hp ha hr hm
  cases x
  · cases hs
    cases hd
    cases ha
    exact absurd hm (by decide)
  · cases hs

/-- A foreground FIFOWR whose LOCK_ACQ is next. -/
def midOpen : State :=
  { State.reset with
    fgSlot := some (at' (.fifowr 9) .opened [.lockAcq, .csAssert]), irqMasked := true, history := [.mask] }

theorem midOpen_inv : midOpen.Inv :=
  inv_fg rfl rfl ⟨.fifowr 9, rfl, rfl, ⟨by decide, ⟨[.mask], rfl⟩⟩, Nat.zero_le _, nofun, nofun⟩
    (.inl ⟨rfl, rfl⟩) rfl rfl rfl

/-- A foreground FIFORD whose transaction has just opened. -/
def midBody : State := { busy (at' .fiford .opened []) with history := [.mask, .lockAcq .fg, .csAssert .fg] }

theorem midBody_inv : midBody.Inv :=
  inv_fg rfl rfl ⟨.fiford, rfl, rfl, ⟨by decide, List.nil_suffix⟩, Nat.zero_le _, nofun, nofun⟩ (.inl ⟨rfl, rfl⟩) rfl rfl rfl

/-- A foreground PGINV accepted, the cache on page 2. -/
def midPginv : State := { between (at' .pginv .accepted []) with pageCache := .page 2 }

theorem midPginv_inv : midPginv.Inv :=
  inv_fg rfl rfl ⟨.pginv, rfl, rfl, rfl, Nat.zero_le _, nofun, nofun⟩ (.inr rfl) rfl rfl rfl

/-- A foreground RDREG of a paged register in its read frame, the cache on that page. -/
def midPaged : State :=
  { busy { at' (.rdreg 0x0112) (.frame (.regRead 0x12) .read) [.xchg (.byte 0x12), .xchg (.byte 0)] with rx := [0] } with
    pageCache := .page 1, history := [.mask, .lockAcq .fg, .csAssert .fg, .xchg 0xC1 0 .msb .fg],
    script := [.engine .fg 0x33] }

theorem midPaged_inv : midPaged.Inv :=
  inv_fg rfl rfl ⟨.rdreg 0x0112, rfl, rfl, ⟨rfl, ⟨[.xchg (.byte 0xC1)], rfl⟩, rfl, nofun⟩, Nat.zero_le _, nofun, nofun⟩
    (.inl ⟨rfl, rfl⟩) rfl rfl rfl

theorem midPaged_pageKept : midPaged.pageKept := by
  intro x c i f role a hs hd hp ha hr hm
  cases x
  · cases hs
    cases hd
    cases ha
    rfl
  · cases hs

/-- A foreground FIFOWR between its payload byte and its status of the order: the transport is LSB-first. -/
def midFifo : State :=
  { busy { at' (.fifowr 8) (.frame (.fifoWrite 7) .fifo) [.xchg (.payload 0), .order .msb] with rx := [0, 0] } with
    bitOrder := .lsb, pb := [(0, 0xA5)],
    history := [.mask, .lockAcq .fg, .csAssert .fg, .xchg 0xC3 0 .msb .fg, .xchg 7 0 .msb .fg, .order .lsb .fg] }

theorem midFifo_inv : midFifo.Inv :=
  inv_fg rfl rfl ⟨.fifowr 8, rfl, rfl, ⟨rfl, ⟨[.xchg (.byte 0xC3), .xchg (.byte 7), .order .lsb], rfl⟩, rfl, nofun⟩,
    Nat.zero_le _, nofun, nofun⟩ (.inl ⟨rfl, rfl⟩) rfl rfl rfl

/-- A foreground FIFORD waiting to begin while the interrupt context's WRREG of a protocol-free mirrored register holds the lock,
on its last allowed attempt. -/
def bothBusy : State :=
  { State.reset with
    isrActive := true, lockHeld := true, lockOwner := some .isr, csAsserted := true,
    fgSlot := some (at' .fiford .accepted []),
    isrSlot := some { at' (.wrreg 0x00B0 0x42) (.frame (.regRead 0xFD) (.verify .target .value))
      [.xchg (.byte 0)] with rx := [0, 0], attempt := 2, shadowA := 0xB0 },
    history := [.isrEnter, .lockAcq .isr, .csAssert .isr] }

theorem bothBusy_inv : bothBusy.Inv where
  fgLegal := by
    intro c h
    cases h
    exact ⟨.fiford, rfl, rfl, rfl, Nat.zero_le _, nofun, nofun⟩
  isrLegal := by
    intro c h
    cases h
    exact ⟨.wrreg 0x00B0 0x42, rfl, rfl, ⟨rfl, ⟨[.xchg (.byte 0xC1), .xchg (.byte 0xFD)], rfl⟩, rfl, nofun⟩,
      by decide, nofun, nofun⟩
  isrRuns := fun _ => rfl
  fgMasks := by intro c h hm; cases h; cases hm
  lockFlag := rfl
  fields := rfl
  bracketed := rfl

/-! ## Witnesses: concrete states and operands that meet the hypotheses of each statement -/

/-- The next state, where there is one. -/
def stateOf : Result → Option State
  | .next t => some t
  | .fault _ => none
  | .refused _ => none

/-- `CommandsDecodeFromTheirWords`: a command of each shape, its operands at their largest. -/
theorem witness_commands : ([.rdreg 0xFFFF, .wrreg 0xFFFF 0xFF, .wrbulk 0xFFFF, .fifowr 511, .fiford, .fifordall 0xFFFF, .pginv] :
    List Instr).all (fun i => i.isCommand) = true := by decide

/-- `DecodedWordIsItsEncoding`. -/
theorem witness_decoded : decode 0x1000FFFF = .ok (.rdreg 0xFFFF) ∧ decode 0x400001FF = .ok (.fifowr 511) := ⟨rfl, rfl⟩

/-- `FramesDecodeFromTheirBytes`: each frame, FIFO_WRITE at both ends of its length. -/
theorem witness_frames : Config.exampleProfile.wf = true ∧
    (∀ i ∈ [Instr.regRead 0xFF, .regWrite 0xFF 0xFF, .fifoRead], i.isCommand = false ∧ ([] : List Byte).length + 2 =
      (match i with | .fifoWrite len => 2 + (len.toNat + 8) / 8 | _ => 2)) ∧
    (∀ lenn ∈ [0, 255],
      let len : Byte := BitVec.ofNat 8 lenn
      (Instr.fifoWrite len).isCommand = false ∧
      (List.replicate ((len.toNat + 8) / 8) (0 : Byte)).length + 2 = 2 + (len.toNat + 8) / 8) := by decide

/-- `FrameLengthIsDecidedByItsBytes`. -/
theorem witness_frameLength : decodeFrame Config.exampleProfile [0xC3, 0x00, 0xA5, 0x77] = .ok (.fifoWrite 0, [0xA5], [0x77]) := by
  decide

/-- `ConfigurationCheck`: a state whose configuration is ill-formed. -/
theorem witness_badConfig : (State.resetWith { Config.exampleProfile with maxBulk := 0 }).cfg.wf = false := by decide

/-- `ResetValues`. -/
theorem witness_reset : State.reset = State.resetWith Config.exampleProfile := rfl

/-- `StepKeepsTheInvariant`: an exchange, an edge that latches, an entry, an issue. -/
theorem witness_stepInv : (midPaged.Inv ∧ (stateOf (step midPaged)).isSome = true) ∧
    (∀ m ∈ [Move.edge .rising, .isrEnter, .issue .fg 0x10000112, .issue .fg 0], (State.reset.setScript [m]).Inv ∧
      (stateOf (step (State.reset.setScript [m]))).isSome = true) ∧
    bothBusy.Inv ∧ (stateOf (step (bothBusy.setScript [.engine .isr 0x42]))).isSome = true :=
  ⟨⟨midPaged_inv, rfl⟩,
    by
      intro m hm
      refine ⟨inv_setScript reset_inv _, ?_⟩
      revert m
      decide,
    bothBusy_inv, rfl⟩

/-- `StepKeepsThePage`. -/
theorem witness_stepPage : midPaged.Inv ∧ midPaged.pageKept ∧ (stateOf (step midPaged)).isSome = true :=
  ⟨midPaged_inv, midPaged_pageKept, rfl⟩

/-- `StepKeepsBuffersCanonical`: a client's write between two cells. -/
theorem witness_stepMemory : (let s := { State.reset with pb := [(0, 1), (31, 2)], script := [.writePB .fg 5 9] }
    s.memoryWf = true ∧ (stateOf (step s)).isSome = true) := by decide

/-- `HistoryOnlyGrows`. -/
theorem witness_history : (stateOf (step midPaged)).isSome = true := by decide

/-- `StepIsNeverOutOfPlace`. -/
theorem witness_inPlace : bothBusy.Inv ∧ midRead.Inv ∧ midOpen.Inv := ⟨bothBusy_inv, midRead_inv, midOpen_inv⟩

/-- `TransactionsNeverOverlap`: no owner; both slots filled; an exchange next; a LOCK_ACQ next; a block's end outside a transaction and
inside one; a step that takes an exchange; a slot's own move; a slot on its last retry. -/
theorem witness_overlap : (State.reset.Inv ∧ State.reset.lockOwner = none) ∧
    (bothBusy.Inv ∧ bothBusy.fgSlot.isSome = true ∧ bothBusy.isrSlot.isSome = true) ∧
    ((bothBusy.slot bothBusy.ctx).map (·.todo) = some [.xchg (.byte 0)]) ∧
    (midOpen.Inv ∧ (midOpen.slot midOpen.ctx).map (·.todo) = some [.lockAcq, .csAssert]) ∧
    (midPginv.Inv ∧ (midPginv.slot midPginv.ctx).map (fun c => (c.point, c.todo)) = some (.accepted, [])) ∧
    (midBody.Inv ∧ (midBody.slot midBody.ctx).map (fun c => (c.point, c.todo)) = some (.opened, [])) ∧
    (midPaged.Inv ∧ midPaged.script = .engine .fg 0x33 :: [] ∧
      (stateOf (step midPaged)).map (fun t => t.history.drop midPaged.history.length) = some [.xchg 0x12 0x33 .msb .fg]) ∧
    ((bothBusy.slot .isr).map (·.attempt) = some 2) :=
  ⟨⟨reset_inv, rfl⟩, ⟨bothBusy_inv, rfl, rfl⟩, rfl, ⟨midOpen_inv, rfl⟩, ⟨midPginv_inv, rfl⟩, ⟨midBody_inv, rfl⟩,
    ⟨midPaged_inv, rfl, rfl⟩, rfl⟩

/-- `IssuedWordRunsItsCommand`: in each context. -/
theorem witness_issue : ∀ s ∈ [State.reset, inIsr], let s := s.setScript [.issue s.ctx 0x70000000]
    s.cfg.wf = true ∧ s.script = .issue s.ctx 0x70000000 :: [] ∧ s.fault = .noFault ∧ s.slot s.ctx = none ∧
      (decode 0x70000000).toOption = some .pginv := by decide

/-- `SlotStepRunsItsInstruction`: inside a frame, and at a block's end. -/
theorem witness_slotStep : (let c := { at' (.rdreg 0x0112) (.frame (.regRead 0x12) .read)
        [.xchg (.byte 0x12), .xchg (.byte 0)] with rx := [0] }
    midPaged.cfg.wf = true ∧ midPaged.script = .engine midPaged.ctx 0x33 :: [] ∧ midPaged.fault = .noFault ∧
      midPaged.slot midPaged.ctx = some c ∧ c.todo ≠ [] ∧ c.frameInstr = some (.regRead 0x12)) ∧
    (let c := at' (.fifowr 9) .opened [.lockAcq, .csAssert]
    let s := midOpen.setScript [.engine .fg 0]
    s.cfg.wf = true ∧ s.script = .engine s.ctx 0 :: [] ∧ s.fault = .noFault ∧ s.slot s.ctx = some c ∧ c.frameInstr = none ∧
      (decode c.word).toOption = some (.fifowr 9)) ∧
    (let c := at' (.fifowr 9) (.frame (.fifoWrite 8) .fifo) []
    c.todo = [] ∧ (decode c.word).toOption = some (.fifowr 9)) := by decide

/-- `HaltedEngineLatchesEdgesOnly`, for an edge, an edge of the other direction and a slot's step. -/
theorem witness_halted : ∀ m ∈ [Move.edge .rising, .edge .falling, .engine .fg 0], let s :=
      { State.reset with fault := .operandRange, script := [m] }
    s.cfg.wf = true ∧ s.fault ≠ .noFault ∧ s.script = m :: [] := by decide

/-- `EdgeLatches`: with nothing pending, and with an edge pending. -/
theorem witness_edge : ∀ b ∈ [false, true], let s := { State.reset with irqPending := b, script := [.edge .rising] }
    s.cfg.wf = true ∧ s.script = .edge s.cfg.edge :: [] ∧ s.irqPending = b := by decide

/-- `InterruptEntry`: enabled; each condition missing; a foreground transaction with an edge pending. -/
theorem witness_entry : (let s := { State.reset with irqPending := true, script := [.isrEnter] }
    s.cfg.wf = true ∧ s.script = .isrEnter :: [] ∧ s.irqPending = true ∧ s.irqMasked = false ∧ s.isrActive = false ∧
      s.fault = .noFault) ∧
    (∀ s ∈ [State.reset, { State.reset with irqPending := true, irqMasked := true }, { inIsr with irqPending := true },
        { State.reset with irqPending := true, fault := .lockReentry }],
      ¬(s.irqPending = true ∧ s.irqMasked = false ∧ s.isrActive = false ∧ s.fault = .noFault)) ∧
    (midRead.setScript [.isrEnter]).Inv ∧ midRead.fgSlot.map (·.holdsLock) = some true :=
  ⟨by decide, by decide, inv_setScript midRead_inv _, rfl⟩

/-- `InterruptExit`: enabled; each condition missing. -/
theorem witness_exit : (let s := inIsr.setScript [.isrExit]
    s.cfg.wf = true ∧ s.script = .isrExit :: [] ∧ s.isrActive = true ∧ s.isrSlot = none ∧ s.fault = .noFault) ∧
    ∀ s ∈ [State.reset, bothBusy, { inIsr with fault := .operandRange }],
      ¬(s.isrActive = true ∧ s.isrSlot = none ∧ s.fault = .noFault) := by decide

/-- `PreemptedContextDoesNothing`: the foreground while the interrupt context runs, and the other way round. -/
theorem witness_preempted : (∀ m ∈ [Move.engine .fg 0, .issue .fg 0, .writeEB .fg 0 ⟨0, 0⟩, .writePB .fg 0 0],
      bothBusy.cfg.wf = true ∧ Ctx.fg ≠ bothBusy.ctx ∧ (bothBusy.setScript [m]).script = m :: []) ∧
    State.reset.cfg.wf = true ∧ Ctx.isr ≠ State.reset.ctx ∧
    (State.reset.setScript [.issue .isr 0x70000000]).script = .issue .isr 0x70000000 :: [] := by decide

/-- `RejectedWordFaults`: the first illegal opcode above the legal ones, and the lowest reserved bit of FIFOWR. -/
theorem witness_rejected : ∀ wn ∈ [0x80000000, 0x40000200],
      let w : CommandWord := BitVec.ofNat 32 wn
      let s := State.reset.setScript [.issue .fg w]
    s.cfg.wf = true ∧ s.script = .issue s.ctx w :: [] ∧ s.fault = .noFault ∧ s.slot s.ctx = none ∧
      (w = 0x80000000 → (match decode w with | .error r => some r | .ok _ => none) = some .illegalOpcode) ∧
      (w = 0x40000200 → (match decode w with | .error r => some r | .ok _ => none) = some .reservedField) := by decide

/-- `ReentryFaultsOrIsRefused`: an occupied port, a LOCK_ACQ on a set flag inside an opening, as the first step of an interrupt-context
transaction, and as the first step of a FIFORDALL's next one, with and without the check. -/
theorem witness_reentry : ∀ b ∈ [true, false], let cfg := { Config.exampleProfile with debugLockCheck := b }
    (let s := { midRead with cfg := cfg, script := [.issue .fg 0] }
    s.cfg.wf = true ∧ s.script = .issue s.ctx 0 :: [] ∧ s.fault = .noFault ∧ (s.slot s.ctx).isSome = true ∧
      s.cfg.debugLockCheck = b) ∧
    (let s := { midOpen with cfg := cfg, lockHeld := true }
    (Instr.fifowr 9).isCommand = true ∧ s.runs (.fifowr 9) (at' (.fifowr 9) .opened [.lockAcq, .csAssert]) ∧
      (at' (.fifowr 9) .opened [.lockAcq, .csAssert]).todo = .lockAcq :: [.csAssert] ∧ s.lockHeld = true) ∧
    (let s := { inIsr with cfg := cfg, lockHeld := true, isrSlot := some (at' .fiford .accepted []) }
    s.runs .fiford (at' .fiford .accepted []) ∧ s.lockHeld = true ∧ s.ctx = .isr) ∧
    (let c := { at' (.fifordall 32) .closed [] with rx := [0, 1, 2, 3, 4, 0x20] }
    let s := { inIsr with cfg := cfg, lockHeld := true, isrSlot := some c }
    s.runs (.fifordall 32) c ∧ s.ctx = .isr ∧ frameAnswer c = .frame 0x04030201 32 ∧ 0 < 32 ∧
      c.total + 32 ≤ (32 : BitVec 16).toNat) := by decide

/-- `OperandFaultsAtAcceptance`: the least operand outside each range. -/
theorem witness_operands : State.reset.idle ∧ inIsr.idle ∧ 2 ^ 10 ≤ (0x0400 : RegAddr).toNat ∧
    State.reset.cfg.maxBulk < (17 : BitVec 16).toNat ∧ (0 : BitVec 9).toNat = 0 ∧ 256 < (257 : BitVec 9).toNat ∧
    State.reset.cfg.maxAccBits < (257 : BitVec 16).toNat := by decide

/-- EB with a legal entry, then one with the given address. -/
def twoEntries (a : RegAddr) : State := { State.reset with eb := [(0, ⟨0x00A1, 1⟩), (1, ⟨a, 2⟩)] }

/-- `ProtectedTargetsFault`: each protocol register on page 3, as WRBULK's second entry too. -/
theorem witness_protected : ∀ an ∈ [0x03FF, 0x03FE, 0x03FD],
      let a : RegAddr := BitVec.ofNat 16 an
      let s := twoEntries a
    s.idle ∧ a.toNat < 2 ^ 10 ∧ (offsetOf a = offsetOf s.cfg.pageSelAddr ∨ offsetOf a = offsetOf s.cfg.shadowAddrAddr ∨
      offsetOf a = offsetOf s.cfg.shadowValAddr) ∧
    (2 : BitVec 16).toNat ≤ s.cfg.maxBulk ∧ 1 < (2 : BitVec 16).toNat ∧ (readEntry s 1).addr = a ∧
    ∀ k, k < 1 → writeTargetFault s.cfg (readEntry s k).addr = none := by decide

/-- `BulkEntriesAreCheckedInOrder`: reserved bits, and a protected offset, each after a legal entry. -/
theorem witness_bulk : ∀ an ∈ [0x0400, 0x01FF],
      let a : RegAddr := BitVec.ofNat 16 an
      let s := twoEntries a
    s.idle ∧ (2 : BitVec 16).toNat ≤ s.cfg.maxBulk ∧ 1 < (2 : BitVec 16).toNat ∧
    (∀ k, k < 1 → writeTargetFault s.cfg (readEntry s k).addr = none) ∧
    (a = 0x0400 → 2 ^ 10 ≤ (readEntry s 1).addr.toNat) ∧
    (a = 0x01FF → (readEntry s 1).addr.toNat < 2 ^ 10 ∧ protocolOffset s.cfg (offsetOf (readEntry s 1).addr) = true) := by decide

/-- `LegalCommandIsAccepted`: each command at the ends of its ranges; a WRBULK of no entry and one of two. -/
theorem witness_accepted : (twoEntries 0x03A2).idle ∧
    (∀ i ∈ [Instr.rdreg 0x03FF, .wrreg 0x03FC 0, .wrbulk 0, .fifowr 1, .fifowr 256, .fiford, .fifordall 0, .fifordall 256, .pginv],
      i.isCommand = true ∧ i.wellFormed (twoEntries 0x03A2).cfg = true) ∧
    (Instr.wrbulk 2).wellFormed (twoEntries 0x03A2).cfg = true ∧
    ∀ k, k < (2 : BitVec 16).toNat → writeTargetFault (twoEntries 0x03A2).cfg (readEntry (twoEntries 0x03A2) k).addr = none := by
  decide

/-- `EachPrimitiveIsOneStep`: each primitive in a command, a payload byte changed in flight, one primitive in a wire frame. -/
theorem witness_primitives : (∀ p ∈ [Prim.mask, .unmask, .lockAcq, .lockRel, .csAssert, .csDeassert, .order .lsb,
      .xchg (.byte 0), .xchg (.payload 0)], ∀ b ∈ [false, true],
      let c := { at' (.fifowr 8) .opened [p] with tainted := b }
    (between c).executes (.fifowr 8) c ∧ c.todo = p :: [] ∧ (p = .lockAcq → (between c).lockHeld = false)) ∧
    (let c := at' (.rdreg 0x00B0) (.frame (.regRead 0xB0) .read) [.xchg (.byte 0)]
    (busy c).executes (.regRead 0xB0) c) := by decide

/-- `EachPrimitiveIsOneStep`, `TransactionBracket`, `RegisterFrames`, `FifoWriteFrame`, `FifoReadFrame`, `FifowrRun`,
`FifordRun`: a step that begins each kind of block: an opening (of a first and of a later transaction), each frame (FIFO_WRITE at both ends of its length), a closing. -/
theorem witness_begins :
    (∃ t d, (between (at' .fiford .accepted [])).begins .fiford (at' .fiford .accepted []) 7 t d ∧ d.point = .opened) ∧
    (let c := { at' (.fifordall 64) .closed [] with rx := [0, 1, 2, 3, 4, 0x20] }
    ∃ t d, (between c).begins (.fifordall 64) c 7 t d ∧ d.point = .opened) ∧
    (∃ t d, (busy (at' (.rdreg 0x03B0) .opened [])).begins (.rdreg 0x03B0) (at' (.rdreg 0x03B0) .opened []) 7 t d ∧
      d.point = .frame (.regRead 0xB0) .read ∧ d.rx = [7]) ∧
    (∃ t d, (busy (at' (.wrreg 0x03B0 1) .opened [])).begins (.wrreg 0x03B0 1) (at' (.wrreg 0x03B0 1) .opened []) 7 t d ∧
      d.point = .frame (.regWrite 0xB0 1) (.verify .target .write)) ∧
    (∃ t d, (busy (at' (.fifowr 1) .opened [])).begins (.fifowr 1) (at' (.fifowr 1) .opened []) 7 t d ∧
      d.point = .frame (.fifoWrite 0) .fifo) ∧
    (∃ t d, (busy (at' (.fifowr 256) .opened [])).begins (.fifowr 256) (at' (.fifowr 256) .opened []) 7 t d ∧
      d.point = .frame (.fifoWrite 255) .fifo) ∧
    (∃ t d, midBody.begins .fiford (at' .fiford .opened []) 7 t d ∧ d.point = .frame .fifoRead .fifo) ∧
    (let c := at' (.fifowr 1) (.frame (.fifoWrite 0) .fifo) []
    ∃ t d, (busy c).begins (.fifowr 1) c 7 t d ∧ d.point = .closed) :=
  ⟨⟨_, _, ⟨rfl, ⟨rfl, rfl, rfl⟩, rfl, rfl, rfl, rfl⟩, rfl⟩, ⟨_, _, ⟨rfl, ⟨rfl, rfl, rfl⟩, rfl, rfl, rfl, rfl⟩, rfl⟩,
    ⟨_, _, ⟨rfl, ⟨rfl, rfl, rfl⟩, rfl, rfl, rfl, rfl⟩, rfl, rfl⟩, ⟨_, _, ⟨rfl, ⟨rfl, rfl, rfl⟩, rfl, rfl, rfl, rfl⟩, rfl⟩,
    ⟨_, _, ⟨rfl, ⟨rfl, rfl, rfl⟩, rfl, rfl, rfl, rfl⟩, rfl⟩, ⟨_, _, ⟨rfl, ⟨rfl, rfl, rfl⟩, rfl, rfl, rfl, rfl⟩, rfl⟩,
    ⟨_, _, ⟨rfl, ⟨rfl, rfl, rfl⟩, rfl, rfl, rfl, rfl⟩, rfl⟩, ⟨_, _, ⟨rfl, ⟨rfl, rfl, rfl⟩, rfl, rfl, rfl, rfl⟩, rfl⟩⟩

/-- `WireFramesExchangeTheirBytes`: each frame at an exchange; FIFO_WRITE at a payload byte, changed in flight or not. -/
theorem witness_exchanges : (∀ f ∈ [Frame.regRead 1, .regWrite 1 2, .fifoWrite 7, .fifoRead],
      let c := at' .fiford (.frame f .fifo) [.xchg (.byte 9)]
    (busy c).fault = .noFault ∧ (busy c).slot (busy c).ctx = some c ∧ c.todo = .xchg (.byte 9) :: [] ∧
      c.point = .frame f .fifo) ∧
    (∀ b ∈ [false, true],
      let c := { at' (.fifowr 8) (.frame (.fifoWrite 7) .fifo) [.xchg (.payload 0), .order .msb] with tainted := b }
    (busy c).slot (busy c).ctx = some c ∧ c.todo = .xchg (.payload 0) :: [.order .msb] ∧ c.tainted = b) := by decide

/-- `TransactionBracket`: in each context and each chip-select mode, at the opening and at the closing. -/
theorem witness_transaction : ∀ s ∈ [State.reset, inIsr, perAccess, { perAccess with isrActive := true }],
    (let c := at' .fiford .accepted []
    let u := s.putSlot s.ctx (some c)
    u.runs .fiford c ∧ c.point = .accepted ∧ c.todo = [] ∧ u.lockHeld = false ∧
      (List.replicate (openEvents u.cfg u.ctx).length (0 : Byte)).length = (openEvents u.cfg u.ctx).length) ∧
    (let c := at' .fiford .closed (closePrims s.cfg s.ctx)
    (s.putSlot s.ctx (some c)).runs .fiford c ∧ Instr.fiford.isCommand = true ∧ Instr.fiford ≠ .pginv) := by decide

/-- `RegisterFrames`, `FifoWriteFrame` (1 and 256 bits) and `FifoReadFrame`: at the start of each frame, in each chip-select mode. -/
theorem witness_frameStarts : ∀ s ∈ [State.reset, perAccess],
    ∀ f ∈ [Frame.regRead 0xB0, .regWrite 0xB0 0x42, .fifoWrite 0, .fifoWrite 255, .fifoRead],
      let c := at' .fiford (.frame f .fifo) (framePrims s.cfg f)
      let u := { s with fgSlot := some c }
      u.startsFrame f .fifo c ∧ c.tainted = false ∧ u.bitOrder = .msb ∧
        (List.replicate (csSteps u.cfg) (0 : Byte)).length = csSteps u.cfg := by decide

/-- `FifoWriteFrame`: the length bytes of 1 and 256 bits, and the exchanges and orders those frames take. -/
theorem witness_fifoWriteLengths : (∀ nn ∈ [1, 256],
      let n : BitVec 9 := BitVec.ofNat 9 nn
      1 ≤ n.toNat ∧ n.toNat ≤ 256 ∧
        (List.replicate (4 + (n.toNat + 7) / 8) (0 : Byte)).length = 4 + (n.toNat + 7) / 8) ∧
    BitVec.ofNat 8 ((1 : BitVec 9).toNat - 1) = 0#8 ∧ BitVec.ofNat 8 ((256 : BitVec 9).toNat - 1) = 255#8 := by decide

/-- `PageCheckDecidesTheFirstFrame`: the lowest mirrored offset, the cached page, another page, the highest paged offset. -/
theorem witness_pageCheck : ∀ p ∈ [PageCache.invalid, .page 1],
    ∀ an ∈ [0x00A0, 0x0112, 0x009F],
      let a : RegAddr := BitVec.ofNat 16 an
      (let c := at' (.rdreg a) .opened []
      { busy c with pageCache := p }.runs (.rdreg a) c ∧ c.point = .opened ∧ c.todo = []) ∧
      (let c := at' (.wrreg a 7) .opened []
      { busy c with pageCache := p }.runs (.wrreg a 7) c) ∧
      (∀ b ∈ [false, true],
        let c := { at' (.wrbulk 1) .opened [] with tainted := b }
        let s := { busy c with pageCache := p, eb := [(0, ⟨a, 7⟩)] }
        s.runs (.wrbulk 1) c ∧ 0 < (1 : BitVec 16).toNat ∧ c.tainted = b ∧ readEntry s 0 = ⟨a, 7⟩) ∧
      (let c := at' (.wrbulk 0) .opened []
      (busy c).runs (.wrbulk 0) c ∧ (0 : BitVec 16).toNat = 0) := by decide

/-- `ReadBackFollowsEveryWrite`: each stage, of the target and of a page switch, one retry left. -/
theorem witness_readBack : ∀ st ∈ [Stage.write, .addr, .value],
    (let c := { at' (.wrreg 0x0112 0x5A) (.frame (.regWrite 0x12 0x5A) (.verify .target st)) [] with attempt := 1 }
    (busy c).runs (.wrreg 0x0112 0x5A) c ∧ (Instr.wrreg 0x0112 0x5A).isCommand = true ∧
      frameFor (busy c).cfg (.wrreg 0x0112 0x5A) c (.verify .target .write) = some (.regWrite 0x12 0x5A) ∧
      ¬(c.shadowA = 0x12 ∧ readAnswer c = 0x5A) ∧ c.attempt < (busy c).cfg.retryBound) ∧
    (let c := at' (.rdreg 0x0112) (.frame (.regRead 0xFE) (.verify .page st)) []
    (busy c).runs (.rdreg 0x0112) c ∧
      frameFor (busy c).cfg (.rdreg 0x0112) c (.verify .page .write) = some (.regWrite 0xFF 1)) := by decide

/-- `PageSwitchOutcome`: for each command, verified at the first attempt, and not verified at the last. -/
theorem witness_pageSwitch : (∀ i ∈ [Instr.rdreg 0x0112, .wrreg 0x0112 7, .wrbulk 1],
      (let c := { at' i (.frame (.regRead 0xFD) (.verify .page .value)) [] with
        cur := ⟨0x0112, 7⟩, shadowA := 0xFF, rx := [0, 0, 1] }
      (busy c).runs i c ∧ c.shadowA = offsetOf (busy c).cfg.pageSelAddr ∧
        readAnswer c = (pageOf 0x0112).zeroExtend 8 ∧ (0x0112 : RegAddr) = c.cur.addr) ∧
      (let c := { at' i (.frame (.regRead 0xFD) (.verify .page .value)) [] with
        cur := ⟨0x0112, 7⟩, shadowA := 0xFF, rx := [0, 0, 0], attempt := 2 }
      (busy c).runs i c ∧ ¬(c.shadowA = offsetOf (busy c).cfg.pageSelAddr ∧
        readAnswer c = (pageOf 0x0112).zeroExtend 8) ∧ (busy c).cfg.retryBound ≤ c.attempt)) := by decide

/-- `WrregTargetOutcome`: both shadows match; only one does, at the last attempt. -/
theorem witness_target : (let c := { at' (.wrreg 0x00B0 0x42) (.frame (.regRead 0xFD) (.verify .target .value)) [] with
      shadowA := 0xB0, rx := [0, 0, 0x42] }
    (busy c).runs (.wrreg 0x00B0 0x42) c ∧ c.shadowA = offsetOf 0x00B0 ∧ readAnswer c = 0x42) ∧
    (let c := { at' (.wrreg 0x00B0 0x42) (.frame (.regRead 0xFD) (.verify .target .value)) [] with
      shadowA := 0xB0, rx := [0, 0, 0x43], attempt := 2 }
    (busy c).runs (.wrreg 0x00B0 0x42) c ∧ (busy c).cfg.retryBound ≤ c.attempt ∧ readAnswer c ≠ 0x42) := by decide

/-- `BulkStopsAtTheFirstFailure`: verified with an entry left, verified at the last entry, failed. -/
theorem witness_bulkEnd : ∀ idx ∈ [0, 1], ∀ vn ∈ [0x42, 0x43],
      let v : Byte := BitVec.ofNat 8 vn
      let c := { at' (.wrbulk 2) (.frame (.regRead 0xFD) (.verify .target .value)) [] with
      shadowA := 0xB0, rx := [0, 0, v], attempt := 2, index := idx, cur := ⟨0x00B0, 0x42⟩ }
    let s := { busy c with eb := [(0, ⟨0x00B0, 0x42⟩), (1, ⟨0x00B1, 1⟩)] }
    s.runs (.wrbulk 2) c ∧ (v = 0x42 → c.shadowA = offsetOf c.cur.addr ∧ readAnswer c = c.cur.val) ∧
      (idx = 0 → c.index + 1 < (2 : BitVec 16).toNat) ∧ (idx = 1 → c.index + 1 = (2 : BitVec 16).toNat) ∧
      (v = 0x43 → ¬(c.shadowA = offsetOf c.cur.addr ∧ readAnswer c = c.cur.val) ∧ s.cfg.retryBound ≤ c.attempt) := by decide

/-- `RdregResponds`, `WriteCommandsRespond`, `WrbulkResponds`: closed, after a success and after a failure; RDREG at the end of its read. -/
theorem witness_responds : (∀ ok ∈ [true, false], ∀ i ∈ [Instr.rdreg 0x00B0, .wrreg 0x00B0 1, .fifowr 8, .wrbulk 2],
    let c := { at' i .closed [] with ok := ok, rx := [0, 0, 0x7E], index := bif ok then 2 else 1 }
    (between c).runs i c ∧ c.point = .closed ∧ c.todo = [] ∧ c.ok = ok ∧ c.rx = [0, 0, 0x7E]) ∧
    (let c := { at' (.rdreg 0x00B0) (.frame (.regRead 0xB0) .read) [] with rx := [0, 0, 0x7E] }
    (busy c).runs (.rdreg 0x00B0) c ∧ c.todo = [] ∧ c.point = .frame (.regRead 0xB0) .read) := by decide

/-- `FifordResponds` and `FifoCountAboveWordHalts`: the status bytes where the clauses meet. -/
theorem witness_fiford : ∀ stn ∈ [0x00, 0x20, 0x60, 0x80, 0xA1],
      let st : Byte := BitVec.ofNat 8 stn
      (let c := { at' .fiford .closed [] with rx := [0, 1, 2, 3, 4, st] }
    (between c).runs .fiford c ∧ c.rx = [0, 1, 2, 3, 4, st]) ∧ (128 ≤ st.toNat ∨ st.toNat < 128 ∧ st.toNat % 64 ≤ 32) := by decide

/-- `FifoCountAboveWordHalts`: the least and the greatest refused count, and the counts next to them. -/
theorem witness_count : ∀ i ∈ [Instr.fiford, .fifordall 64], ∀ stn ∈ [0x21, 0x3F, 0x20, 0x40, 0xA1],
      let st : Byte := BitVec.ofNat 8 stn
      let c := { at' i (.frame .fifoRead .fifo) [] with rx := [0, 1, 2, 3, 4, st] }
    (busy c).runs i c ∧ c.point = .frame .fifoRead .fifo ∧ c.todo = [] ∧
      ((st.toNat < 128 ∧ 32 < st.toNat % 64) ↔ (st = 0x21 ∨ st = 0x3F)) := by decide

/-- `FifordallEnds` and `FifordallAppends`: overflow; no bits; one bit too many; a frame that just fits. -/
theorem witness_fifordall : ∀ stn ∈ [0x80, 0x00, 0x21, 0x20],
      let st : Byte := BitVec.ofNat 8 stn
      let c := { at' (.fifordall 64) .closed [] with
      rx := [0, 1, 2, 3, 4, bif st == 0x21 then 0x20 else st], total := bif st == 0x21 then 33 else 32 }
    let s := { between c with ab := (List.range 33).map (fun k => (k, true)) }
    s.runs (.fifordall 64) c ∧ c.point = .closed ∧ c.todo = [] ∧ s.lockHeld = false ∧
      (st = 0x80 → 128 ≤ st.toNat) ∧ (st = 0x00 → st.toNat < 128 ∧ st.toNat % 64 = 0) ∧
      (st = 0x21 → (64 : BitVec 16).toNat < c.total + 32) ∧ (st = 0x20 → c.total + 32 ≤ (64 : BitVec 16).toNat) := by decide

/-- `PginvInvalidates`. -/
theorem witness_pginv : State.reset.idle ∧ inIsr.idle ∧ (at' .pginv .accepted []).word = encode .pginv ∧
    (at' .pginv .accepted []).point = .accepted ∧ (at' .pginv .accepted []).todo = [] := by decide

/-- `RdregRun`: a mirrored and a cached target, in the foreground and in the interrupt context, in each chip-select mode. -/
theorem witness_rdregRun : (0x03A0 : RegAddr).toNat < 2 ^ 10 ∧ mirrored 0x03A0 = true ∧
    ({ State.reset with pageCache := .page 1 } : State).pageCache = .page (pageOf 0x0112) ∧
    State.reset.foregroundIdle ∧ perAccess.foregroundIdle ∧
    (inIsr.fault = .noFault ∧ inIsr.isrActive = true ∧ inIsr.isrSlot = none ∧ inIsr.lockHeld = false ∧
      inIsr.bitOrder = .msb) := by decide

/-- `WrregFirstAttemptRun` and `WrregNeverVerifiedRun`: in each context and chip-select mode; every read-back matching, wrong in the value
only, wrong in the address only. -/
theorem witness_wrregRun : ∀ s ∈ [State.reset, inIsr, perAccess, { perAccess with isrActive := true }],
    s.ready ∧ writeTargetFault s.cfg 0x00B0 = none ∧ mirrored 0x00B0 = true ∧
    (let rxs := List.replicate (wrregSteps s 1) (0xB0 : Byte)
    rxs.length = wrregSteps s 1 ∧ shadowAnswer s rxs 0 1 = offsetOf 0x00B0 ∧ shadowAnswer s rxs 0 2 = 0xB0) ∧
    (let rxs := List.replicate (wrregSteps s (1 + s.cfg.retryBound)) (0xB0 : Byte)
    rxs.length = wrregSteps s (1 + s.cfg.retryBound) ∧ ∀ k, k < 1 + s.cfg.retryBound →
      ¬(shadowAnswer s rxs k 1 = offsetOf 0x00B0 ∧ shadowAnswer s rxs k 2 = 0x42)) ∧
    (let rxs := List.replicate (wrregSteps s (1 + s.cfg.retryBound)) (0x42 : Byte)
    rxs.length = wrregSteps s (1 + s.cfg.retryBound) ∧ ∀ k, k < 1 + s.cfg.retryBound →
      ¬(shadowAnswer s rxs k 1 = offsetOf 0x00B0 ∧ shadowAnswer s rxs k 2 = 0x42)) := by decide

/-- `FifowrRun`: the shortest and the longest frame, in each context and chip-select mode; at the end of the opening and of the frame. -/
theorem witness_fifowrRun : (∀ s ∈ [State.reset, inIsr, perAccess, { perAccess with isrActive := true }], s.ready ∧
      (List.replicate (1 + (openEvents s.cfg s.ctx).length + csSteps s.cfg) (0 : Byte)).length =
        1 + (openEvents s.cfg s.ctx).length + csSteps s.cfg ∧
      (List.replicate (csSteps s.cfg + (closeEvents s.cfg s.ctx).length + 1) (0 : Byte)).length =
        csSteps s.cfg + (closeEvents s.cfg s.ctx).length + 1) ∧
    (∀ nn ∈ [1, 256],
      let n : BitVec 9 := BitVec.ofNat 9 nn
      1 ≤ n.toNat ∧ n.toNat ≤ 256 ∧ (List.replicate (4 + (n.toNat + 7) / 8) (0 : Byte)).length = 4 + (n.toNat + 7) / 8) ∧
    ∀ b ∈ [true, false], ∀ pt ∈ [Point.opened, .frame (.fifoWrite 255) .fifo],
      let c := { at' (.fifowr 256) pt [] with tainted := b }
      (busy c).runs (.fifowr 256) c ∧ c.todo = [] ∧ c.point = pt := by decide

/-- `FifordRun`: each kind of answer at its bound (the runs' states and lengths are those of `witness_fifowrRun`); FIFORD and FIFORDALL
at the end of an opening. -/
theorem witness_fifordRun : (∀ s ∈ [State.reset, inIsr, perAccess, { perAccess with isrActive := true }], s.ready) ∧
    (∀ stn ∈ [0x80, 0x20, 0x00],
      let st : Byte := BitVec.ofNat 8 stn
      128 ≤ st.toNat ∨ st.toNat % 64 ≤ 32) ∧
    ∀ i ∈ [Instr.fiford, .fifordall 64], (busy (at' i .opened [])).runs i (at' i .opened []) := by decide

/-- `FrameOfRegisterCommands`: RDREG and PGINV at work, WRREG and WRBULK at acceptance; the cache changes in PGINV's step. -/
theorem witness_frameRegister : (midPaged.Inv ∧ (stateOf (exec (.rdreg 0x0112) midPaged)).isSome = true) ∧
    (State.reset.Inv ∧ ∀ i ∈ [Instr.wrreg 0x00B0 1, .wrbulk 0], (stateOf (exec i State.reset)).isSome = true) ∧
    (midPginv.Inv ∧ (stateOf (exec .pginv midPginv)).map (·.pageCache) = some .invalid) ∧
    (bothBusy.Inv ∧ bothBusy.ctx = .isr ∧ (stateOf (exec (.wrreg 0x00B0 0x42) bothBusy)).isSome = true) :=
  ⟨⟨midPaged_inv, rfl⟩, ⟨reset_inv, by decide⟩, ⟨midPginv_inv, rfl⟩, bothBusy_inv, rfl, rfl⟩

/-- `FrameOfFifoCommands`. -/
theorem witness_frameFifo : (midFifo.Inv ∧ (stateOf (exec (.fifowr 8) midFifo)).isSome = true) ∧
    (State.reset.Inv ∧ ∀ i ∈ [Instr.fiford, .fifordall 256], (stateOf (exec i State.reset)).isSome = true) :=
  ⟨⟨midFifo_inv, rfl⟩, reset_inv, by decide⟩

/-- `FrameOfAccumulationBuffer`: at acceptance, inside a frame, at a frame that fits and at one that does not. -/
theorem witness_frameBuffer : (State.reset.slot State.reset.ctx = none ∧
      (stateOf (exec (.fifordall 64) State.reset)).isSome = true) ∧
    (let c := at' (.fifordall 64) (.frame .fifoRead .fifo) [.xchg (.byte 0)]
    c.point ≠ .closed ∧ (stateOf (exec (.fifordall 64) (busy c))).isSome = true) ∧
    (∀ total ∈ [32, 33], let c := { at' (.fifordall 64) .closed [] with rx := [0, 1, 2, 3, 4, 0x20], total := total }
    (between c).runs (.fifordall 64) c ∧ frameAnswer c = .frame 0x04030201 32 ∧ 0 < 32 ∧
      (total = 32 → c.total + 32 ≤ (64 : BitVec 16).toNat) ∧ (stateOf (exec (.fifordall 64) (between c))).isSome = true) := by
  decide

/-- `FrameOfWireFrames`. -/
theorem witness_frameWire : (midFifo.Inv ∧ (Instr.fifoWrite 7).isCommand = false ∧
      (stateOf (exec (.fifoWrite 7) midFifo)).isSome = true) ∧
    (midRead.Inv ∧ (Instr.regRead 0xB0).isCommand = false ∧ (stateOf (exec (.regRead 0xB0) midRead)).isSome = true) :=
  ⟨⟨midFifo_inv, rfl, rfl⟩, midRead_inv, rfl, rfl⟩

/-- `RaisingLeavesTheRest`. -/
theorem witness_raising : State.reset.Inv ∧ State.reset.fault = .noFault ∧
    (stateOf (exec (.fifowr 0) State.reset)).map (·.fault) = some .operandRange := ⟨reset_inv, rfl, rfl⟩

/-- `ResponseEmptiesTheSlot`. -/
theorem witness_response : (stateOf (exec .pginv midPginv)).map (fun t => t.history.drop midPginv.history.length) =
    some [.pginv .fg, .resp .fg 0] := by decide

/-- `ClientWritesABuffer`: the last cell of each buffer and the first that does not exist. -/
theorem witness_clientWrites : State.reset.cfg.wf = true ∧ State.reset.fault = .noFault ∧
    (∀ m ∈ [Move.writeEB .fg 15 ⟨1, 2⟩, .writeEB .fg 16 ⟨1, 2⟩, .writePB .fg 31 9, .writePB .fg 32 9],
      (State.reset.setScript [m]).script = m :: []) ∧
    State.reset.ctx = .fg ∧ 15 < State.reset.cfg.maxBulk ∧ State.reset.cfg.maxBulk ≤ 16 := by decide

end Sys2Proof.Tests
end

section
/-! PROOFS. The configuration check (R10), and what one step records: the configuration stays, the history grows, and a response goes to
its issuer and empties that slot. -/

namespace Sys2Proof.Machine

/-! ## The configuration check (R10) -/

theorem offsetOf_toNat (a : RegAddr) : (offsetOf a).toNat = a.toNat % 256 := by
  simp [offsetOf, BitVec.extractLsb'_toNat]

theorem offsetOf_eq_iff (a b : RegAddr) : offsetOf a = offsetOf b ↔ a.toNat % 256 = b.toNat % 256 := by
  rw [← BitVec.toNat_inj, offsetOf_toNat, offsetOf_toNat]

theorem addrReserved_eq_zero_iff (a : RegAddr) : addrReserved a = 0 ↔ a.toNat < 2 ^ 10 := by
  have := a.isLt
  rw [← BitVec.toNat_inj, addrReserved, BitVec.extractLsb'_toNat, Nat.shiftRight_eq_div_pow]
  change a.toNat / 2 ^ 10 % 2 ^ 6 = 0 ↔ _
  omega

theorem protocolAddrOk_iff (a : RegAddr) : protocolAddrOk a = true ↔ a.toNat < 2 ^ 10 ∧ 0xA0 ≤ a.toNat % 256 := by
  rw [protocolAddrOk, Bool.and_eq_true, beq_iff_eq, addrReserved_eq_zero_iff, mirrored_iff]

theorem protocolOffsets_nodup_iff (cfg : Config) : [pageSelOffset cfg, shadowAddrOffset cfg, shadowValOffset cfg].Nodup ↔
    cfg.pageSelAddr.toNat % 256 ≠ cfg.shadowAddrAddr.toNat % 256 ∧
      cfg.pageSelAddr.toNat % 256 ≠ cfg.shadowValAddr.toNat % 256 ∧
      cfg.shadowAddrAddr.toNat % 256 ≠ cfg.shadowValAddr.toNat % 256 := by
  simp [pageSelOffset, shadowAddrOffset, shadowValOffset, offsetOf_eq_iff, and_assoc]

theorem step_illFormed {s : State} (h : s.cfg.wf = false) : step s = .refused .refusedConfig := by simp [step, h]

theorem step_wellFormed {s t : State} (h : step s = .next t) : nextMove s = .next t := by
  unfold step at h
  split at h
  · exact h
  · cases h

/-- Settles O8: each conjunct of the check is rewritten to arithmetic on the parameters; any other configuration is refused. -/
theorem configurationCheck : Obligations.ConfigurationCheck := by
  unfold Obligations.ConfigurationCheck
  refine ⟨fun cfg => ?_, fun s h => step_illFormed h⟩
  rw [Config.wf, configWf, decide_eq_true_iff, protocolOffsets_nodup_iff, protocolAddrOk_iff, protocolAddrOk_iff,
    protocolAddrOk_iff]
  simp [and_assoc]

/-! ## Response words (R84, R85) -/

/-- Every response word carries its status code in its low four bits, whatever stands above it. -/
theorem append_statusCode_low {n : Nat} (a : BitVec n) (st : Status) : (a ++ statusCode st).toNat % 16 ≤ 3 := by
  have low : (a ++ statusCode st).toNat % 16 = (statusCode st).toNat := by
    have := congrArg BitVec.toNat (extract_append_low (k := 4) a (statusCode st) 0 (Nat.le_refl 4))
    rwa [extract_whole, BitVec.extractLsb'_toNat] at this
  rw [low]
  cases st <;> decide

/-! ## What one step records -/

/-- What one step from `s` to `t` does to the configuration and the history (R9, R32): the first stays, the second is extended, and an
answer among the new events is the running context's, with its slot now empty and a status code of R85 (R13, R35). -/
def Follows (s t : State) : Prop :=
  t.cfg = s.cfg ∧ ∃ es, t.history = s.history ++ es ∧
    ∀ x r, .resp x r ∈ es → x = s.ctx ∧ t.slot s.ctx = none ∧ r.toNat % 16 ≤ 3

/-- Whatever state an operation begun in `s` goes on to follows `s`. -/
def Records (s : State) (r : Result) : Prop := ∀ t, r = .next t → Follows s t

variable {s t u : State} {c : InFlight}

theorem Follows.silent (hcfg : t.cfg = s.cfg) (hh : t.history = s.history) : Follows s t :=
  ⟨hcfg, [], by simpa using hh, by simp⟩

theorem Follows.event (e : Event) (hcfg : t.cfg = s.cfg) (hh : t.history = s.history ++ [e]) (he : ∀ x r, e ≠ .resp x r) :
    Follows s t :=
  ⟨hcfg, [e], hh, fun x r hm => absurd (List.mem_singleton.mp hm).symm (he x r)⟩

/-- An update that leaves the configuration, the history and the running context alone may come before a step. -/
theorem Follows.of_same (hcfg : u.cfg = s.cfg) (hh : u.history = s.history) (hx : u.ctx = s.ctx) (h : Follows u t) : Follows s t := by
  unfold Follows at h ⊢
  rwa [hcfg, hh, hx] at h

theorem Records.of_same {r : Result} (hcfg : u.cfg = s.cfg) (hh : u.history = s.history) (hx : u.ctx = s.ctx) (h : Records u r) :
    Records s r := fun t ht => (h t ht).of_same hcfg hh hx

theorem Records.next (h : Follows s t) : Records s (.next t) := by
  intro t' ht; cases ht; exact h

theorem Records.fault (f : Fault) : Records s (.fault f) := by
  intro t ht; cases ht

theorem Records.raise (code : FaultCode) (info : FaultInfo) : Records s (.next (raiseFault code info s)) :=
  .next (.event (.fault code) rfl rfl (by simp))

theorem Records.reentry (w : CommandWord) : Records s (reentry w s) := by
  intro t ht
  rw [reentry_next ht]
  exact Records.raise _ _ _ rfl

/-! ### Primitives and blocks -/

theorem txDrawn_cfg (src : TxSource) : (txDrawn src c s).cfg = s.cfg := by
  rcases txDrawn_cases c s src with h | h <;> simp [h]

theorem txDrawn_history (src : TxSource) : (txDrawn src c s).history = s.history := by
  rcases txDrawn_cases c s src with h | h <;> simp [h]

/-- A primitive records one event, which is no response (R33). -/
theorem Records.perform (p : Prim) (c : InFlight) : Records s (perform p c s) := by
  cases p with
  | mask => exact .next (.event .mask (by simp) (by simp) (by simp))
  | unmask => exact .next (.event .unmask (by simp) (by simp) (by simp))
  | lockAcq =>
    cases h : s.lockHeld with
    | true => rw [perform_lockAcq_held c s h]; exact .reentry c.word
    | false => rw [perform_lockAcq_free c s h]; exact .next (.event (.lockAcq s.ctx) (by simp) (by simp) (by simp))
  | lockRel => exact .next (.event (.lockRel s.ctx) (by simp) (by simp) (by simp))
  | csAssert => exact .next (.event (.csAssert s.ctx) (by simp) (by simp) (by simp))
  | csDeassert => exact .next (.event (.csDeassert s.ctx) (by simp) (by simp) (by simp))
  | order o => exact .next (.event (.order o s.ctx) (by simp) (by simp) (by simp))
  | xchg src =>
    exact .next (.event (.xchg (txByte src c s) s.rxIn s.bitOrder s.ctx) (by simp [txDrawn_cfg]) (by simp [txDrawn_history]) (by simp))

theorem Records.performNext (c : InFlight) : Records s (performNext c s) := by
  cases h : c.todo with
  | nil => simp only [Machine.performNext, h]; exact .fault _
  | cons p rest => rw [performNext_cons c s p rest h]; exact .perform p _

theorem Records.frameStep (f : Frame) (c : InFlight) : Records s (frameStep f c s) := by
  unfold Machine.frameStep
  split
  · split
    · exact .performNext c
    · exact .fault _
  all_goals exact .fault _

theorem Records.startFrame (f : Frame) (role : Role) (c : InFlight) : Records s (startFrame f role c s) := .frameStep f _

theorem Records.openTransaction (c : InFlight) : Records s (openTransaction c s) := .performNext _

theorem Records.closeTransaction (ok : Bool) (c : InFlight) : Records s (closeTransaction ok c s) := .performNext _

theorem Records.runFrame (f : Frame) : Records s (runFrame f s) := by
  unfold Machine.runFrame
  split
  · split
    · exact .frameStep f _
    · exact .fault _
  · exact .next (.silent rfl rfl)

/-! ### Acceptance, completion and the driver -/

theorem Records.accept (i : Instr) : Records s (accept i s) := by
  cases h : acceptFault i s with
  | none => rw [accept_none s i h]; exact .next (.silent (by simp) (by simp))
  | some fe => rw [accept_some s i fe.1 fe.2 h]; exact .raise _ _

/-- `return r` records r on the running context's port and empties its slot (R13). -/
theorem Records.respond {r : ResponseWord} (hr : r.toNat % 16 ≤ 3) : Records s (respond r s) :=
  .next ⟨by simp, [.resp s.ctx r], by simp, fun x r' hm => by
    cases List.mem_singleton.mp hm
    exact ⟨rfl, by simp, hr⟩⟩

theorem Records.runCommand (i : Instr) {k : InFlight → State → Result} (hk : ∀ c, Records s (k c s)) :
    Records s (runCommand i k s) := by
  unfold Machine.runCommand
  split
  · split
    · exact .accept i
    · split
      · split
        · exact hk _
        · exact .performNext _
      · exact .reentry _
  · exact .next (.silent rfl rfl)

/-! ### Verified writes and page switches (R134, R135) -/

theorem Records.continueWrite (g : Purpose) (st : Stage) (off val : Byte) (c : InFlight) {done : Bool → InFlight → State → Result}
    (hd : ∀ ok, Records s (done ok c s)) : Records s (continueWrite g st off val c s done) := by
  cases st with
  | write => exact .startFrame _ _ _
  | addr => exact .startFrame _ _ _
  | value =>
    simp only [Machine.continueWrite]
    split
    · exact hd true
    · split
      · exact .startFrame _ _ _
      · exact hd false

theorem Records.ensurePage (a : RegAddr) {go : InFlight → State → Result} (c : InFlight) (hgo : Records s (go c s)) :
    Records s (ensurePage a go c s) := by
  unfold Machine.ensurePage
  split
  · exact hgo
  · split
    · exact hgo
    · exact .startFrame _ _ _

/-- The page cache changes before what follows the switch; that it does so is not recorded. -/
theorem Records.continuePage (a : RegAddr) (st : Stage) {go : InFlight → State → Result} (c : InFlight)
    (hgo : ∀ u, Records u (go c u)) : Records s (continuePage a st go c s) := by
  refine .continueWrite _ _ _ _ c fun ok => ?_
  cases ok with
  | true => exact .of_same rfl rfl rfl (hgo (s.setPageCache (.page (pageOf a))))
  | false => exact .of_same rfl rfl rfl (.closeTransaction (s := s.setPageCache .invalid) false c)

/-! ### The commands at the end of a block -/

theorem Records.finishRdreg (c : InFlight) : Records s (finishRdreg c s) := by
  unfold Machine.finishRdreg
  split
  · exact .respond (append_statusCode_low _ _)
  · exact .of_same rfl rfl rfl (.respond (s := s.countDraw) (append_statusCode_low _ _))

theorem Records.proceedRdreg (addr : RegAddr) (c : InFlight) : Records s (proceedRdreg addr c s) := by
  unfold Machine.proceedRdreg
  split
  · exact .openTransaction c
  · exact .ensurePage _ c (.startFrame _ _ _)
  · exact .continuePage _ _ c fun _ => .startFrame _ _ _
  · exact .closeTransaction _ c
  · exact .fault _
  · exact .fault _
  · exact .finishRdreg c

theorem Records.proceedWrreg (addr : RegAddr) (val : Byte) (c : InFlight) : Records s (proceedWrreg addr val c s) := by
  unfold Machine.proceedWrreg
  split
  · exact .openTransaction c
  · exact .ensurePage _ c (.startFrame _ _ _)
  · exact .continuePage _ _ c fun _ => .startFrame _ _ _
  · exact .continueWrite _ _ _ _ c fun ok => .closeTransaction ok c
  · exact .fault _
  · exact .fault _
  · exact .respond (append_statusCode_low _ _)

/-- Taking an entry draws at most a free value, which nothing records. -/
theorem Records.nextEntry (count : BitVec 16) (c : InFlight) : Records s (nextEntry count c s) := by
  have drawn : ∀ {r}, Records (bulkDrawn c s) r → Records s r := by
    unfold bulkDrawn
    cases c.tainted with
    | true => exact .of_same rfl rfl rfl
    | false => exact id
  unfold Machine.nextEntry
  split
  · exact drawn (.ensurePage _ _ (.startFrame _ _ _))
  · exact .closeTransaction _ c

theorem Records.afterEntry (count : BitVec 16) (ok : Bool) (c : InFlight) : Records s (afterEntry count ok c s) := by
  cases ok with
  | true => exact .nextEntry count _
  | false => exact .closeTransaction _ c

theorem Records.proceedWrbulk (count : BitVec 16) (c : InFlight) : Records s (proceedWrbulk count c s) := by
  unfold Machine.proceedWrbulk
  split
  · exact .openTransaction c
  · exact .nextEntry count _
  · exact .continuePage _ _ c fun _ => .startFrame _ _ _
  · exact .continueWrite _ _ _ _ c fun ok => .afterEntry count ok c
  · exact .fault _
  · exact .fault _
  · exact .respond (append_statusCode_low _ _)

theorem Records.closeFifoRead (c : InFlight) : Records s (closeFifoRead c s) := by
  unfold Machine.closeFifoRead
  split
  · exact .raise _ _
  · exact .closeTransaction _ c
  · exact .closeTransaction _ c

theorem Records.proceedFifowr (nbits : BitVec 9) (c : InFlight) : Records s (proceedFifowr nbits c s) := by
  unfold Machine.proceedFifowr
  split
  · exact .openTransaction c
  · exact .startFrame _ _ c
  · exact .closeTransaction _ c
  · exact .fault _
  · exact .fault _
  · exact .respond (append_statusCode_low _ _)

theorem Records.finishFiford (c : InFlight) : Records s (finishFiford c s) := by
  unfold Machine.finishFiford
  split
  · exact .respond (append_statusCode_low _ _)
  · exact .respond (append_statusCode_low _ _)
  · exact .fault _

theorem Records.proceedFiford (c : InFlight) : Records s (proceedFiford c s) := by
  unfold Machine.proceedFiford
  split
  · exact .openTransaction c
  · exact .startFrame _ _ c
  · exact .closeFifoRead c
  · exact .fault _
  · exact .fault _
  · exact .finishFiford c

theorem Records.finishFifordall (st : Status) (c : InFlight) : Records s (finishFifordall st c s) :=
  .of_same rfl rfl rfl (.respond (s := s.forgetAb c.total) (append_statusCode_low _ _))

theorem Records.afterFrame (maxBits : BitVec 16) (c : InFlight) : Records s (afterFrame maxBits c s) := by
  unfold Machine.afterFrame
  split
  · exact .finishFifordall _ c
  · split
    · exact .finishFifordall _ c
    · split
      · exact .finishFifordall _ c
      · exact .of_same rfl rfl rfl (.openTransaction (s := s.setAb _) _)
  · exact .fault _

theorem Records.proceedFifordall (maxBits : BitVec 16) (c : InFlight) : Records s (proceedFifordall maxBits c s) := by
  unfold Machine.proceedFifordall
  split
  · exact .openTransaction _
  · exact .startFrame _ _ c
  · exact .closeFifoRead c
  · exact .fault _
  · exact .fault _
  · exact .afterFrame maxBits c

/-- PGINV records two events in its one step, its own and its response (R140). -/
theorem Records.proceedPginv (c : InFlight) : Records s (proceedPginv c s) := by
  unfold Machine.proceedPginv
  split
  · refine .next ⟨by simp, [.pginv s.ctx, .resp s.ctx (statusResponse .ok)], by simp, fun x r hm => ?_⟩
    have hr : x = s.ctx ∧ r = statusResponse .ok := by simpa using hm
    exact ⟨hr.1, by simp, by rw [hr.2]; exact append_statusCode_low _ _⟩
  all_goals exact .fault _

/-! ### Instructions and moves -/

theorem Records.exec (i : Instr) : Records s (exec i s) := by
  cases i with
  | rdreg addr => exact .runCommand _ (.proceedRdreg addr)
  | wrreg addr val => exact .runCommand _ (.proceedWrreg addr val)
  | wrbulk count => exact .runCommand _ (.proceedWrbulk count)
  | fifowr nbits => exact .runCommand _ (.proceedFifowr nbits)
  | fiford => exact .runCommand _ .proceedFiford
  | fifordall maxBits => exact .runCommand _ (.proceedFifordall maxBits)
  | pginv => exact .runCommand _ .proceedPginv
  | regRead off => exact .runFrame _
  | regWrite off val => exact .runFrame _
  | fifoWrite len => exact .runFrame _
  | fifoRead => exact .runFrame _

theorem Records.issue (x : Ctx) (w : CommandWord) : Records s (issue x w s) := by
  unfold Machine.issue
  split
  · split
    · exact .reentry w
    · split
      · exact .raise _ _
      · exact .exec _
  · exact .next (.silent rfl rfl)

theorem Records.engineStep (x : Ctx) (rx : Byte) : Records s (engineStep x rx s) := by
  unfold Machine.engineStep
  split
  · split
    · exact .next (.silent rfl rfl)
    · split
      · exact .of_same rfl rfl rfl (.exec (s := s.receive rx) _)
      · exact .fault _
  · exact .next (.silent rfl rfl)

theorem lineEdge_follows (e : Edge) : Follows s (lineEdge e s) := by
  unfold lineEdge
  split
  · exact .silent rfl rfl
  · exact .silent rfl rfl

theorem isrEnter_follows : Follows s (isrEnter s) := by
  unfold isrEnter
  split
  · exact .event .isrEnter rfl rfl (by simp)
  · exact .silent rfl rfl

theorem isrExit_follows : Follows s (isrExit s) := by
  unfold isrExit
  split
  · exact .event .isrExit rfl rfl (by simp)
  · exact .silent rfl rfl

theorem Records.clientWriteEB (x : Ctx) (i : Nat) (e : ConfigEntry) : Records s (clientWriteEB x i e s) := by
  unfold Machine.clientWriteEB
  split
  · split
    · exact .next (.silent rfl rfl)
    · exact .fault _
  · exact .next (.silent rfl rfl)

theorem Records.clientWritePB (x : Ctx) (i : Nat) (b : Byte) : Records s (clientWritePB x i b s) := by
  unfold Machine.clientWritePB
  split
  · split
    · exact .next (.silent rfl rfl)
    · exact .fault _
  · exact .next (.silent rfl rfl)

theorem Records.takeMove (m : Move) : Records s (takeMove m s) := by
  cases m with
  | issue x w => exact .issue x w
  | engine x rx => exact .engineStep x rx
  | edge e => exact .next (lineEdge_follows e)
  | isrEnter => exact .next isrEnter_follows
  | isrExit => exact .next isrExit_follows
  | writeEB x i e => exact .clientWriteEB x i e
  | writePB x i b => exact .clientWritePB x i b

theorem Records.nextMove : Records s (nextMove s) := by
  unfold Machine.nextMove
  split
  · exact .next (.silent rfl rfl)
  · exact .of_same rfl rfl rfl (.takeMove (s := s.setScript _) _)

theorem step_follows (h : step s = .next t) : Follows s t := Records.nextMove t (step_wellFormed h)

/-! ## The obligations about what a step records -/

/-- Settles O14: every move of every agent records what follows the state it is made in. -/
theorem historyOnlyGrows : Obligations.HistoryOnlyGrows := by
  unfold Obligations.HistoryOnlyGrows
  intro s t h
  obtain ⟨hcfg, es, hh, _⟩ := step_follows h
  exact ⟨hcfg, es, hh.symm⟩

/-- Settles O59: the events beyond the old history are the ones the instruction's step recorded. -/
theorem responseEmptiesTheSlot : Obligations.ResponseEmptiesTheSlot := by
  unfold Obligations.ResponseEmptiesTheSlot
  intro s t i x r h hm
  obtain ⟨_, es, hh, answers⟩ := Records.exec i t h
  rw [hh, List.drop_left] at hm
  exact answers x r hm

end Sys2Proof.Machine
end

section
/-! PROOFS. Command words, one primitive, and the steps that need no more: reset, a slot's step, acceptance, the page switch and the
next entry. -/

namespace Sys2Proof.Machine

/-! ## Words and commands (R81-R83) -/

theorem isCommand_of_decode {w : CommandWord} {i : Instr} (h : decode w = .ok i) : i.isCommand = true := by
  unfold decode at h
  split at h
  case h_8 => cases h
  all_goals
    obtain ⟨-, rfl⟩ := checked_ok h
    rfl

/-- A command's word is read back as that command. -/
theorem decode_encode {i : Instr} (h : i.isCommand = true) : decode (encode i) = .ok i := by
  cases i with
  | rdreg addr =>
    obtain ⟨hop, hz, hb⟩ := fields_word 1#4 0#12 addr
    rw [encode, decode_rdreg _ hop, checked_zero hz, lowField, hb]
  | wrreg addr val =>
    obtain ⟨hop, hz, hv, hb⟩ := fields_wrreg 2#4 0#4 val addr
    rw [encode, decode_wrreg _ hop, checked_zero hz, lowField, hv, hb]
  | wrbulk count =>
    obtain ⟨hop, hz, hb⟩ := fields_word 3#4 0#12 count
    rw [encode, decode_wrbulk _ hop, checked_zero hz, lowField, hb]
  | fifowr nbits =>
    obtain ⟨hop, hz, hb⟩ := fields_fifowr 4#4 0#19 nbits
    rw [encode, decode_fifowr _ hop, checked_zero hz, hb]
  | fiford => rfl
  | fifordall maxBits =>
    obtain ⟨hop, hz, hb⟩ := fields_word 6#4 0#12 maxBits
    rw [encode, decode_fifordall _ hop, checked_zero hz, lowField, hb]
  | pginv => rfl
  | _ => cases h

/-- A command word is its opcode, its reserved bits and its operand word (R81, R83). -/
theorem join_operand (w : CommandWord) : opcodeOf w ++ w.extractLsb' 16 12 ++ lowField w = w :=
  calc opcodeOf w ++ w.extractLsb' 16 12 ++ lowField w
    _ = w.extractLsb' 16 16 ++ w.extractLsb' 0 16 := congrArg (· ++ lowField w) (join_fields w 16 12 4)
    _ = w.extractLsb' 0 32 := join_fields w 0 16 16
    _ = w := extract_whole w

/-- WRREG's word has its value above its address (R83). -/
theorem join_wrreg (w : CommandWord) :
    opcodeOf w ++ w.extractLsb' 24 4 ++ w.extractLsb' 16 8 ++ lowField w = w :=
  calc opcodeOf w ++ w.extractLsb' 24 4 ++ w.extractLsb' 16 8 ++ lowField w
    _ = w.extractLsb' 24 8 ++ w.extractLsb' 16 8 ++ lowField w :=
      congrArg (· ++ w.extractLsb' 16 8 ++ lowField w) (join_fields w 24 4 4)
    _ = w.extractLsb' 16 16 ++ w.extractLsb' 0 16 := congrArg (· ++ lowField w) (join_fields w 16 8 8)
    _ = w.extractLsb' 0 32 := join_fields w 0 16 16
    _ = w := extract_whole w

/-- FIFOWR's word ends in a length of 9 bits (R83). -/
theorem join_fifowr (w : CommandWord) : opcodeOf w ++ w.extractLsb' 9 19 ++ w.extractLsb' 0 9 = w :=
  calc opcodeOf w ++ w.extractLsb' 9 19 ++ w.extractLsb' 0 9
    _ = w.extractLsb' 9 23 ++ w.extractLsb' 0 9 := congrArg (· ++ w.extractLsb' 0 9) (join_fields w 9 19 4)
    _ = w.extractLsb' 0 32 := join_fields w 0 9 23
    _ = w := extract_whole w

/-- No bit of a decoded word is ignored (R80): the word is its command's. -/
theorem encode_of_decode {w : CommandWord} {i : Instr} (h : decode w = .ok i) : encode i = w := by
  have opcode {n : Nat} (ho : (opcodeOf w).toNat = n) : opcodeOf w = BitVec.ofNat 4 n := by
    rw [← ho, BitVec.ofNat_toNat, BitVec.setWidth_eq]
  unfold decode at h
  split at h
  case h_2 ho =>
    obtain ⟨hz, rfl⟩ := checked_ok h
    have hw := join_wrreg w
    rwa [opcode ho, eq_of_beq hz] at hw
  case h_4 ho =>
    obtain ⟨hz, rfl⟩ := checked_ok h
    have hw := join_fifowr w
    rwa [opcode ho, eq_of_beq hz] at hw
  case h_5 ho | h_7 ho =>
    obtain ⟨hz, rfl⟩ := checked_ok h
    have hw := join_word w
    rw [eq_of_beq hz, show w.extractLsb' 28 4 = _ from opcode ho] at hw
    exact hw
  case h_8 => cases h
  all_goals
    obtain ⟨hz, rfl⟩ := checked_ok h
    have hw := join_operand w
    rwa [opcode ‹_›, eq_of_beq hz] at hw

/-! ## One primitive -/

theorem State.keeps.ctx {s t : State} (h : s.keeps t) : t.ctx = s.ctx := by simp only [State.ctx, h.isrActive]

theorem State.keeps.trans {s t u : State} (h : s.keeps t) (k : t.keeps u) : s.keeps u where
  irqPending := k.irqPending.trans h.irqPending
  isrActive := k.isrActive.trans h.isrActive
  eb := k.eb.trans h.eb
  pb := k.pb.trans h.pb
  cfg := k.cfg.trans h.cfg
  script := k.script.trans h.script
  rxIn := k.rxIn.trans h.rxIn
  otherSlot x hx := (k.otherSlot x (by rwa [h.ctx])).trans (h.otherSlot x hx)

/-- Filling or emptying the running context's slot touches no surroundings. -/
theorem State.keeps_putSlot (s : State) (c : Option InFlight) : s.keeps (s.putSlot s.ctx c) := by
  constructor
  case otherSlot => exact fun x hx => State.putSlot_slot_other _ _ _ _ hx.symm
  all_goals simp

/-- Everything primitive `p` does for command `c` in state `s` (R110, R113-R115, R192, R193): its effect and event, the phase of `c`
with its answer, and no other change. -/
structure Performed (p : Prim) (c : InFlight) (s t : State) : Prop where
  effect : ∃ tx, s.performs p tx s.rxIn t ∧ ∀ b, p = .xchg (.byte b) → tx = b
  keeps  : s.keeps t
  slot   : ∃ rx, t.slot s.ctx = some { c with rx := rx } ∧ ∀ src, p = .xchg src → rx = c.rx ++ [s.rxIn]
  cache  : t.pageCache = s.pageCache
  fault  : t.fault = s.fault
  buffer : t.ab = s.ab ∧ t.abTotals = s.abTotals
  draws  : (∀ k, p ≠ .xchg (.payload k)) → t.draws = s.draws
  free   : p = .lockAcq → s.lockHeld = false

theorem txDrawn_same (src : TxSource) (c : InFlight) (s : State) :
    txDrawn src c s = { s with draws := (txDrawn src c s).draws } := by
  rcases txDrawn_cases c s src with h | h
  · rw [h]
  · rw [h]; rfl

/-- A primitive that is performed has exactly its effect, except that a LOCK_ACQ that finds the flag set is a re-entrant acquisition (R192). -/
theorem perform_next {p : Prim} {c : InFlight} {s t : State} (h : perform p c s = .next t) :
    Performed p c s t ∨ p = .lockAcq ∧ s.lockHeld = true ∧ t = raiseFault .lockReentry ⟨c.word, s.ctx, none, none⟩ s := by
  have other (u : State) (d : Option InFlight) (x : Ctx) (hx : x ≠ s.ctx) : (u.putSlot s.ctx d).slot x = u.slot x :=
    State.putSlot_slot_other _ _ _ _ hx.symm
  cases p with
  | lockAcq =>
    cases hl : s.lockHeld with
    | true =>
      rw [perform_lockAcq_held c s hl] at h
      exact .inr ⟨rfl, rfl, reentry_next h⟩
    | false =>
      rw [perform_lockAcq_free c s hl] at h
      cases h
      refine .inl ⟨⟨0, ?_, by simp⟩, ?_, ⟨c.rx, by simp, by simp⟩, by simp, by simp, by simp, by simp, by simp [hl]⟩
      · constructor <;> simp [Prim.event]
      · constructor <;> simp +contextual [other]
  | xchg src =>
    cases h
    rw [txDrawn_same]
    refine .inl ⟨⟨txByte src c s, ?_, ?_⟩, ?_, ⟨c.rx ++ [s.rxIn], by simp, by simp⟩, by simp, by simp, by simp, ?_, by simp⟩
    · constructor <;> simp [Prim.event]
    · rintro b ⟨⟩; rfl
    · constructor <;> simp +contextual [other]
      intro x hx
      cases x <;> rfl
    · intro hk
      cases src with
      | byte b => simp [txDrawn]
      | payload k => exact absurd rfl (hk k)
  | _ =>
    cases h
    refine .inl ⟨⟨0, ?_, by simp⟩, ?_, ⟨c.rx, by simp, by simp⟩, by simp, by simp, by simp, by simp, by simp⟩
    · constructor <;> simp [Prim.event]
    · constructor <;> simp +contextual [other]

/-- Any primitive but a LOCK_ACQ is always performed. -/
theorem perform_performs {p : Prim} (hp : p ≠ .lockAcq) (c : InFlight) (s : State) :
    ∃ t, perform p c s = .next t ∧ Performed p c s t := by
  obtain ⟨t, ht⟩ : ∃ t, perform p c s = .next t := by
    cases p with
    | lockAcq => exact absurd rfl hp
    | _ => exact ⟨_, rfl⟩
  exact ⟨t, ht, (perform_next ht).resolve_right fun held => hp held.1⟩

/-! ## The blocks a command goes through -/

/-- The first primitive of a frame asserts chip-select or sends a byte that the frame fixes (R195, R88-R90). -/
theorem framePrims_head (cfg : Config) (f : Frame) :
    ∃ p rest, framePrims cfg f = p :: rest ∧ (p = .csAssert ∨ ∃ b, p = .xchg (.byte b)) := by
  cases hm : cfg.csMode with
  | perAccess => exact ⟨_, _, framePrims_access _ _ hm, .inl rfl⟩
  | perTransaction =>
    rw [framePrims_transaction _ _ hm]
    cases f <;> exact ⟨_, _, rfl, .inr ⟨_, rfl⟩⟩

theorem closePrims_head (cfg : Config) (x : Ctx) :
    ∃ p rest, closePrims cfg x = p :: rest ∧ (p = .csDeassert ∨ p = .lockRel) := by
  unfold closePrims
  cases cfg.csMode with
  | perAccess => exact ⟨_, _, rfl, .inr rfl⟩
  | perTransaction => exact ⟨_, _, rfl, .inl rfl⟩

/-- Beginning a frame sets the command's phase in it, keeps the command's other locals, the cache and the free values, and
performs one primitive. -/
theorem startFrame_begins (f : Frame) (role : Role) (c : InFlight) (s : State) :
    ∃ t rest rx, startFrame f role c s = .next t ∧
      t.slot s.ctx = some { c with point := .frame f role, todo := rest, rx := rx } ∧ t.pageCache = s.pageCache ∧
      t.draws = s.draws := by
  obtain ⟨p, rest, hp, hhead⟩ := framePrims_head s.cfg f
  have hlock : p ≠ .lockAcq := by rcases hhead with rfl | ⟨b, rfl⟩ <;> simp
  have hdraw : ∀ k, p ≠ .xchg (.payload k) := by rcases hhead with rfl | ⟨b, rfl⟩ <;> simp
  obtain ⟨t, ht, hperf⟩ := perform_performs hlock { c with point := .frame f role, todo := rest, rx := [] } s
  obtain ⟨rx, hslot, -⟩ := hperf.slot
  exact ⟨t, rest, rx, by rw [startFrame_eq, performNext_cons _ _ _ _ hp]; exact ht, hslot, hperf.cache, hperf.draws hdraw⟩

/-- Beginning a transaction's end sets the command's phase in it, keeps the command's other locals and the cache, and performs
one primitive. -/
theorem closeTransaction_begins (ok : Bool) (c : InFlight) (s : State) :
    ∃ t rest rx, closeTransaction ok c s = .next t ∧
      t.slot s.ctx = some { c with point := .closed, todo := rest, ok := ok, rx := rx } ∧ t.pageCache = s.pageCache := by
  obtain ⟨p, rest, hp, hhead⟩ := closePrims_head s.cfg s.ctx
  have hlock : p ≠ .lockAcq := by rcases hhead with rfl | rfl <;> simp
  obtain ⟨t, ht, hperf⟩ := perform_performs hlock { c with point := .closed, todo := rest, ok := ok } s
  obtain ⟨rx, hslot, -⟩ := hperf.slot
  exact ⟨t, rest, rx, by rw [closeTransaction, performNext_cons _ _ _ _ hp]; exact ht, hslot, hperf.cache⟩

/-! ## Reset, a slot's step and acceptance (R240, R33, R215) -/

/-- Settles O10: at reset no command is in flight and nothing is open, so each clause is about empty slots. -/
theorem resetKeepsTheInvariant : Obligations.ResetKeepsTheInvariant := by
  unfold Obligations.ResetKeepsTheInvariant
  intro cfg
  have empty : ∀ x, (State.resetWith cfg).slot x = none := by rintro (_ | _) <;> rfl
  refine ⟨?_, fun x c _ _ _ _ hc => ?_, rfl⟩
  · exact {
      fgLegal := fun c hc => by cases hc
      isrLegal := fun c hc => by cases hc
      isrRuns := fun hn => absurd rfl hn
      fgMasks := fun c hc => by cases hc
      lockFlag := rfl
      fields := rfl
      bracketed := rfl }
  · rw [empty] at hc; cases hc

theorem currentInstr_inFrame {c : InFlight} {f : Frame} {role : Role} (hp : c.point = .frame f role) (hc : c.todo ≠ []) :
    currentInstr c = some (frameInstr f) := by
  obtain ⟨p, rest, hc⟩ := List.exists_cons_of_ne_nil hc
  simp only [currentInstr, hp, hc]

theorem currentInstr_between {c : InFlight} (h : c.todo = [] ∨ c.frameInstr = none) :
    currentInstr c = (decode c.word).toOption := by
  unfold currentInstr
  split
  next f role p rest hp hc =>
    rcases h with h | h
    · rw [hc] at h; cases h
    · rw [InFlight.frameInstr, hp] at h; cases h
  next => rfl

/-- The instruction a command is executing is the wire frame in progress, else the command of its word. -/
theorem currentInstr_eq_some {c : InFlight} {i : Instr} (h : c.todo ≠ [] ∧ c.frameInstr = some i ∨
    (c.todo = [] ∨ c.frameInstr = none) ∧ decode c.word = .ok i) : currentInstr c = some i := by
  rcases h with ⟨hc, hi⟩ | ⟨hc, hi⟩
  · unfold InFlight.frameInstr at hi
    split at hi
    next hp => rw [currentInstr_inFrame hp hc, hi]
    all_goals cases hi
  · rw [currentInstr_between hc, hi]
    rfl

/-- Settles O18: the move that comes is that slot's, and the slot may step. -/
theorem slotStepRunsItsInstruction : Obligations.SlotStepRunsItsInstruction := by
  unfold Obligations.SlotStepRunsItsInstruction
  intro s c i rx moves hwf hscript hf hs h
  have hmay : (s.setScript moves).mayStep s.ctx = true := by simp [State.mayStep, hf]
  simp [step, hwf, nextMove, hscript, takeMove, engineStep, hmay, hs, currentInstr_eq_some h]

/-- No entry from `k` on is bad if each passes the checks. -/
theorem firstBadEntry_eq_none (s : State) (n k : Nat)
    (h : ∀ j, k ≤ j → j < k + n → writeTargetFault s.cfg (readEntry s j).addr = none) : firstBadEntry s n k = none := by
  induction n generalizing k with
  | zero => rfl
  | succ n ih =>
    rw [firstBadEntry, h k (by omega) (by omega)]
    exact ih (k + 1) fun j hk hn => h j (by omega) (by omega)

/-- Settles O29: neither the operands nor the entries the command is checked against give a fault. -/
theorem legalCommandIsAccepted : Obligations.LegalCommandIsAccepted := by
  unfold Obligations.LegalCommandIsAccepted
  intro s i hidle hi hwf hentries
  have hop : operandFault s.cfg i = none := by simpa [Instr.wellFormed] using hwf
  have hbad : firstBadEntry s (checkedEntries i) 0 = none := by
    refine firstBadEntry_eq_none s _ 0 fun j _ hj => ?_
    cases i with
    | wrbulk count => exact hentries count rfl j (by simpa [checkedEntries] using hj)
    | _ => simp [checkedEntries] at hj
  rw [exec_idle hidle hi]
  exact accept_none s i (by simp [acceptFault, hop, hbad])

/-! ## The page switch and the next entry (R134, R135, R139) -/

section
variable {c : InFlight} {s : State} {off val : Byte}

theorem continueWrite_verified (g : Purpose) (done : Bool → InFlight → State → Result)
    (h : c.shadowA = off ∧ readAnswer c = val) : continueWrite g .value off val c s done = done true c s := by
  simp [continueWrite, h]

theorem continueWrite_exhausted (g : Purpose) (done : Bool → InFlight → State → Result)
    (h : ¬(c.shadowA = off ∧ readAnswer c = val)) (hb : s.cfg.retryBound ≤ c.attempt) :
    continueWrite g .value off val c s done = done false c s := by
  simp [continueWrite, h, Nat.not_lt.mpr hb]

theorem continuePage_verified (a : RegAddr) (go : InFlight → State → Result)
    (h : c.shadowA = pageSelOffset s.cfg ∧ readAnswer c = pageSelectValue (pageOf a)) :
    continuePage a .value go c s = go c (s.setPageCache (.page (pageOf a))) := by
  rw [continuePage, continueWrite_verified _ _ h, if_pos rfl]

theorem continuePage_exhausted (a : RegAddr) (go : InFlight → State → Result)
    (h : ¬(c.shadowA = pageSelOffset s.cfg ∧ readAnswer c = pageSelectValue (pageOf a))) (hb : s.cfg.retryBound ≤ c.attempt) :
    continuePage a .value go c s = closeTransaction false c (s.setPageCache .invalid) := by
  rw [continuePage, continueWrite_exhausted _ _ h hb, if_neg (by simp)]

theorem ensurePage_here {a : RegAddr} (go : InFlight → State → Result) (h : mirrored a = true ∨ s.pageCache = .page (pageOf a)) :
    ensurePage a go c s = go c s := by
  rcases h with h | h <;> simp [ensurePage, h]

theorem ensurePage_elsewhere {a : RegAddr} (go : InFlight → State → Result)
    (h : ¬(mirrored a = true ∨ s.pageCache = .page (pageOf a))) :
    ensurePage a go c s = beginWrite .page (pageSelOffset s.cfg) (pageSelectValue (pageOf a)) c s := by
  rw [not_or] at h
  simp [ensurePage, h]

end

/-- Taking an entry draws at most a free value. -/
theorem bulkDrawn_same (c : InFlight) (s : State) :
    bulkDrawn c s = { s with draws := s.draws + (if c.tainted then 1 else 0) } := by
  unfold bulkDrawn; split <;> rfl

/-- What follows a page switch that verified: the command's own access, its write at attempt 0 (R31). -/
theorem exec_pageSwitch {s : State} {c : InFlight} {f : Frame} {addr : RegAddr} {i : Instr} {target : Frame} {role : Role}
    (hp : c.point = .frame f (.verify .page .value)) (ht : c.todo = [])
    (hi : (i = .rdreg addr ∧ target = .regRead (offsetOf addr) ∧ role = .read) ∨
      (∃ val, i = .wrreg addr val ∧ target = .regWrite (offsetOf addr) val ∧ role = .verify .target .write) ∨
      (∃ count, i = .wrbulk count ∧ addr = c.cur.addr ∧ target = .regWrite (offsetOf addr) c.cur.val ∧
        role = .verify .target .write)) (hr : s.runs i c) :
    ∃ go, exec i s = continuePage addr .value go c s ∧ ∀ u, ∃ d, go c u = startFrame target role d u ∧ c.keepsTask d ∧
      (role = .verify .target .write → d.attempt = 0) := by
  rcases hi with ⟨rfl, rfl, rfl⟩ | ⟨val, rfl, rfl, rfl⟩ | ⟨count, rfl, rfl, rfl, rfl⟩
  · exact ⟨_, by simp only [exec_rdreg_end hr ht, proceedRdreg, hp]; rfl, fun u => ⟨c, rfl, ⟨rfl, rfl, rfl, rfl, rfl⟩, by simp⟩⟩
  · exact ⟨_, by simp only [exec_wrreg_end hr ht, proceedWrreg, hp]; rfl, fun u =>
      ⟨{ c with attempt := 0 }, rfl, ⟨rfl, rfl, rfl, rfl, rfl⟩, by simp⟩⟩
  · exact ⟨_, by simp only [exec_wrbulk_end hr ht, proceedWrbulk, hp]; rfl, fun u =>
      ⟨{ c with attempt := 0 }, rfl, ⟨rfl, rfl, rfl, rfl, rfl⟩, by simp⟩⟩

/-- Settles O38: the switch's last read-back decides, and what follows begins a frame or the transaction's end. -/
theorem pageSwitchOutcome : Obligations.PageSwitchOutcome := by
  unfold Obligations.PageSwitchOutcome
  intro s c f addr hp ht i target role hi hr
  obtain ⟨go, hexec, hgo⟩ := exec_pageSwitch hp ht hi hr
  constructor
  · intro hv
    obtain ⟨d, hgo, hkeep, hattempt⟩ := hgo (s.setPageCache (.page (pageOf addr)))
    obtain ⟨t, rest, rx, hstart, hslot, hcache, -⟩ := startFrame_begins target role d (s.setPageCache (.page (pageOf addr)))
    refine ⟨t, _, ?_, hslot, hcache, rfl, ⟨hkeep.word, hkeep.index, hkeep.cur, hkeep.total, hkeep.tainted⟩, hattempt⟩
    rw [hexec, continuePage_verified addr go hv, hgo, hstart]
  · intro hv hb
    obtain ⟨t, rest, rx, hclose, hslot, hcache⟩ := closeTransaction_begins false c (s.setPageCache .invalid)
    refine ⟨t, _, ?_, hslot, hcache, rfl, rfl, ⟨rfl, rfl, rfl, rfl, rfl⟩⟩
    rw [hexec, continuePage_exhausted addr go hv hb, hclose]

/-- WRBULK's next entry begins with its own write, or with the page switch that its address asks for, each at attempt 0 (R31). -/
theorem nextEntry_begins {count : BitVec 16} {c : InFlight} {s : State} (h : c.index < count.toNat) :
    ∃ f role, Point.frame f role = (if mirrored (bulkEntry c s).addr = true ∨ s.pageCache = .page (pageOf (bulkEntry c s).addr)
        then .frame (.regWrite (offsetOf (bulkEntry c s).addr) (bulkEntry c s).val) (.verify .target .write)
        else .frame (.regWrite (pageSelOffset s.cfg) (pageSelectValue (pageOf (bulkEntry c s).addr))) (.verify .page .write)) ∧
      ∃ t rest rx, nextEntry count c s = .next t ∧
        t.slot s.ctx = some { c with cur := bulkEntry c s, attempt := 0, point := .frame f role, todo := rest, rx := rx } ∧
        t.pageCache = s.pageCache ∧ t.draws = s.draws + (if c.tainted then 1 else 0) := by
  have hcache : (bulkDrawn c s).pageCache = s.pageCache := by rw [bulkDrawn_same]
  have hcfg : (bulkDrawn c s).cfg = s.cfg := by rw [bulkDrawn_same]
  have hctx : (bulkDrawn c s).ctx = s.ctx := by rw [bulkDrawn_same]; rfl
  have hdraws : (bulkDrawn c s).draws = s.draws + (if c.tainted then 1 else 0) := by rw [bulkDrawn_same]
  have begins (f : Frame) (role : Role) :=
    startFrame_begins f role { c with cur := bulkEntry c s, attempt := 0 } (bulkDrawn c s)
  rw [hcache, hctx, hdraws] at begins
  rw [nextEntry, if_pos h]
  by_cases hpage : mirrored (bulkEntry c s).addr = true ∨ s.pageCache = .page (pageOf (bulkEntry c s).addr)
  · rw [ensurePage_here _ (by rwa [hcache]), if_pos hpage]
    exact ⟨_, _, rfl, begins _ _⟩
  · rw [ensurePage_elsewhere _ (by rwa [hcache]), if_neg hpage, hcfg]
    exact ⟨_, _, rfl, begins _ _⟩

/-- Settles O40: the entry's last read-back decides, and WRBULK's loop goes on with the next entry or ends. -/
theorem bulkStopsAtTheFirstFailure : Obligations.BulkStopsAtTheFirstFailure := by
  unfold Obligations.BulkStopsAtTheFirstFailure
  intro s c f count hp ht hr
  have hexec : exec (.wrbulk count) s =
      continueWrite .target .value (offsetOf c.cur.addr) c.cur.val c s (afterEntry count) := by
    simp only [exec_wrbulk_end hr ht, proceedWrbulk, hp]
  refine ⟨fun hv hlt => ?_, fun hv hend => ?_, fun hv hb => ?_⟩
  · obtain ⟨g, role, hpoint, t, rest, rx, hnext, hslot, hcache, hdraws⟩ :=
      nextEntry_begins (c := { c with index := c.index + 1 }) (s := s) hlt
    refine ⟨t, _, ?_, hslot, rfl, rfl, rfl, rfl, fun hclean => ?_, hdraws, hcache, hpoint⟩
    · rw [hexec, continueWrite_verified _ _ hv, afterEntry, if_pos rfl, hnext]
    · simp [bulkEntry, hclean]
  · obtain ⟨t, rest, rx, hclose, hslot, -⟩ := closeTransaction_begins true { c with index := c.index + 1 } s
    refine ⟨t, _, ?_, hslot, hend, rfl, rfl, rfl⟩
    rw [hexec, continueWrite_verified _ _ hv, afterEntry, if_pos rfl, nextEntry, if_neg (Nat.not_lt.mpr hend.ge), hclose]
  · obtain ⟨t, rest, rx, hclose, hslot, -⟩ := closeTransaction_begins false c s
    refine ⟨t, _, ?_, hslot, rfl, rfl, rfl, rfl⟩
    rw [hexec, continueWrite_exhausted _ _ hv hb, afterEntry, if_neg (by simp), hclose]

/-! ## One primitive inside a block (R33) -/

theorem executes_frame {s : State} {c : InFlight} {f : Frame} {role : Role} (hf : s.fault = .noFault) (hs : s.slot s.ctx = some c)
    (hp : c.point = .frame f role) : s.executes (frameInstr f) c :=
  ⟨hf, hs, .inr (by rw [InFlight.frameInstr, hp])⟩

section
variable {s : State} {i : Instr} {c : InFlight} {rest : List Prim}

/-- An exchange of a byte that the block fixes. -/
theorem exec_xchg_byte {b : Byte} (h : s.executes i c) (hc : c.todo = .xchg (.byte b) :: rest) : exec i s = .next
    { s.putSlot s.ctx (some { c with todo := rest, rx := c.rx ++ [s.rxIn] }) with
      history := s.history ++ [.xchg b s.rxIn s.bitOrder s.ctx] } := by
  rw [exec_block h hc, perform_xchg_byte, State.emit, State.putSlot_history]

/-- An exchange of byte k of PB: what PB holds, or a free value once a client changed PB in flight (I9). -/
theorem exec_xchg_payload {k : Nat} (h : s.executes i c) (hc : c.todo = .xchg (.payload k) :: rest) : exec i s = .next
    { s.putSlot s.ctx (some { c with todo := rest, rx := c.rx ++ [s.rxIn] }) with
      history := s.history ++ [.xchg (txByte (.payload k) c s) s.rxIn s.bitOrder s.ctx],
      draws := s.draws + (if c.tainted then 1 else 0) } := by
  have hdrawn : txDrawn (.payload k) c s = { s with draws := s.draws + (if c.tainted then 1 else 0) } := by
    cases ht : c.tainted <;> simp [txDrawn, ht, State.countDraw]
  rw [exec_block h hc]
  simp only [perform]
  rw [show txDrawn (.payload k) { c with todo := rest } s = txDrawn (.payload k) c s from rfl, hdrawn]
  cases s.ctx <;> rfl

end

/-- Settles O31: a frame's exchange is the next primitive of its block. -/
theorem wireFramesExchangeTheirBytes : Obligations.WireFramesExchangeTheirBytes := by
  unfold Obligations.WireFramesExchangeTheirBytes
  intro s c role b rest hf hs u hu
  subst hu
  have frame {f : Frame} (hp : c.point = .frame f role) : s.executes (frameInstr f) c := executes_frame hf hs hp
  refine ⟨fun hc off val len => ⟨fun hp => ?_, fun hp => ?_, fun hp => ?_, fun hp => ?_⟩, fun k len hc hp => ⟨fun ht => ?_, fun ht => ?_⟩⟩
  iterate 4 exact exec_xchg_byte (frame hp) hc
  · rw [exec_xchg_payload (i := .fifoWrite len) (frame hp) hc]
    simp [txByte, ht]
  · rw [exec_xchg_payload (i := .fifoWrite len) (frame hp) hc, ht]
    exact ⟨_, rfl⟩

end Sys2Proof.Machine
end

section
/-! PROOFS. What one step of a command can do, said once for all commands, and what it leaves as it was. -/

namespace Sys2Proof.Machine

/-! ## What a command's step can do, said once -/

/-- A command's pseudocode at the end of a block, for every command; a wire frame has none of its own. -/
def proceed : Instr → InFlight → State → Result
  | .rdreg addr => proceedRdreg addr
  | .wrreg addr val => proceedWrreg addr val
  | .wrbulk count => proceedWrbulk count
  | .fifowr nbits => proceedFifowr nbits
  | .fiford => proceedFiford
  | .fifordall maxBits => proceedFifordall maxBits
  | .pginv => proceedPginv
  | .regRead _ | .regWrite _ _ | .fifoWrite _ | .fifoRead => fun _ _ => .fault .phaseOutOfPlace

/-- A command's step is the driver's, with the command's own pseudocode (R33). -/
theorem exec_command {i : Instr} (h : i.isCommand = true) (s : State) : exec i s = runCommand i (proceed i) s := by
  cases i with
  | regRead _ => cases h
  | regWrite _ _ => cases h
  | fifoWrite _ => cases h
  | fifoRead => cases h
  | _ => rfl

/-- If `c` is in a frame of command `i`'s own access to a paged register, then `cache` is that register's page (R22, R40 (e)). -/
def InFlight.paged (i : Instr) (c : InFlight) (cache : PageCache) : Prop :=
  ∀ f role a, c.point = .frame f role → accessAddr i c = some a → (role = .read ∨ ∃ st, role = .verify .target st) →
    mirrored a = false → cache = .page (pageOf a)

/-- What the pseudocode of command `i` may have computed at the end of `c`'s block, before the next primitive or `return` (log 12):
the cache after a page switch, AB, and free values drawn. -/
structure Prepares (i : Instr) (c : InFlight) (s u : State) : Prop where
  same   : u = { s with pageCache := u.pageCache, ab := u.ab, abTotals := u.abTotals, draws := u.draws }
  cache  : u.pageCache = s.pageCache ∨ fifoFrame i = none ∧ ∃ f, c.point = .frame f (.verify .page .value)
  buffer : (∀ n, i ≠ .fifordall n) → u.ab = s.ab ∧ u.abTotals = s.abTotals

/-- The wire frames command `i` may emit: its FIFO frame, or register frames (R131, R132, R161, R164). -/
def Emits (i : Instr) (f : Frame) : Prop :=
  fifoFrame i = some f ∨ (∃ off, f = .regRead off) ∨ ∃ off val, f = .regWrite off val

/-- `d` is command `c` of `i` at the start of its next block, to be performed in state `u`. -/
structure Begins (i : Instr) (c : InFlight) (s u : State) (d : InFlight) : Prop where
  notPginv : i ≠ .pginv
  word     : d.word = c.word
  todo     : d.todo = blockPrims s.cfg s.ctx d.point
  opens    : d.point = .opened → c.point.inBody = false
  frame    : ∀ f role, d.point = .frame f role → Emits i f ∧ d.rx = []
  paged    : c.paged i s.pageCache → d.paged i u.pageCache

/-- What the step at the end of `c`'s block can be, whichever command `i` is (R33, R34): the first primitive of the next block, the
response, PGINV's one step (R140), FIFO_COUNT_RANGE (R167), or a phase that the command does not have (log 16). -/
inductive EndOfBlock (i : Instr) (c : InFlight) (s : State) : Result → Prop
  | block {u : State} {d : InFlight} (hu : Prepares i c s u) (hd : Begins i c s u d) : EndOfBlock i c s (performNext d u)
  | answer {u : State} (r : ResponseWord) (hu : Prepares i c s u) : EndOfBlock i c s (respond r u)
  | invalidate (hi : i = .pginv) :
      EndOfBlock i c s (respond (statusResponse .ok) ((s.setPageCache .invalid).emit (.pginv s.ctx)))
  | countRange (info : FaultInfo) : EndOfBlock i c s (.next (raiseFault .fifoCountRange info s))
  | outOfPlace : EndOfBlock i c s (.fault .phaseOutOfPlace)

section
variable {i : Instr} {c d : InFlight} {s u : State}

theorem Prepares.refl : Prepares i c s s := ⟨rfl, .inl rfl, fun _ => ⟨rfl, rfl⟩⟩

theorem Prepares.draw (h : Prepares i c s u) (n : Nat) : Prepares i c s { u with draws := n } :=
  ⟨by rw [h.same], h.cache, h.buffer⟩

theorem Prepares.page {f : Frame} (hi : fifoFrame i = none) (hp : c.point = .frame f (.verify .page .value)) (v : PageCache) :
    Prepares i c s (s.setPageCache v) := ⟨rfl, .inr ⟨hi, f, hp⟩, fun _ => ⟨rfl, rfl⟩⟩

theorem Prepares.keeps (h : Prepares i c s u) : s.keeps u := by
  rw [h.same]
  constructor
  case otherSlot => rintro (_ | _) _ <;> rfl
  all_goals rfl

theorem InFlight.paged_of_point {cache : PageCache}
    (h : ∀ f role, d.point = .frame f role → ¬(role = .read ∨ ∃ st, role = .verify .target st)) : d.paged i cache :=
  fun f role _ hp _ hrole _ => absurd hrole (h f role hp)

theorem EndOfBlock.openTransaction (hi : i ≠ .pginv) (hb : c.point.inBody = false) (hu : Prepares i c s u)
    (hw : d.word = c.word) : EndOfBlock i c s (openTransaction d u) := by
  refine .block hu ⟨hi, hw, ?_, fun _ => hb, by simp, fun _ => InFlight.paged_of_point (by simp)⟩
  rw [hu.keeps.cfg, hu.keeps.ctx]; rfl

theorem EndOfBlock.closeTransaction (hi : i ≠ .pginv) (hu : Prepares i c s u) (hw : d.word = c.word) (ok : Bool) :
    EndOfBlock i c s (closeTransaction ok d u) := by
  refine .block hu ⟨hi, hw, ?_, by simp, by simp, fun _ => InFlight.paged_of_point (by simp)⟩
  rw [hu.keeps.cfg, hu.keeps.ctx]; rfl

theorem EndOfBlock.startFrame {f : Frame} {role : Role} (hi : i ≠ .pginv) (hu : Prepares i c s u) (hw : d.word = c.word)
    (hf : Emits i f) (hp : c.paged i s.pageCache → ({ d with point := .frame f role } : InFlight).paged i u.pageCache) :
    EndOfBlock i c s (startFrame f role d u) := by
  rw [startFrame_eq]
  refine .block hu ⟨hi, hw, ?_, by simp, ?_, hp⟩
  · rw [hu.keeps.cfg]; rfl
  · rintro g r ⟨⟩; exact ⟨hf, rfl⟩

/-- A page-select frame is no frame of the command's own access. -/
theorem InFlight.paged_pageSwitch {f : Frame} {st : Stage} {cache : PageCache} :
    ({ d with point := .frame f (.verify .page st) } : InFlight).paged i cache :=
  InFlight.paged_of_point (by rintro g r ⟨⟩; simp)

theorem EndOfBlock.beginWrite_page {off val : Byte} (hi : i ≠ .pginv) (hu : Prepares i c s u) (hw : d.word = c.word) :
    EndOfBlock i c s (beginWrite .page off val d u) :=
  .startFrame hi hu hw (.inr (.inr ⟨_, _, rfl⟩)) fun _ => InFlight.paged_pageSwitch

/-- `EnsurePage`: what follows it at once finds the page in the cache, or needs none. -/
theorem EndOfBlock.ensurePage {a : RegAddr} {go : InFlight → State → Result} (hi : i ≠ .pginv) (hu : Prepares i c s u)
    (hw : d.word = c.word) (hgo : (mirrored a = true ∨ u.pageCache = .page (pageOf a)) → EndOfBlock i c s (go d u)) :
    EndOfBlock i c s (ensurePage a go d u) := by
  by_cases h : mirrored a = true ∨ u.pageCache = .page (pageOf a)
  · rw [ensurePage_here go h]; exact hgo h
  · rw [ensurePage_elsewhere go h]; exact .beginWrite_page hi hu hw

/-- From one frame of a verified write to the next, the command is at the same access. -/
theorem InFlight.paged_verify {f g : Frame} {w : Purpose} {st st' : Stage} {cache : PageCache} (hp : c.point = .frame f (.verify w st))
    (hd : accessAddr i d = accessAddr i c) (h : c.paged i cache) :
    ({ d with point := .frame g (.verify w st') } : InFlight).paged i cache := by
  rintro _ _ a ⟨⟩ ha hrole hm
  cases w with
  | page => simp at hrole
  | target => exact h f _ a hp (hd.symm.trans ha) (.inr ⟨st, rfl⟩) hm

theorem EndOfBlock.continueWrite {f : Frame} {w : Purpose} {st : Stage} {off val : Byte} {done : Bool → InFlight → State → Result}
    (hi : i ≠ .pginv) (hp : c.point = .frame f (.verify w st))
    (hdone : st = .value → ∀ ok, EndOfBlock i c s (done ok c s)) : EndOfBlock i c s (continueWrite w st off val c s done) := by
  cases st with
  | write => exact .startFrame hi .refl rfl (.inr (.inl ⟨_, rfl⟩)) (InFlight.paged_verify hp rfl)
  | addr => exact .startFrame hi .refl rfl (.inr (.inl ⟨_, rfl⟩)) (InFlight.paged_verify (d := { c with shadowA := _ }) hp rfl)
  | value =>
    simp only [Machine.continueWrite]
    split
    · exact hdone rfl true
    · split
      · exact .startFrame hi .refl rfl (.inr (.inr ⟨_, _, rfl⟩)) (InFlight.paged_verify (d := { c with attempt := _ }) hp rfl)
      · exact hdone rfl false

theorem EndOfBlock.continuePage {f : Frame} {a : RegAddr} {st : Stage} {go : InFlight → State → Result} (hi : i ≠ .pginv)
    (hf : fifoFrame i = none) (hp : c.point = .frame f (.verify .page st))
    (hgo : ∀ u, Prepares i c s u → u.pageCache = .page (pageOf a) → EndOfBlock i c s (go c u)) :
    EndOfBlock i c s (continuePage a st go c s) := by
  refine .continueWrite hi hp fun hst ok => ?_
  subst hst
  cases ok with
  | true => exact hgo _ (.page hf hp _) rfl
  | false => exact .closeTransaction hi (.page hf hp _) rfl false

end

section
variable {i : Instr} {c d : InFlight} {s u : State}

/-- An access begun with its page in the cache, or with no page needed, is at its page. -/
theorem InFlight.paged_access {a : RegAddr} {cache : PageCache} (ha : accessAddr i d = some a)
    (h : mirrored a = true ∨ cache = .page (pageOf a)) : d.paged i cache := by
  intro f role b _ hb _ hm
  cases ha.symm.trans hb
  exact h.resolve_left (by simp [hm])

theorem EndOfBlock.beginRead {addr : RegAddr} (hu : Prepares (.rdreg addr) c s u)
    (hp : mirrored addr = true ∨ u.pageCache = .page (pageOf addr)) :
    EndOfBlock (.rdreg addr) c s (beginRead (offsetOf addr) c u) :=
  .startFrame (by simp) hu rfl (.inr (.inl ⟨_, rfl⟩)) fun _ => InFlight.paged_access rfl hp

theorem EndOfBlock.beginWrite {a : RegAddr} {off val : Byte} (hi : i ≠ .pginv) (hu : Prepares i c s u) (hw : d.word = c.word)
    (ha : accessAddr i d = some a) (hp : mirrored a = true ∨ u.pageCache = .page (pageOf a)) :
    EndOfBlock i c s (beginWrite .target off val d u) :=
  .startFrame hi hu hw (.inr (.inr ⟨_, _, rfl⟩)) fun _ => InFlight.paged_access (by rw [← ha]; rfl) hp

theorem proceedRdreg_ends (addr : RegAddr) : EndOfBlock (.rdreg addr) c s (proceedRdreg addr c s) := by
  unfold proceedRdreg
  split
  next hp => exact .openTransaction (by simp) (by rw [hp]; rfl) .refl rfl
  next => exact .ensurePage (by simp) .refl rfl fun hpage => .beginRead .refl hpage
  next hp => exact .continuePage (by simp) rfl hp fun _ hu hcache => .beginRead hu (.inr hcache)
  next => exact .closeTransaction (by simp) .refl rfl true
  next => exact .outOfPlace
  next => exact .outOfPlace
  next =>
    unfold finishRdreg
    split
    · exact .answer _ .refl
    · exact .answer _ (Prepares.refl.draw _)

theorem proceedWrreg_ends (addr : RegAddr) (val : Byte) : EndOfBlock (.wrreg addr val) c s (proceedWrreg addr val c s) := by
  unfold proceedWrreg
  split
  next hp => exact .openTransaction (by simp) (by rw [hp]; rfl) .refl rfl
  next => exact .ensurePage (by simp) .refl rfl fun hpage => .beginWrite (by simp) .refl rfl rfl hpage
  next hp => exact .continuePage (by simp) rfl hp fun _ hu hcache => .beginWrite (by simp) hu rfl rfl (.inr hcache)
  next hp => exact .continueWrite (by simp) hp fun _ ok => .closeTransaction (by simp) .refl rfl ok
  next => exact .outOfPlace
  next => exact .outOfPlace
  next => exact .answer _ .refl

theorem nextEntry_ends (count : BitVec 16) (hw : d.word = c.word) : EndOfBlock (.wrbulk count) c s (nextEntry count d s) := by
  have hdrawn : Prepares (.wrbulk count) c s (bulkDrawn d s) := by
    rw [bulkDrawn_same]; exact Prepares.refl.draw _
  unfold nextEntry
  split
  · exact .ensurePage (by simp) hdrawn hw fun hpage => .beginWrite (by simp) hdrawn hw rfl hpage
  · exact .closeTransaction (by simp) .refl hw true

theorem proceedWrbulk_ends (count : BitVec 16) : EndOfBlock (.wrbulk count) c s (proceedWrbulk count c s) := by
  unfold proceedWrbulk
  split
  next hp => exact .openTransaction (by simp) (by rw [hp]; rfl) .refl rfl
  next => exact nextEntry_ends count rfl
  next hp => exact .continuePage (by simp) rfl hp fun _ hu hcache => .beginWrite (by simp) hu rfl rfl (.inr hcache)
  next hp =>
    refine .continueWrite (by simp) hp fun _ ok => ?_
    unfold afterEntry
    split
    · exact nextEntry_ends count rfl
    · exact .closeTransaction (by simp) .refl rfl false
  next => exact .outOfPlace
  next => exact .outOfPlace
  next => exact .answer _ .refl

/-- A FIFO command's frame is no access to a register. -/
theorem EndOfBlock.startFifo {f : Frame} (hf : fifoFrame i = some f) (hi : i ≠ .pginv) :
    EndOfBlock i c s (Machine.startFrame f .fifo c s) :=
  .startFrame hi .refl rfl (.inl hf) fun _ => InFlight.paged_of_point (by rintro _ _ ⟨⟩; simp)

theorem closeFifoRead_ends (hi : i ≠ .pginv) : EndOfBlock i c s (closeFifoRead c s) := by
  unfold closeFifoRead
  split
  · exact .countRange _
  · exact .closeTransaction hi .refl rfl true
  · exact .closeTransaction hi .refl rfl true

theorem proceedFifowr_ends (nbits : BitVec 9) : EndOfBlock (.fifowr nbits) c s (proceedFifowr nbits c s) := by
  unfold proceedFifowr
  split
  next hp => exact .openTransaction (by simp) (by rw [hp]; rfl) .refl rfl
  next => exact .startFifo rfl (by simp)
  next => exact .closeTransaction (by simp) .refl rfl true
  next => exact .outOfPlace
  next => exact .outOfPlace
  next => exact .answer _ .refl

theorem proceedFiford_ends : EndOfBlock .fiford c s (proceedFiford c s) := by
  unfold proceedFiford
  split
  next hp => exact .openTransaction (by simp) (by rw [hp]; rfl) .refl rfl
  next => exact .startFifo rfl (by simp)
  next => exact closeFifoRead_ends (by simp)
  next => exact .outOfPlace
  next => exact .outOfPlace
  next =>
    unfold finishFiford
    split
    · exact .answer _ .refl
    · exact .answer _ .refl
    · exact .outOfPlace

theorem afterFrame_ends (maxBits : BitVec 16) (hb : c.point.inBody = false) :
    EndOfBlock (.fifordall maxBits) c s (afterFrame maxBits c s) := by
  have buffer {m : Memory Bool} {totals : List Nat} : Prepares (.fifordall maxBits) c s { s with ab := m, abTotals := totals } :=
    ⟨rfl, .inl rfl, fun h => absurd rfl (h maxBits)⟩
  unfold afterFrame finishFifordall
  split
  · exact .answer _ buffer
  · split
    · exact .answer _ buffer
    · split
      · exact .answer _ buffer
      · exact .openTransaction (by simp) hb buffer rfl
  · exact .outOfPlace

theorem proceedFifordall_ends (maxBits : BitVec 16) : EndOfBlock (.fifordall maxBits) c s (proceedFifordall maxBits c s) := by
  unfold proceedFifordall
  split
  next hp => exact .openTransaction (by simp) (by rw [hp]; rfl) .refl rfl
  next => exact .startFifo rfl (by simp)
  next => exact closeFifoRead_ends (by simp)
  next => exact .outOfPlace
  next => exact .outOfPlace
  next hp => exact afterFrame_ends maxBits (by rw [hp]; rfl)

theorem proceedPginv_ends : EndOfBlock .pginv c s (proceedPginv c s) := by
  unfold proceedPginv
  split
  next => exact .invalidate rfl
  all_goals exact .outOfPlace

/-- What a command's pseudocode can do at the end of a block. -/
theorem proceed_ends (i : Instr) (c : InFlight) (s : State) : EndOfBlock i c s (proceed i c s) := by
  cases i with
  | rdreg addr => exact proceedRdreg_ends addr
  | wrreg addr val => exact proceedWrreg_ends addr val
  | wrbulk count => exact proceedWrbulk_ends count
  | fifowr nbits => exact proceedFifowr_ends nbits
  | fiford => exact proceedFiford_ends
  | fifordall maxBits => exact proceedFifordall_ends maxBits
  | pginv => exact proceedPginv_ends
  | _ => exact .outOfPlace

end

section
variable {i : Instr} {c d : InFlight} {s t u : State}

/-- A block whose first primitive is an exchange is a frame, and the frame fixes the byte (R88-R90). -/
theorem blockPrims_head_xchg {cfg : Config} {x : Ctx} {pt : Point} {src : TxSource} {rest : List Prim}
    (h : blockPrims cfg x pt = .xchg src :: rest) : ∃ f role b, pt = .frame f role ∧ src = .byte b := by
  have hm : Prim.xchg src ∈ blockPrims cfg x pt := by rw [h]; exact List.mem_cons_self
  cases pt with
  | accepted => cases h
  | opened => simp [blockPrims, openPrims] at hm
  | closed => simp [blockPrims, closePrims] at hm
  | frame f role =>
    obtain ⟨p, l, hp, hhead⟩ := framePrims_head cfg f
    cases hp.symm.trans h
    rcases hhead with hcs | ⟨b, hb⟩
    · cases hcs
    · exact ⟨f, role, b, rfl, Prim.xchg.inj hb⟩

/-- A frame drives chip-select and the bit order and exchanges bytes, and nothing else (R195, R88-R90). -/
theorem mem_framePrims {cfg : Config} {f : Frame} {p : Prim} (h : p ∈ framePrims cfg f) :
    p = .csAssert ∨ p = .csDeassert ∨ (∃ o, p = .order o) ∨ ∃ src, p = .xchg src := by
  have body (hb : p ∈ frameBody cfg f) : (∃ o, p = .order o) ∨ ∃ src, p = .xchg src := by
    cases f <;> simp only [frameBody, List.mem_cons, List.mem_append, List.mem_map, List.not_mem_nil, or_false] at hb <;> grind
  unfold framePrims at h
  split at h
  · rcases List.mem_append.mp h with h | h
    · rcases List.mem_cons.mp h with rfl | h
      · exact .inl rfl
      · exact .inr (.inr (body h))
    · exact .inr (.inl (List.mem_singleton.mp h))
  · exact .inr (.inr (body h))

/-- LOCK_ACQ is in no block but a transaction's opening (R194, R195). -/
theorem lockAcq_mem_block {cfg : Config} {x : Ctx} {pt : Point} (h : .lockAcq ∈ blockPrims cfg x pt) : pt = .opened := by
  cases pt with
  | accepted => cases h
  | opened => rfl
  | closed => simp [blockPrims, closePrims] at h
  | frame f role => simpa using mem_framePrims h

/-- A step of command `i` in the running context (R33, R34, R93, R215): all it can do. -/
inductive CommandStep (i : Instr) (s t : State) : Prop
  | halted (hf : s.fault ≠ .noFault) (ht : t = s)
  | accepts (hf : s.fault = .noFault) (hs : s.slot s.ctx = none) (ht : t = s.putSlot s.ctx (some (freshCommand (encode i))))
  | raises (code : FaultCode) (info : FaultInfo) (hcode : code ≠ .noFault)
      (hlock : code = .lockReentry → ∀ c, ¬ s.runs i c) (ht : t = raiseFault code info s)
  | reenters (c : InFlight) (u : State) (info : FaultInfo) (hr : s.runs i c) (hu : Prepares i c s u) (hend : c.todo = [] ∨ u = s)
      (hheld : s.lockHeld = true) (hc : c.holdsLock = false) (ht : t = raiseFault .lockReentry info u)
  | goesOn (c d : InFlight) (p : Prim) (hr : s.runs i c) (hc : c = { d with todo := p :: d.todo }) (ht : Performed p d s t)
  | begins (c d : InFlight) (u : State) (p : Prim) (hr : s.runs i c) (hc : c.todo = []) (hu : Prepares i c s u)
      (hd : Begins i c s u { d with todo := p :: d.todo }) (ht : Performed p d u t)
  | answers (c : InFlight) (u : State) (r : ResponseWord) (hr : s.runs i c) (hc : c.todo = []) (hu : Prepares i c s u)
      (ht : t = (u.putSlot s.ctx none).emit (.resp s.ctx r))
  | invalidates (c : InFlight) (r : ResponseWord) (hi : i = .pginv) (hr : s.runs i c) (hc : c.todo = [])
      (ht : t = ((((s.setPageCache .invalid).emit (.pginv s.ctx)).putSlot s.ctx none).emit (.resp s.ctx r)))

theorem CommandStep.of_accept (hf : s.fault = .noFault) (hs : s.slot s.ctx = none) (h : accept i s = .next t) :
    CommandStep i s t := by
  cases ha : acceptFault i s with
  | none =>
    rw [accept_none s i ha] at h
    exact .accepts hf hs (Host.Outcome.next.inj h).symm
  | some fe =>
    rw [accept_some s i fe.1 fe.2 ha] at h
    refine .raises _ _ ?_ ?_ (Host.Outcome.next.inj h).symm
    · cases fe.1 <;> simp [operandFaultCode]
    · cases fe.1 <;> simp [operandFaultCode]

theorem CommandStep.of_block {p : Prim} {rest : List Prim} (hr : s.runs i c) (hc : c.todo = p :: rest)
    (h : performNext c s = .next t) : CommandStep i s t := by
  rw [performNext_cons c s p rest hc] at h
  rcases perform_next h with hp | ⟨rfl, hheld, ht⟩
  · exact .goesOn c _ p hr (by rw [← hc]) hp
  · exact .reenters c s _ hr .refl (.inr rfl) hheld (by simp [InFlight.holdsLock, hc, flagNow]) ht

theorem CommandStep.of_end (hr : s.runs i c) (hc : c.todo = []) {r : Result} (h : EndOfBlock i c s r) (hrt : r = .next t) :
    CommandStep i s t := by
  cases h with
  | @block u d hu hd =>
    cases hblock : d.todo with
    | nil => simp [performNext, hblock] at hrt
    | cons p rest =>
      rw [performNext_cons d u p rest hblock] at hrt
      rcases perform_next hrt with hp | ⟨rfl, hheld, ht⟩
      · exact .begins c _ u p hr hc hu (by rw [← hblock]; exact hd) hp
      · have hopen : d.point = .opened := lockAcq_mem_block (by rw [← hd.todo, hblock]; exact List.mem_cons_self)
        refine .reenters c u _ hr hu (.inl hc) (by rw [hu.same] at hheld; exact hheld) ?_ ht
        rw [InFlight.holdsLock, hc, flagNow]
        exact hd.opens hopen
  | answer r hu =>
    have ht := (Host.Outcome.next.inj hrt).symm
    rw [hu.keeps.ctx] at ht
    exact .answers c _ r hr hc hu ht
  | invalidate hi => exact .invalidates c _ hi hr hc (Host.Outcome.next.inj hrt).symm
  | countRange info => exact .raises _ info (by simp) (by simp) (Host.Outcome.next.inj hrt).symm
  | outOfPlace => cases hrt

/-- What one step of a command can do, said once. -/
theorem exec_step (hi : i.isCommand = true) (h : exec i s = .next t) : CommandStep i s t := by
  rw [exec_command hi] at h
  by_cases hf : s.fault = .noFault
  · cases hs : s.slot s.ctx with
    | none =>
      rw [runCommand_idle s i _ hf hs] at h
      exact .of_accept hf hs h
    | some c =>
      by_cases hw : c.word = encode i
      · cases hc : c.todo with
        | nil =>
          rw [runCommand_proceed hf hs hw hc] at h
          exact .of_end ⟨hf, hs, hw⟩ hc (proceed_ends i c s) h
        | cons p rest =>
          rw [runCommand_block hf hs hw hc, ← performNext_cons c s p rest hc] at h
          exact .of_block ⟨hf, hs, hw⟩ hc h
      · rw [runCommand_other hf hs hw] at h
        refine .raises _ _ (by simp) ?_ (reentry_next h)
        rintro - d ⟨-, hd, hwd⟩
        cases hs.symm.trans hd
        exact hw hwd
  · rw [runCommand_halted s i _ hf] at h
    exact .halted hf (Host.Outcome.next.inj h).symm

/-- What a primitive does to mask, lock, chip-select, bit order and history depends on these and the running context alone. -/
theorem State.performs.of_same {p : Prim} {tx rx : Byte} (h : u.performs p tx rx t) (hu : u =
    { s with pageCache := u.pageCache, ab := u.ab, abTotals := u.abTotals, draws := u.draws, rxIn := u.rxIn }) :
    s.performs p tx rx t := by
  rw [hu] at h
  cases p <;> exact ⟨h.irqMasked, h.lockHeld, h.lockOwner, h.csAsserted, h.bitOrder, h.history⟩

/-- The step that begins a block takes its first primitive, and the command keeps the rest (log 5). -/
theorem begins_performs {q : Byte} (h : s.begins i c q t d) : ∃ u p e, Prepares i c (s.receive q) u ∧
    Begins i c (s.receive q) u { e with todo := p :: e.todo } ∧ Performed p e u t := by
  obtain ⟨hi, ⟨hf, hs, hw⟩, hc, hexec, hnofault, hslot⟩ := h
  have same {e : InFlight} (hr : (s.receive q).runs i e) : e = c := by
    have he : s.slot s.ctx = some e := by simpa using hr.2.1
    exact Option.some.inj (he.symm.trans hs)
  cases exec_step hi hexec with
  | halted hf' => exact absurd hf hf'
  | accepts _ hs' => exact absurd (hs'.symm.trans (by simpa using hs)) (by simp)
  | raises code info hcode _ ht => exact absurd (by rw [← hnofault, ht]; rfl) hcode
  | reenters c' u info _ _ _ _ _ ht => rw [ht] at hnofault; cases hnofault
  | goesOn c' e p hr hce =>
    rw [same hr] at hce
    rw [hce] at hc; cases hc
  | begins c' e u p hr _ hu hd hp =>
    rw [same hr] at hu hd
    exact ⟨u, p, e, hu, hd, hp⟩
  | answers c' u r _ _ hu ht => rw [ht] at hslot; simp at hslot
  | invalidates c' r _ _ _ ht => rw [ht] at hslot; simp at hslot

end

/-- Settles O30: inside a block by the law of each primitive, at the end of one by what its step can do. -/
theorem eachPrimitiveIsOneStep : Obligations.EachPrimitiveIsOneStep := by
  unfold Obligations.EachPrimitiveIsOneStep
  constructor
  · intro s i c p rest h hc hfree u hu
    have hh : u.history = s.history := by rw [hu, State.putSlot_history]
    rw [← hh]
    cases p with
    | lockAcq =>
      refine ⟨0, by simp, ?_⟩
      rw [exec_block h hc, perform_lockAcq_free _ _ (hfree rfl), ← hu]
      rfl
    | xchg src =>
      rw [hh]
      cases src with
      | byte b => exact ⟨0, by simp, exec_xchg_byte h hc⟩
      | payload k =>
        refine ⟨txByte (.payload k) c s, ?_, exec_xchg_payload h hc⟩
        rintro ht _ ⟨⟩
        simp [txByte, ht]
    | _ =>
      refine ⟨0, by simp, ?_⟩
      rw [exec_block h hc, hu]
      rfl
  · intro s i c q t d h
    have hslot : t.slot s.ctx = some d := h.2.2.2.2.2
    obtain ⟨u, p, e, hu, hd, hp⟩ := begins_performs h
    obtain ⟨tx, heffect, htx⟩ := hp.effect
    obtain ⟨rx, hrx, hanswer⟩ := hp.slot
    have hq : u.rxIn = q := hu.keeps.rxIn
    have hde : d = { e with rx := rx } := by
      rw [hu.keeps.ctx] at hrx
      exact Option.some.inj (hslot.symm.trans hrx)
    subst hde
    have hblock : blockPrims s.cfg s.ctx e.point = p :: e.todo := hd.todo.symm
    have hsame : s.performs p tx u.rxIn t := heffect.of_same (by rw [hq]; exact hu.same)
    rw [hq] at hsame
    refine ⟨p, tx, hblock, hsame, fun hl => ?_, ?_⟩
    · have := hp.free hl
      rwa [hu.same] at this
    · rintro src rfl
      obtain ⟨f, role, b, hpt, rfl⟩ := blockPrims_head_xchg hblock
      have hempty : e.rx = [] := (hd.frame f role hpt).2
      exact ⟨by rw [htx b rfl], by simp [hanswer _ rfl, hempty, hq]⟩

/-! ## What a command's step leaves as it was -/

section
variable {i : Instr} {c d : InFlight} {s t u : State}

theorem State.keeps_raise (s : State) (code : FaultCode) (info : FaultInfo) : s.keeps (raiseFault code info s) := by
  constructor <;> simp

theorem State.keeps_answer (s : State) (r : ResponseWord) :
    s.keeps ((s.putSlot s.ctx none).emit (.resp s.ctx r)) :=
  (s.keeps_putSlot none).trans (by constructor <;> simp)

/-- No step of a command touches the surroundings (R36). -/
theorem CommandStep.keeps (h : CommandStep i s t) : s.keeps t := by
  cases h with
  | halted _ ht => rw [ht]; constructor <;> simp
  | accepts _ _ ht => rw [ht]; exact s.keeps_putSlot _
  | raises code info _ _ ht => rw [ht]; exact s.keeps_raise code info
  | reenters c u info _ hu _ _ _ ht => rw [ht]; exact hu.keeps.trans (u.keeps_raise _ info)
  | goesOn c d p _ _ hp => exact hp.keeps
  | begins c d u p _ _ hu _ hp => exact hu.keeps.trans hp.keeps
  | answers c u r _ _ hu ht => rw [ht, ← hu.keeps.ctx]; exact hu.keeps.trans (u.keeps_answer r)
  | invalidates c r _ _ _ ht =>
    rw [ht]
    have hmid : s.keeps ((s.setPageCache .invalid).emit (.pginv s.ctx)) := by constructor <;> simp
    exact hmid.trans (State.keeps_answer _ r)

/-- The running context's command is at the end of a page switch's last read-back (R134, R135). -/
def State.endsPageSwitch (s : State) : Prop :=
  ∃ c f, s.slot s.ctx = some c ∧ c.point = .frame f (.verify .page .value) ∧ c.todo = []

theorem Prepares.pageCache (hu : Prepares i c s u) (hr : s.runs i c) (hc : c.todo = []) :
    u.pageCache = s.pageCache ∨ fifoFrame i = none ∧ s.endsPageSwitch :=
  hu.cache.imp_right fun ⟨hi, f, hp⟩ => ⟨hi, c, f, hr.2.1, hp, hc⟩

/-- The cache changes only in PGINV's step and at the end of a page switch (R22, R135, R140). -/
theorem CommandStep.pageCache (h : CommandStep i s t) :
    t.pageCache = s.pageCache ∨ i = .pginv ∨ fifoFrame i = none ∧ s.endsPageSwitch := by
  cases h with
  | halted _ ht => exact .inl (by rw [ht])
  | accepts _ _ ht => exact .inl (by simp [ht])
  | raises code info _ _ ht => exact .inl (by simp [ht])
  | reenters c u info hr hu hend _ _ ht =>
    rcases hend with hc | rfl
    · rw [ht, raiseFault_pageCache]; exact (hu.pageCache hr hc).imp_right .inr
    · exact .inl (by simp [ht])
  | goesOn c d p _ _ hp => exact .inl hp.cache
  | begins c d u p hr hc hu _ hp => rw [hp.cache]; exact (hu.pageCache hr hc).imp_right .inr
  | answers c u r hr hc hu ht =>
    rw [ht, State.emit_pageCache, State.putSlot_pageCache]; exact (hu.pageCache hr hc).imp_right .inr
  | invalidates c r hi => exact .inr (.inl hi)

/-- AB changes only in FIFORDALL's steps (R58, R169). -/
theorem CommandStep.buffer (h : CommandStep i s t) (hi : ∀ n, i ≠ .fifordall n) : t.ab = s.ab ∧ t.abTotals = s.abTotals := by
  cases h with
  | halted _ ht => simp [ht]
  | accepts _ _ ht => simp [ht]
  | raises code info _ _ ht => simp [ht]
  | reenters c u info _ hu _ _ _ ht => simpa [ht] using hu.buffer hi
  | goesOn c d p _ _ hp => exact hp.buffer
  | begins c d u p _ _ hu _ hp => exact ⟨hp.buffer.1.trans (hu.buffer hi).1, hp.buffer.2.trans (hu.buffer hi).2⟩
  | answers c u r _ _ hu ht => simpa [ht] using hu.buffer hi
  | invalidates c r _ _ _ ht => simp [ht]

/-- `p` stands in some block of command `i` in context `x` (R194, R195). -/
def InBlock (i : Instr) (cfg : Config) (x : Ctx) (p : Prim) : Prop :=
  ∃ pt, p ∈ blockPrims cfg x pt ∧ ∀ f role, pt = .frame f role → Emits i f

/-- The interrupt context never touches the mask (R194, R196). -/
theorem InBlock.ne_mask {cfg : Config} {p : Prim} (h : InBlock i cfg .isr p) : p ≠ .mask ∧ p ≠ .unmask := by
  obtain ⟨pt, hp, -⟩ := h
  constructor <;> rintro rfl
  all_goals
    cases pt with
    | accepted => cases hp
    | opened => simp [blockPrims, openPrims] at hp
    | closed => simp [blockPrims, closePrims] at hp
    | frame f role => simpa using mem_framePrims hp

/-- A command without a FIFO frame never touches the bit order (R27, R131, R132). -/
theorem InBlock.ne_order {cfg : Config} {x : Ctx} {p : Prim} (h : InBlock i cfg x p) (hi : fifoFrame i = none) (o : BitOrder) :
    p ≠ .order o := by
  obtain ⟨pt, hp, hf⟩ := h
  rintro rfl
  cases pt with
  | accepted => cases hp
  | opened => simp [blockPrims, openPrims] at hp
  | closed => simp [blockPrims, closePrims] at hp
  | frame f role =>
    rcases hf f role rfl with hfifo | ⟨off, rfl⟩ | ⟨off, val, rfl⟩
    · rw [hi] at hfifo; cases hfifo
    · simp only [blockPrims, framePrims] at hp
      split at hp <;> simp [frameBody] at hp
    · simp only [blockPrims, framePrims] at hp
      split at hp <;> simp [frameBody] at hp

/-- The frame a phase is in is one its command emits. -/
theorem emits_of_frameFor {cfg : Config} {f : Frame} {role : Role} (h : frameFor cfg i c role = some f) : Emits i f := by
  have verify (off val : Byte) (st : Stage) : Emits i (verifyFrame cfg off val st) := by
    cases st with
    | write => exact .inr (.inr ⟨_, _, rfl⟩)
    | addr => exact .inr (.inl ⟨_, rfl⟩)
    | value => exact .inr (.inl ⟨_, rfl⟩)
  cases role with
  | fifo => exact .inl h
  | read =>
    obtain ⟨a, -, rfl⟩ := Option.map_eq_some_iff.mp h
    exact .inr (.inl ⟨_, rfl⟩)
  | verify g st =>
    cases g with
    | target =>
      obtain ⟨e, -, rfl⟩ := Option.map_eq_some_iff.mp h
      exact verify _ _ st
    | page =>
      obtain ⟨a, -, ha⟩ := Option.bind_eq_some_iff.mp h
      unfold pageWrite at ha
      split at ha
      · cases ha
      · cases ha; exact verify _ _ st

/-- The next primitive of a command whose phase is one of its own stands in one of its blocks; PGINV has none. -/
theorem inBlock_of_placed {cfg : Config} {x : Ctx} {p : Prim} {rest : List Prim} (h : c.placed cfg x i) (hc : c.todo = p :: rest) :
    i ≠ .pginv ∧ InBlock i cfg x p := by
  have next {block : List Prim} (hb : leftOf c.todo block) : p ∈ block := hb.subset (by rw [hc]; exact List.mem_cons_self)
  unfold InFlight.placed at h
  split at h
  next => rw [hc] at h; cases h
  next => exact ⟨h.1, .opened, next h.2, by simp⟩
  next f role _ =>
    obtain ⟨hf, hb, -⟩ := h
    refine ⟨?_, .frame f role, next hb, ?_⟩
    · rintro rfl
      cases role with
      | verify g st => cases g <;> cases hf
      | _ => cases hf
    · rintro g r ⟨⟩; exact emits_of_frameFor hf
  next => exact ⟨h.1, .closed, next h.2.1, by simp⟩

theorem Begins.inBlock {p : Prim} (h : Begins i c s u { d with todo := p :: d.todo }) : InBlock i s.cfg s.ctx p := by
  refine ⟨d.point, ?_, fun f role hp => (h.frame f role hp).1⟩
  rw [← h.todo]; exact List.mem_cons_self

/-- The fields that primitives alone write are as they were, or the step is one primitive of the command's blocks. -/
theorem CommandStep.primitive (h : CommandStep i s t) (hplaced : ∀ c, s.runs i c → c.placed s.cfg s.ctx i) :
    (t.irqMasked = s.irqMasked ∧ t.lockHeld = s.lockHeld ∧ t.lockOwner = s.lockOwner ∧ t.csAsserted = s.csAsserted ∧
      t.bitOrder = s.bitOrder) ∨
    ∃ p tx rx, i ≠ .pginv ∧ InBlock i s.cfg s.ctx p ∧ s.performs p tx rx t := by
  cases h with
  | halted _ ht => exact .inl (by simp [ht])
  | accepts _ _ ht => exact .inl (by simp [ht])
  | raises code info _ _ ht => exact .inl (by simp [ht])
  | reenters c u info _ hu _ _ _ ht => rw [hu.same] at ht; exact .inl (by simp [ht])
  | goesOn c d p hr hc hp =>
    obtain ⟨hi, hblock⟩ := inBlock_of_placed (p := p) (rest := d.todo) (hplaced c hr) (by rw [hc])
    obtain ⟨tx, heffect, -⟩ := hp.effect
    exact .inr ⟨p, tx, _, hi, hblock, heffect⟩
  | begins c d u p hr hc hu hd hp =>
    obtain ⟨tx, heffect, -⟩ := hp.effect
    exact .inr ⟨p, tx, _, hd.notPginv, hd.inBlock, heffect.of_same (by rw [hu.same])⟩
  | answers c u r _ _ hu ht => rw [hu.same] at ht; exact .inl (by simp [ht])
  | invalidates c r _ _ _ ht => exact .inl (by simp [ht])

theorem CommandStep.irqMasked (h : CommandStep i s t) (hplaced : ∀ c, s.runs i c → c.placed s.cfg s.ctx i) (hx : s.ctx = .isr) :
    t.irqMasked = s.irqMasked := by
  rcases h.primitive hplaced with hsame | ⟨p, tx, rx, -, hblock, heffect⟩
  · exact hsame.1
  · rw [hx] at hblock
    obtain ⟨hm, hu⟩ := hblock.ne_mask
    rw [heffect.irqMasked]
    split
    · exact absurd rfl hm
    · exact absurd rfl hu
    · rfl

theorem CommandStep.bitOrder (h : CommandStep i s t) (hplaced : ∀ c, s.runs i c → c.placed s.cfg s.ctx i)
    (hi : fifoFrame i = none) : t.bitOrder = s.bitOrder := by
  rcases h.primitive hplaced with hsame | ⟨p, tx, rx, -, hblock, heffect⟩
  · exact hsame.2.2.2.2
  · rw [heffect.bitOrder]
    split
    · exact absurd rfl (hblock.ne_order hi _)
    · rfl

/-! ## The invariant read at a slot -/

theorem State.Inv.legal {x : Ctx} (h : s.Inv) (hs : s.slot x = some c) : c.legal s.cfg x := by
  cases x with
  | fg => exact h.fgLegal c hs
  | isr => exact h.isrLegal c hs

/-- A command in flight is at a phase of the command its word encodes. -/
theorem State.Inv.placed (h : s.Inv) (hi : i.isCommand = true) (hr : s.runs i c) : c.placed s.cfg s.ctx i := by
  obtain ⟨-, hs, hw⟩ := hr
  obtain ⟨j, hj, -, hp, -⟩ := h.legal hs
  rw [hw, decode_encode hi] at hj
  cases hj
  exact hp

end

/-- Settles O54: each clause is read off what one step of a command can do. -/
theorem frameOfRegisterCommands : Obligations.FrameOfRegisterCommands := by
  unfold Obligations.FrameOfRegisterCommands
  intro s t i hinv hi ht
  obtain ⟨hcmd, hfifo, hall⟩ : i.isCommand = true ∧ fifoFrame i = none ∧ ∀ n, i ≠ .fifordall n := by
    rcases hi with ⟨addr, rfl⟩ | ⟨addr, val, rfl⟩ | ⟨count, rfl⟩ | rfl <;> simp [Instr.isCommand, fifoFrame]
  have h := exec_step hcmd ht
  have hplaced : ∀ c, s.runs i c → c.placed s.cfg s.ctx i := fun c => hinv.placed hcmd
  refine ⟨h.keeps, (h.buffer hall).1, (h.buffer hall).2, h.bitOrder hplaced hfifo, fun hc => ?_, h.irqMasked hplaced, fun hp => ?_⟩
  · rcases h.pageCache with hsame | hp | ⟨-, hswitch⟩
    · exact absurd hsame hc
    · exact .inl hp
    · exact .inr hswitch
  · rcases h.primitive hplaced with ⟨hm, hl, ho, hcs, -⟩ | ⟨p, tx, rx, hne, -⟩
    · exact ⟨hl, ho, hm, hcs⟩
    · exact absurd hp hne

/-- Settles O55: each clause is read off what one step of a command can do. -/
theorem frameOfFifoCommands : Obligations.FrameOfFifoCommands := by
  unfold Obligations.FrameOfFifoCommands
  intro s t i hinv hi ht
  obtain ⟨hcmd, hfifo, hne⟩ : i.isCommand = true ∧ fifoFrame i ≠ none ∧ i ≠ .pginv := by
    rcases hi with ⟨nbits, rfl⟩ | rfl | ⟨n, rfl⟩ <;> simp [Instr.isCommand, fifoFrame]
  have h := exec_step hcmd ht
  refine ⟨h.keeps, ?_, h.irqMasked fun c => hinv.placed hcmd, h.buffer⟩
  rcases h.pageCache with hsame | hp | ⟨hnone, -⟩
  · exact hsame
  · exact absurd hp hne
  · exact absurd hnone hfifo

end Sys2Proof.Machine
end

section
/-! PROOFS. What one move of an agent can do, said once for all moves, and the invariants of every step (R40, R203). -/

namespace Sys2Proof.Machine

/-! ## What one move of an agent can do, said once -/

/-- A command without its mark (log 8). -/
def InFlight.unmarked (c : InFlight) : InFlight := { c with tainted := false }

/-- `u` is `s` before an agent's step, or after one that only concerns the clients and the line: the interrupt input, the clients' buffers,
the moves to come, the transport's byte, and the marks of commands whose buffer a client changed (log 8). -/
structure Undisturbed (s u : State) : Prop where
  same  : u = { s with
    irqPending := u.irqPending, eb := u.eb, pb := u.pb, script := u.script, rxIn := u.rxIn, fgSlot := u.fgSlot,
    isrSlot := u.isrSlot }
  slots : ∀ x, (u.slot x).map InFlight.unmarked = (s.slot x).map InFlight.unmarked

/-- What a move can be in a state with the invariant (R191, R202): a step that concerns no command, a step of the running context's
command, an offer for acceptance, a refused issue, or the interrupt context's entry or exit; or a stop. -/
inductive MoveOutcome (s : State) : Result → Prop
  | idles {u : State} (hu : Undisturbed s u) : MoveOutcome s (.next u)
  | runs {u : State} {i : Instr} {c : InFlight} (hu : Undisturbed s u) (hr : u.runs i c) (hi : decode c.word = .ok i) :
      MoveOutcome s (exec i u)
  | offers {u : State} {i : Instr} (hu : Undisturbed s u) (hidle : u.idle) (hi : i.isCommand = true) : MoveOutcome s (accept i u)
  | reenters {u : State} (hu : Undisturbed s u) (w : CommandWord) : MoveOutcome s (reentry w u)
  | rejects {u : State} (hu : Undisturbed s u) (code : FaultCode) (info : FaultInfo) : MoveOutcome s (.next (raiseFault code info u))
  | enters {u : State} (hu : Undisturbed s u) (h : u.mayEnter = true) :
      MoveOutcome s (.next (({ u with isrActive := true, irqPending := false } : State).emit .isrEnter))
  | exits {u : State} (hu : Undisturbed s u) (h : u.mayExit = true) :
      MoveOutcome s (.next (({ u with isrActive := false } : State).emit .isrExit))
  | noCell : MoveOutcome s (.fault .noSuchBufferCell)
  | illFormed : MoveOutcome s (.refused .refusedConfig)

section
variable {s t u v : State} {i : Instr} {c : InFlight} {x : Ctx}

theorem Undisturbed.of_slots (h : u = { s with
    irqPending := u.irqPending, eb := u.eb, pb := u.pb, script := u.script, rxIn := u.rxIn }) : Undisturbed s u := by
  rw [h]
  exact ⟨rfl, fun x => by cases x <;> rfl⟩

theorem Undisturbed.refl : Undisturbed s s := .of_slots rfl

theorem Undisturbed.trans (h : Undisturbed s u) (k : Undisturbed u v) : Undisturbed s v :=
  ⟨by rw [k.same, h.same], fun x => (k.slots x).trans (h.slots x)⟩

theorem Undisturbed.ctx (h : Undisturbed s u) : u.ctx = s.ctx := by rw [h.same]; rfl

/-- Every command in flight is still in flight, at most marked. -/
theorem Undisturbed.slot_some (h : Undisturbed s u) (hc : u.slot x = some c) :
    ∃ d, s.slot x = some d ∧ d.unmarked = c.unmarked := by
  have hs := h.slots x
  rw [hc] at hs
  exact Option.map_eq_some_iff.mp hs.symm

theorem Undisturbed.slot_none (h : Undisturbed s u) (hs : s.slot x = none) : u.slot x = none := by
  have hu := h.slots x
  rw [hs] at hu
  exact Option.map_eq_none_iff.mp hu

/-- A mark is no part of a phase. -/
theorem InFlight.unmarked_legal {cfg : Config} : c.unmarked.legal cfg x ↔ c.legal cfg x := Iff.rfl

theorem slotBracket_unmarked (cfg : Config) (slot : Option InFlight) :
    slotBracket cfg x (slot.map InFlight.unmarked) = slotBracket cfg x slot := by
  cases slot <;> rfl

/-- The invariant speaks of nothing that such a move changes. -/
theorem Undisturbed.inv (h : Undisturbed s u) (hinv : s.Inv) : u.Inv := by
  have hslot (x : Ctx) : slotBracket s.cfg x (u.slot x) = slotBracket s.cfg x (s.slot x) := by
    rw [← slotBracket_unmarked, h.slots x, slotBracket_unmarked]
  have hlegal {x : Ctx} {c : InFlight} (hc : u.slot x = some c) : c.legal s.cfg x := by
    obtain ⟨d, hd, hcd⟩ := h.slot_some hc
    rw [← InFlight.unmarked_legal, ← hcd]
    exact InFlight.unmarked_legal.mpr (hinv.legal hd)
  have hmasks {c : InFlight} (hc : u.slot .fg = some c) (hm : c.holdsMask = true) : s.irqMasked = true ∧ s.isrActive = false := by
    obtain ⟨d, hd, hcd⟩ := h.slot_some hc
    refine hinv.fgMasks d hd ?_
    show d.unmarked.holdsMask = true
    rw [hcd]; exact hm
  have hfg : slotBracket s.cfg .fg u.fgSlot = slotBracket s.cfg .fg s.fgSlot := hslot .fg
  have hisr : slotBracket s.cfg .isr u.isrSlot = slotBracket s.cfg .isr s.isrSlot := hslot .isr
  have hempty : u.isrSlot ≠ none → s.isrSlot ≠ none := fun hu hs => hu (h.slot_none (x := .isr) hs)
  rw [h.same]
  exact {
    fgLegal := fun c hc => hlegal (x := .fg) hc
    isrLegal := fun c hc => hlegal (x := .isr) hc
    isrRuns := fun hn => hinv.isrRuns (hempty hn)
    fgMasks := fun c hc => hmasks hc
    lockFlag := hinv.lockFlag
    fields := by
      show s.bracket = if (slotBracket s.cfg .fg u.fgSlot).owner.isSome then slotBracket s.cfg .fg u.fgSlot
        else slotBracket s.cfg .isr u.isrSlot
      rw [hfg, hisr]; exact hinv.fields
    bracketed := hinv.bracketed }

theorem taintBy_unmarked (op : BitVec 4) (slot : Option InFlight) :
    (taintBy op slot).map InFlight.unmarked = slot.map InFlight.unmarked := by
  cases slot with
  | none => rfl
  | some c =>
    simp only [taintBy, Option.map_some]
    split <;> rfl

/-! ### Each move -/

theorem clientWriteEB_outcome (y : Ctx) (n : Nat) (e : ConfigEntry) : MoveOutcome s (clientWriteEB y n e s) := by
  unfold clientWriteEB
  split
  · split
    · exact .idles ⟨rfl, by rintro (_ | _) <;> exact taintBy_unmarked _ _⟩
    · exact .noCell
  · exact .idles .refl

theorem clientWritePB_outcome (y : Ctx) (n : Nat) (b : Byte) : MoveOutcome s (clientWritePB y n b s) := by
  unfold clientWritePB
  split
  · split
    · exact .idles ⟨rfl, by rintro (_ | _) <;> exact taintBy_unmarked _ _⟩
    · exact .noCell
  · exact .idles .refl

theorem lineEdge_outcome (e : Edge) : MoveOutcome s (.next (lineEdge e s)) := by
  unfold lineEdge
  split
  · exact .idles (.of_slots rfl)
  · exact .idles .refl

theorem isrEnter_outcome : MoveOutcome s (.next (isrEnter s)) := by
  unfold isrEnter
  split
  next h => exact .enters .refl h
  next => exact .idles .refl

theorem isrExit_outcome : MoveOutcome s (.next (isrExit s)) := by
  unfold isrExit
  split
  next h => exact .exits .refl h
  next => exact .idles .refl

theorem State.mayStep_iff : s.mayStep x = true ↔ s.fault = .noFault ∧ s.ctx = x := by
  simp [State.mayStep]

theorem issue_outcome (w : CommandWord) : MoveOutcome s (issue x w s) := by
  unfold issue
  split
  next h =>
    obtain ⟨hf, rfl⟩ := State.mayStep_iff.mp h
    split
    next => exact .reenters .refl w
    next hs =>
      split
      next => exact .rejects .refl _ _
      next i hi =>
        have hcmd := isCommand_of_decode hi
        rw [exec_idle ⟨hf, hs⟩ hcmd]
        exact .offers .refl ⟨hf, hs⟩ hcmd
  next => exact .idles .refl

/-- The wire frame a command is in the middle of does what the command itself would do: the next primitive (log 5). -/
theorem exec_currentInstr {j : Instr} (hr : s.runs i c) (hi : decode c.word = .ok i) (hj : currentInstr c = some j) :
    exec j s = exec i s := by
  obtain ⟨hf, hs, hw⟩ := hr
  unfold currentInstr at hj
  split at hj
  next f role p rest hp hc =>
    cases hj
    have hcmd : s.executes i c := ⟨hf, hs, .inl ⟨isCommand_of_decode hi, hw⟩⟩
    rw [exec_block (executes_frame hf hs hp) hc, exec_block hcmd hc]
  next =>
    rw [hi] at hj
    cases hj
    rfl

theorem currentInstr_isSome (hi : decode c.word = .ok i) : ∃ j, currentInstr c = some j := by
  unfold currentInstr
  split
  · exact ⟨_, rfl⟩
  · exact ⟨i, by rw [hi]; rfl⟩

/-- A slot's move changes nothing, or is a step of the command in it (R33). -/
theorem engineStep_cases (h : s.Inv) (x : Ctx) (rx : Byte) : engineStep x rx s = .next s ∨
    ∃ i c, (s.receive rx).runs i c ∧ decode c.word = .ok i ∧ engineStep x rx s = exec i (s.receive rx) := by
  unfold engineStep
  split
  next hmay =>
    obtain ⟨hf, rfl⟩ := State.mayStep_iff.mp hmay
    cases hs : s.slot s.ctx with
    | none => exact .inl rfl
    | some c =>
      obtain ⟨i, hi, -⟩ := h.legal hs
      obtain ⟨j, hj⟩ := currentInstr_isSome hi
      have hr : (s.receive rx).runs i c := ⟨hf, by simpa using hs, (encode_of_decode hi).symm⟩
      refine .inr ⟨i, c, hr, hi, ?_⟩
      simp only [hj]
      exact exec_currentInstr hr hi hj
  next => exact .inl rfl

theorem engineStep_outcome (h : s.Inv) (rx : Byte) : MoveOutcome s (engineStep x rx s) := by
  rcases engineStep_cases h x rx with hstay | ⟨i, c, hr, hi, hexec⟩
  · rw [hstay]; exact .idles .refl
  · rw [hexec]; exact .runs (.of_slots rfl) hr hi

theorem takeMove_outcome (h : s.Inv) (m : Move) : MoveOutcome s (takeMove m s) := by
  cases m with
  | issue x w => exact issue_outcome w
  | engine x rx => exact engineStep_outcome h rx
  | edge e => exact lineEdge_outcome e
  | isrEnter => exact isrEnter_outcome
  | isrExit => exact isrExit_outcome
  | writeEB x i e => exact clientWriteEB_outcome x i e
  | writePB x i b => exact clientWritePB_outcome x i b

theorem MoveOutcome.of_undisturbed {r : Result} (hu : Undisturbed s u) (h : MoveOutcome u r) : MoveOutcome s r := by
  cases h with
  | idles k => exact .idles (hu.trans k)
  | runs k hr hi => exact .runs (hu.trans k) hr hi
  | offers k hidle hi => exact .offers (hu.trans k) hidle hi
  | reenters k w => exact .reenters (hu.trans k) w
  | rejects k code info => exact .rejects (hu.trans k) code info
  | enters k h => exact .enters (hu.trans k) h
  | exits k h => exact .exits (hu.trans k) h
  | noCell => exact .noCell
  | illFormed => exact .illFormed

/-- What one step of the machine can be in a state with the invariant. -/
theorem step_outcome (h : s.Inv) : MoveOutcome s (step s) := by
  unfold step
  split
  · unfold nextMove
    split
    next => exact .idles .refl
    next m rest _ =>
      have hu : Undisturbed s (s.setScript rest) := .of_slots rfl
      exact .of_undisturbed hu (takeMove_outcome (hu.inv h) m)
  · exact .illFormed

end

/-! ## The invariant of every step (R40, R203) -/

/-- The outcome is a state with the invariant, or a stop that is no phase out of place (log 16). -/
def Sound (r : Result) : Prop := (∀ t, r = .next t → t.Inv) ∧ r ≠ .fault .phaseOutOfPlace

section
variable {s t u : State} {i : Instr} {c : InFlight} {x : Ctx}

theorem KeepsInv.sound {r : Result} (h : KeepsInv r) : Sound r := by
  obtain ⟨t, rfl, ht⟩ := h
  exact ⟨fun u hu => by cases hu; exact ht, by simp⟩

/-- A command's pseudocode at the end of a block keeps the invariant. -/
theorem keeps_proceed (k : AtEnd s c i) : KeepsInv (proceed i c s) := by
  have hcmd := isCommand_of_decode k.hi
  cases i with
  | rdreg addr => exact keeps_rdreg k
  | wrreg addr val => exact keeps_wrreg k
  | wrbulk count => exact keeps_wrbulk k
  | fifowr nbits => exact keeps_fifowr k
  | fiford => exact keeps_fiford k
  | fifordall maxBits => exact keeps_fifordall k
  | pginv => exact keeps_pginv k
  | _ => cases hcmd

/-- A step of the running context's command keeps the invariant, and there is one. -/
theorem keeps_exec (h : s.Inv) (hr : s.runs i c) (hi : decode c.word = .ok i) : KeepsInv (exec i s) := by
  have hcmd := isCommand_of_decode hi
  obtain ⟨hf, hs, hw⟩ := hr
  rw [exec_command hcmd]
  cases hc : c.todo with
  | nil =>
    rw [runCommand_proceed hf hs hw hc]
    exact keeps_proceed ⟨h, hs, hc, hi⟩
  | cons p rest =>
    rw [runCommand_block hf hs hw hc, ← performNext_cons c s p rest hc]
    exact h.keeps_performNext hs (by simp [hc])

/-- A command that passes its checks is legal at phase 0. -/
theorem freshCommand_legal {cfg : Config} (hi : i.isCommand = true) (hop : operandFault cfg i = none) :
    (freshCommand (encode i)).legal cfg x :=
  ⟨i, decode_encode hi, by simp [Instr.wellFormed, hop], rfl, Nat.zero_le _, fun _ _ => Nat.zero_le _, fun _ _ => Nat.zero_le _⟩

/-- Acceptance into the empty slot keeps the invariant. -/
theorem keeps_accept (h : s.Inv) (hs : s.slot s.ctx = none) (hi : i.isCommand = true) : KeepsInv (accept i s) := by
  cases ha : acceptFault i s with
  | some fe =>
    rw [accept_some s i fe.1 fe.2 ha]
    exact keeps_raise h _ _
  | none =>
    have hop : operandFault s.cfg i = none := by
      cases hop : operandFault s.cfg i with
      | none => rfl
      | some f => simp [acceptFault, hop] at ha
    have hfree : s.bracket = Bracket.free := by rw [h.at_ctx.1, hs]; rfl
    rw [accept_none s i ha]
    refine ⟨_, rfl, h.rebuild (by simp) (by simp) (fun y hy => State.putSlot_slot_other _ _ _ _ hy.symm) ?_ ?_ (by simp)
      (by simpa using h.lockFlag) ?_ ?_⟩
    · intro c hc
      rw [State.putSlot_slot_same] at hc
      cases hc
      exact freshCommand_legal hi hop
    · intro _ c hc hm
      rw [State.putSlot_slot_same] at hc
      cases hc
      cases hm
    · rw [State.putSlot_bracket, State.putSlot_slot_same, hfree]
      rfl
    · rw [State.putSlot_history, State.putSlot_bracket]
      exact h.bracketed

/-- While the interrupt context runs, the foreground has no transaction open. -/
theorem State.Inv.fg_free (h : s.Inv) (ha : s.isrActive = true) : slotBracket s.cfg .fg s.fgSlot = Bracket.free :=
  h.at_ctx.2 .fg (by rw [State.ctx_of_active s ha]; simp)

/-- With the source unmasked no transaction of the foreground is open (R66, R199). -/
theorem State.Inv.free_of_unmasked (h : s.Inv) (hm : s.irqMasked = false) (ha : s.isrActive = false) : s.bracket = Bracket.free := by
  rw [h.at_ctx.1, State.ctx_of_idle s ha, State.slot_fg]
  cases hs : s.fgSlot with
  | none => rfl
  | some c =>
    refine bracket_free_of _ _ _ ?_
    by_contra hl
    have hmask := (h.fgMasks c hs (holdsMask_of_holdsLock (h.fgLegal c hs) (by simpa using hl))).1
    rw [hm] at hmask; cases hmask

theorem keeps_isrEnter (h : s.Inv) (hmay : s.mayEnter = true) :
    (({ s with isrActive := true, irqPending := false } : State).emit .isrEnter).Inv := by
  obtain ⟨⟨⟨hp, hm⟩, ha⟩, hf⟩ : ((s.irqPending = true ∧ s.irqMasked = false) ∧ s.isrActive = false) ∧ s.fault = .noFault := by
    simpa [State.mayEnter] using hmay
  have hfree := h.free_of_unmasked hm ha
  exact {
    fgLegal := h.fgLegal
    isrLegal := h.isrLegal
    isrRuns := fun _ => rfl
    fgMasks := fun c hc hmask => by
      have hmasked := (h.fgMasks c hc hmask).1
      rw [hm] at hmasked; cases hmasked
    lockFlag := h.lockFlag
    fields := h.fields
    bracketed := by
      show bracketOf (s.history ++ [.isrEnter]) = some s.bracket
      rw [bracketOf_append, h.bracketed, hfree]
      rfl }

theorem keeps_isrExit (h : s.Inv) (hmay : s.mayExit = true) : (({ s with isrActive := false } : State).emit .isrExit).Inv := by
  obtain ⟨⟨ha, hs⟩, hf⟩ : (s.isrActive = true ∧ s.isrSlot = none) ∧ s.fault = .noFault := by
    simpa [State.mayExit] using hmay
  have hfree : s.bracket = Bracket.free := by rw [h.fields, h.fg_free ha, hs]; rfl
  exact {
    fgLegal := h.fgLegal
    isrLegal := h.isrLegal
    isrRuns := fun hn => absurd hs hn
    fgMasks := fun c hc hmask => ⟨(h.fgMasks c hc hmask).1, rfl⟩
    lockFlag := h.lockFlag
    fields := h.fields
    bracketed := by
      show bracketOf (s.history ++ [.isrExit]) = some s.bracket
      rw [bracketOf_append, h.bracketed, hfree]
      rfl }

theorem MoveOutcome.sound {r : Result} (h : s.Inv) (hr : MoveOutcome s r) : Sound r := by
  cases hr with
  | idles hu => exact KeepsInv.sound ⟨_, rfl, hu.inv h⟩
  | runs hu hr hi => exact (keeps_exec (hu.inv h) hr hi).sound
  | offers hu hidle hi => exact (keeps_accept (hu.inv h) hidle.2 hi).sound
  | @reenters u hu w =>
    refine ⟨fun t ht => ?_, ?_⟩
    · rw [reentry_next ht]
      obtain ⟨t, ht, hinv⟩ := keeps_raise (hu.inv h) .lockReentry ⟨w, u.ctx, none, none⟩
      cases ht; exact hinv
    · unfold reentry
      split <;> simp
  | rejects hu code info => exact (keeps_raise (hu.inv h) code info).sound
  | enters hu hmay => exact KeepsInv.sound ⟨_, rfl, keeps_isrEnter (hu.inv h) hmay⟩
  | exits hu hmay => exact KeepsInv.sound ⟨_, rfl, keeps_isrExit (hu.inv h) hmay⟩
  | noCell => exact ⟨fun t ht => (by cases ht), by simp⟩
  | illFormed => exact ⟨fun t ht => (by cases ht), by simp⟩

theorem step_sound (h : s.Inv) : Sound (step s) := (step_outcome h).sound h

end

/-- Settles O11: every move's outcome is sound. -/
theorem stepKeepsTheInvariant : Obligations.StepKeepsTheInvariant := by
  unfold Obligations.StepKeepsTheInvariant
  exact fun s t h ht => (step_sound h).1 t ht

/-- Settles O15: every move's outcome is sound. -/
theorem stepIsNeverOutOfPlace : Obligations.StepIsNeverOutOfPlace := by
  unfold Obligations.StepIsNeverOutOfPlace
  exact fun s h => (step_sound h).2

/-! ## The page of an access (R22, R40 (e)) -/

section
variable {s t u : State} {i j : Instr} {c : InFlight} {x : Ctx}

theorem State.pageKept_iff : s.pageKept ↔ ∀ x c i, s.slot x = some c → decode c.word = .ok i → c.paged i s.pageCache :=
  ⟨fun h x c i hs hi f role a => h x c i f role a hs hi, fun h x c i f role a hs hi => h x c i hs hi f role a⟩

theorem State.pageKept_of_same (h : s.pageKept) (hcache : t.pageCache = s.pageCache) (hslot : ∀ x, t.slot x = s.slot x) :
    t.pageKept := by
  rw [State.pageKept_iff] at h ⊢
  intro x c i hs hi
  rw [hcache]
  exact h x c i ((hslot x).symm.trans hs) hi

/-- A mark is no part of an access. -/
theorem Undisturbed.pageKept (hu : Undisturbed s u) (h : s.pageKept) : u.pageKept := by
  rw [State.pageKept_iff] at h ⊢
  intro x c i hs hi
  obtain ⟨d, hd, hcd⟩ := hu.slot_some hs
  have hword : d.unmarked.word = c.unmarked.word := by rw [hcd]
  have hpaged : d.unmarked.paged i s.pageCache := h x d i hd ((congrArg decode hword).trans hi)
  rw [hcd] at hpaged
  rw [hu.same]
  exact hpaged

/-- A flag that a whole block leaves alone is left alone by its end. -/
theorem flagNow_suffix {up down : Prim} {l m : List Prim} (h : l <:+ m) (hm : ∀ b, flagNow up down b m = b) (b : Bool) :
    flagNow up down b l = b := by
  obtain ⟨k, rfl⟩ := h
  induction k with
  | nil => exact hm b
  | cons p k ih =>
    refine ih fun b => ?_
    have htrue := hm true
    have hfalse := hm false
    simp only [List.cons_append, flagNow] at htrue hfalse
    split_ifs at htrue hfalse
    cases b <;> assumption

/-- A command in a frame holds the lock (R194). -/
theorem holdsLock_of_frame {cfg : Config} {f : Frame} {role : Role} (h : c.legal cfg x) (hp : c.point = .frame f role) :
    c.holdsLock = true := by
  obtain ⟨i, -, -, hplaced, -⟩ := h
  simp only [InFlight.placed, hp] at hplaced
  rw [InFlight.holdsLock, hp]
  exact flagNow_suffix hplaced.2.1 (fun b => frame_flags cfg f _ _ b (.inl rfl)) true

/-- A command with no transaction open is at no access. -/
theorem paged_of_free {cfg : Config} {cache : PageCache} (h : c.legal cfg x) (hfree : c.bracket cfg x = Bracket.free) :
    c.paged i cache := by
  intro f role a hp
  have howner := bracket_owner cfg x c
  rw [hfree, holdsLock_of_frame h hp] at howner
  cases howner

/-- A command that the engine's next step runs never finds the flag set where it would set it (R192). -/
theorem State.Inv.not_reenters (h : s.Inv) (hr : s.runs i c) (hheld : s.lockHeld = true) (hc : c.holdsLock = false) : False := by
  have hfree := h.unlocked hr.2.1 hc
  rw [hheld] at hfree; cases hfree

/-- A command's step keeps every access at its page: the command's own by what begins it, the other context's because it has none. -/
theorem CommandStep.pageKept (h : CommandStep i s t) (hinv : s.Inv) (hi : i.isCommand = true) (hk : s.pageKept) : t.pageKept := by
  have hkept := State.pageKept_iff.mp hk
  rw [State.pageKept_iff]
  intro x c j hs hj
  by_cases hx : x = s.ctx
  · subst hx
    cases h with
    | halted _ ht => subst ht; exact hkept _ c j hs hj
    | accepts _ _ ht =>
      rw [ht, State.putSlot_slot_same] at hs
      cases hs
      exact InFlight.paged_of_point (by rintro f role ⟨⟩)
    | raises code info _ _ ht =>
      subst ht
      exact hkept _ c j (by simpa using hs) hj
    | reenters c' u info hr _ _ hheld hc => exact (hinv.not_reenters hr hheld hc).elim
    | goesOn c' d p hr hc hp =>
      obtain ⟨rx, hslot, -⟩ := hp.slot
      cases hs.symm.trans hslot
      have hpaged : c'.paged j s.pageCache := hkept _ c' j hr.2.1 (by rw [hc]; exact hj)
      rw [hc] at hpaged
      rw [hp.cache]
      exact hpaged
    | begins c' d u p hr hc hu hd hp =>
      obtain ⟨rx, hslot, -⟩ := hp.slot
      rw [hu.keeps.ctx] at hslot
      cases hs.symm.trans hslot
      have hword : d.word = encode i := hd.word.trans hr.2.2
      have hij : j = i := by
        have hdecode := decode_encode hi
        rw [← hword] at hdecode
        exact Except.ok.inj (hj.symm.trans hdecode)
      subst hij
      rw [hp.cache]
      exact hd.paged (hkept _ c' j hr.2.1 (by rw [hr.2.2]; exact decode_encode hi))
    | answers c' u r _ _ _ ht => rw [ht] at hs; simp at hs
    | invalidates c' r _ _ _ ht => rw [ht] at hs; simp at hs
  · rw [h.keeps.otherSlot x hx] at hs
    have hfree := hinv.at_ctx.2 x hx
    rw [hs] at hfree
    exact paged_of_free (hinv.legal hs) hfree

theorem MoveOutcome.pageKept {r : Result} (h : MoveOutcome s r) (hinv : s.Inv) (hk : s.pageKept) (hr : r = .next t) : t.pageKept := by
  cases h with
  | idles hu => cases hr; exact hu.pageKept hk
  | runs hu hrun hi =>
    have hcmd := isCommand_of_decode hi
    exact (exec_step hcmd hr).pageKept (hu.inv hinv) hcmd (hu.pageKept hk)
  | offers hu hidle hi => exact (CommandStep.of_accept hidle.1 hidle.2 hr).pageKept (hu.inv hinv) hi (hu.pageKept hk)
  | reenters hu w =>
    rw [reentry_next hr]
    exact State.pageKept_of_same (hu.pageKept hk) rfl fun x => by simp
  | rejects hu code info =>
    cases hr
    exact State.pageKept_of_same (hu.pageKept hk) rfl fun x => by simp
  | enters hu _ =>
    cases hr
    exact State.pageKept_of_same (hu.pageKept hk) rfl fun x => by cases x <;> rfl
  | exits hu _ =>
    cases hr
    exact State.pageKept_of_same (hu.pageKept hk) rfl fun x => by cases x <;> rfl
  | noCell => cases hr
  | illFormed => cases hr

/-! ## Transactions (R192, R203) -/

/-- The context of a LOCK_ACQ or an exchange. -/
def Event.transactionCtx : Event → Option Ctx
  | .xchg _ _ _ x => some x
  | .lockAcq x => some x
  | _ => none

/-- A LOCK_ACQ or an exchange that a step from `s` to `t` records is its only event, and of the running context (R33, R203). -/
def RecordsAlone (s t : State) : Prop :=
  ∃ es, t.history = s.history ++ es ∧ ∀ e ∈ es, ∀ x, e.transactionCtx = some x → es = [e] ∧ x = s.ctx

theorem RecordsAlone.silent (h : t.history = s.history) : RecordsAlone s t := ⟨[], by simp [h], by simp⟩

theorem RecordsAlone.event {e : Event} (h : t.history = s.history ++ [e]) (he : ∀ x, e.transactionCtx = some x → x = s.ctx) :
    RecordsAlone s t :=
  ⟨[e], h, fun e' hm x hx => by cases List.mem_singleton.mp hm; exact ⟨rfl, he x hx⟩⟩

theorem Prim.event_ctx {p : Prim} {y : Ctx} {tx rx : Byte} {o : BitOrder} (h : (p.event x tx rx o).transactionCtx = some y) : y = x := by
  cases p <;> cases h <;> rfl

theorem CommandStep.recordsAlone (h : CommandStep i s t) : RecordsAlone s t := by
  cases h with
  | halted _ ht => exact .silent (by rw [ht])
  | accepts _ _ ht => exact .silent (by simp [ht])
  | raises code info _ _ ht => exact .event (e := .fault code) (by simp [ht]) (by rintro x ⟨⟩)
  | reenters c u info _ hu _ _ _ ht =>
    rw [hu.same] at ht
    exact .event (e := .fault .lockReentry) (by simp [ht]) (by rintro x ⟨⟩)
  | goesOn c d p _ _ hp =>
    obtain ⟨tx, heffect, -⟩ := hp.effect
    exact .event heffect.history fun x => Prim.event_ctx
  | begins c d u p _ _ hu _ hp =>
    obtain ⟨tx, heffect, -⟩ := hp.effect
    have hsame : s.performs p tx u.rxIn t := heffect.of_same (by rw [hu.same])
    exact .event hsame.history fun x => Prim.event_ctx
  | answers c u r _ _ hu ht =>
    rw [hu.same] at ht
    exact .event (e := .resp s.ctx r) (by simp [ht]) (by rintro x ⟨⟩)
  | invalidates c r _ _ _ ht =>
    refine ⟨[.pginv s.ctx, .resp s.ctx r], by simp [ht], fun e hm x hx => ?_⟩
    rcases List.mem_pair.mp hm with rfl | rfl <;> cases hx

/-- What holds of a step from `u` holds from `s`, when `u` has the history and the running context of `s`. -/
theorem RecordsAlone.of_undisturbed (hu : Undisturbed s u) (h : RecordsAlone u t) : RecordsAlone s t := by
  have hhistory : u.history = s.history := by rw [hu.same]
  unfold RecordsAlone at h ⊢
  rwa [hhistory, hu.ctx] at h

theorem MoveOutcome.recordsAlone {r : Result} (h : MoveOutcome s r) (hr : r = .next t) : RecordsAlone s t := by
  cases h with
  | idles hu => cases hr; exact .of_undisturbed hu (.silent rfl)
  | runs hu hrun hi => exact .of_undisturbed hu (exec_step (isCommand_of_decode hi) hr).recordsAlone
  | offers hu hidle hi => exact .of_undisturbed hu (CommandStep.of_accept hidle.1 hidle.2 hr).recordsAlone
  | reenters hu w =>
    rw [reentry_next hr]
    exact .of_undisturbed hu (.event (e := .fault .lockReentry) rfl (by rintro x ⟨⟩))
  | rejects hu code info => cases hr; exact .of_undisturbed hu (.event (e := .fault code) rfl (by rintro x ⟨⟩))
  | enters hu _ => cases hr; exact .of_undisturbed hu (.event (e := .isrEnter) rfl (by rintro x ⟨⟩))
  | exits hu _ => cases hr; exact .of_undisturbed hu (.event (e := .isrExit) rfl (by rintro x ⟨⟩))
  | noCell => cases hr
  | illFormed => cases hr

theorem bracketStep_xchg {a b : Bracket} {tx rx : Byte} {o : BitOrder} (h : bracketStep a (.xchg tx rx o x) = some b) :
    b = ⟨some x, true, o⟩ := by
  simp only [bracketStep] at h
  split at h
  next ha => rw [← ha]; exact (Option.some.inj h).symm
  next => cases h

theorem bracketStep_lockAcq {a b : Bracket} (h : bracketStep a (.lockAcq x) = some b) : a = Bracket.free := by
  simp only [bracketStep] at h
  split at h
  next ha => exact ha
  next => cases h

/-- The one event of a step leads from the open bracket before it to the one after it. -/
theorem State.Inv.bracket_event {e : Event} (h : s.Inv) (k : t.Inv) (hh : t.history = s.history ++ [e]) :
    bracketStep s.bracket e = some t.bracket := by
  rw [← k.bracketed, hh, bracketOf_append, h.bracketed]
  rfl

theorem State.Inv.of_bracket_free (h : s.Inv) (hfree : s.bracket = Bracket.free) :
    s.lockHeld = false ∧ s.lockOwner = none ∧ s.csAsserted = false ∧ s.bitOrder = .msb := by
  have howner : s.lockOwner = none := congrArg Bracket.owner hfree
  exact ⟨by rw [h.lockFlag, howner]; rfl, howner, congrArg Bracket.cs hfree, congrArg Bracket.order hfree⟩

/-- The bracket is free or the running context's (R23, R27, R28). -/
theorem State.Inv.bracket_of_unowned (h : s.Inv) (ho : s.lockOwner = none) : s.bracket = Bracket.free := by
  have hb := h.at_ctx.1
  have howner : (slotBracket s.cfg s.ctx (s.slot s.ctx)).owner = none := by rw [← hb]; exact ho
  rw [hb]
  cases hs : s.slot s.ctx with
  | none => rfl
  | some c =>
    rw [hs] at howner
    refine bracket_free_of _ _ _ ?_
    rw [← bracket_owner s.cfg s.ctx c]
    simpa [slotBracket] using howner

theorem State.Inv.not_both_hold {c d : InFlight} (h : s.Inv) (hc : s.fgSlot = some c) (hd : s.isrSlot = some d) :
    ¬(c.holdsLock = true ∧ d.holdsLock = true) := by
  rintro ⟨hcl, hdl⟩
  have idle {x : Ctx} {e : InFlight} (hx : x ≠ s.ctx) (he : s.slot x = some e) (hl : e.holdsLock = true) : False := by
    have hfree := h.at_ctx.2 x hx
    have howner := bracket_owner s.cfg x e
    rw [he] at hfree
    rw [show e.bracket s.cfg x = Bracket.free from hfree, hl] at howner
    cases howner
  cases hx : s.ctx with
  | fg => exact idle (x := .isr) (by simp [hx]) hd hdl
  | isr => exact idle (x := .fg) (by simp [hx]) hc hcl

/-- Where an exchange is next, the command holds the lock with chip-select asserted. -/
theorem State.Inv.xchg_inside {src : TxSource} {rest : List Prim} (h : s.Inv) (hs : s.slot s.ctx = some c)
    (hc : c.todo = .xchg src :: rest) : s.csAsserted = true ∧ s.lockOwner = some s.ctx := by
  obtain ⟨-, -, hl, hcs⟩ : flagsAgree s.cfg s.ctx c.point.inBody (.xchg src :: rest) := hc ▸ legal_flagsAgree (h.legal hs)
  have hb : s.bracket = ⟨some s.ctx, true, c.orderHeld⟩ := by
    rw [h.at_ctx.1, hs]
    simp [slotBracket, InFlight.bracket, InFlight.holdsLock, InFlight.holdsCs, hc, flagNow, hl, hcs]
  exact ⟨congrArg Bracket.cs hb, congrArg Bracket.owner hb⟩

/-- What is open at the end of a block (R194, R195). -/
theorem State.Inv.at_end (h : s.Inv) (hs : s.slot s.ctx = some c) (hc : c.todo = []) :
    ((c.point = .accepted ∨ c.point = .closed) → s.lockHeld = false ∧ s.lockOwner = none ∧ s.csAsserted = false) ∧
    ((c.point = .opened ∨ ∃ f role, c.point = .frame f role) →
      s.lockHeld = true ∧ s.lockOwner = some s.ctx ∧ s.csAsserted = decide (s.cfg.csMode = .perTransaction)) := by
  have hb : s.bracket = c.bracket s.cfg s.ctx := by rw [h.at_ctx.1, hs]; rfl
  constructor
  · intro hp
    have hl : c.holdsLock = false := by rcases hp with hp | hp <;> simp [InFlight.holdsLock, hc, hp, flagNow, Point.inBody]
    obtain ⟨hheld, howner, hcs, -⟩ := h.of_bracket_free (hb.trans (bracket_free_of _ _ _ hl))
    exact ⟨hheld, howner, hcs⟩
  · intro hp
    have hbody : c.point.inBody = true := by rcases hp with hp | ⟨f, role, hp⟩ <;> rw [hp] <;> rfl
    rw [bracket_end hc hbody] at hb
    have howner : s.lockOwner = some s.ctx := congrArg Bracket.owner hb
    exact ⟨by rw [h.lockFlag, howner]; rfl, howner, congrArg Bracket.cs hb⟩

/-- Every LOCK_ACQ and exchange of a step is the running context's, inside the transaction or with the lock free. -/
theorem State.Inv.step_events (h : s.Inv) (ht : step s = .next t) :
    (∀ tx rx o x, .xchg tx rx o x ∈ t.history.drop s.history.length →
      x = s.ctx ∧ t.csAsserted = true ∧ t.lockOwner = some x ∧ t.bitOrder = o) ∧
    (∀ x, .lockAcq x ∈ t.history.drop s.history.length → x = s.ctx ∧ s.lockHeld = false) := by
  have hinv := (step_sound h).1 t ht
  obtain ⟨es, hh, halone⟩ := (step_outcome h).recordsAlone ht
  have single {e : Event} {x : Ctx} (he : e ∈ t.history.drop s.history.length) (hx : e.transactionCtx = some x) :
      x = s.ctx ∧ bracketStep s.bracket e = some t.bracket := by
    rw [hh, List.drop_left] at he
    obtain ⟨hes, hctx⟩ := halone e he x hx
    exact ⟨hctx, h.bracket_event hinv (by rw [hh, hes])⟩
  constructor
  · intro tx rx o x hm
    obtain ⟨hx, hb⟩ := single hm rfl
    have hopen := bracketStep_xchg hb
    exact ⟨hx, congrArg Bracket.cs hopen, congrArg Bracket.owner hopen, congrArg Bracket.order hopen⟩
  · intro x hm
    obtain ⟨hx, hb⟩ := single hm rfl
    exact ⟨hx, (h.of_bracket_free (bracketStep_lockAcq hb)).1⟩

/-- A step of the running context's command never raises LOCK_REENTRY. -/
theorem CommandStep.not_lockReentry (h : CommandStep i s t) (hinv : s.Inv) (hr : s.runs i c) : t.fault ≠ .lockReentry := by
  have hf : s.fault ≠ .lockReentry := by rw [hr.1]; simp
  cases h with
  | halted hf' => exact absurd hr.1 hf'
  | accepts _ hs => exact absurd (hs.symm.trans hr.2.1) (by simp)
  | raises code info _ hlock ht =>
    rw [ht]
    exact fun hcode => hlock hcode c hr
  | reenters c' u info hr' _ _ hheld hc => exact (hinv.not_reenters hr' hheld hc).elim
  | goesOn c' d p _ _ hp => rwa [hp.fault]
  | begins c' d u p _ _ hu _ hp => rwa [hp.fault, hu.same]
  | answers c' u r _ _ hu ht => rw [hu.same] at ht; rwa [ht, State.emit_fault, State.putSlot_fault]
  | invalidates c' r _ _ _ ht => rwa [ht, State.emit_fault, State.putSlot_fault]

/-- No slot's step is a re-entrant acquisition (R192). -/
theorem State.Inv.engine_never_reenters {x : Ctx} {rx : Byte} {moves : List Move} (h : s.Inv) (hscript : s.script = .engine x rx :: moves) :
    step s ≠ .refused .refusedReentry ∧ ∀ t, step s = .next t → t.fault = .lockReentry → s.fault = .lockReentry := by
  have hstep : step s = if s.cfg.wf then engineStep x rx (s.setScript moves) else .refused .refusedConfig := by
    rw [step, nextMove, hscript]; rfl
  have hu : Undisturbed s (s.setScript moves) := .of_slots rfl
  rw [hstep]
  split
  · rcases engineStep_cases (hu.inv h) x rx with hstay | ⟨i, c, hr, hi, hexec⟩
    · rw [hstay]
      exact ⟨by simp, fun t ht => by cases ht; exact id⟩
    · have hv : Undisturbed (s.setScript moves) ((s.setScript moves).receive rx) := .of_slots rfl
      have hinv := hv.inv (hu.inv h)
      obtain ⟨t, ht, -⟩ := keeps_exec hinv hr hi
      rw [hexec, ht]
      refine ⟨by simp, fun t' ht' hfault => ?_⟩
      cases ht'
      exact absurd hfault ((exec_step (isCommand_of_decode hi) ht).not_lockReentry hinv hr)
  · exact ⟨by simp, fun t ht => by cases ht⟩

end

/-- Settles O12: every move's outcome keeps each command's access at its page. -/
theorem stepKeepsThePage : Obligations.StepKeepsThePage := by
  unfold Obligations.StepKeepsThePage
  exact fun s t h hk ht => (step_outcome h).pageKept h hk ht

/-- Settles O16: the fields agree with the running context's phase, and a step's event with the bracket it is recorded in. -/
theorem transactionsNeverOverlap : Obligations.TransactionsNeverOverlap := by
  unfold Obligations.TransactionsNeverOverlap
  intro s h
  refine ⟨fun ho => ?_, fun c d => h.not_both_hold, fun c src rest => h.xchg_inside, fun c rest hs hc => ?_, fun c => h.at_end,
    fun t => h.step_events, fun x rx moves => h.engine_never_reenters, fun x c hs => ?_⟩
  · obtain ⟨hheld, -, hcs, horder⟩ := h.of_bracket_free (h.bracket_of_unowned ho)
    exact ⟨hheld, hcs, horder⟩
  · exact h.unlocked hs (by simp [InFlight.holdsLock, hc, flagNow])
  · obtain ⟨i, -, -, -, hranged⟩ := h.legal hs
    exact hranged.1

end Sys2Proof.Machine
end

section
/-! PROOFS. The bits of the payload on the line, the operand checks of acceptance, and the clients' writes to EB and PB (R56, R57, R60,
R93). -/

namespace Sys2Proof.Machine

/-! ## The bits on the line (R60, R111) -/

/-- The number assembled from the low `n` bits of `x` is `x` modulo `2 ^ n`. -/
theorem bitsToNat_testBit (n x : Nat) : bitsToNat ((List.range n).map x.testBit) = x % 2 ^ n := by
  induction n generalizing x with
  | zero => simp [bitsToNat, Nat.mod_one]
  | succ n ih =>
    have htail : ((List.range n).map Nat.succ).map x.testBit = (List.range n).map (x / 2).testBit := by
      simp [Function.comp_def, Nat.testBit_succ]
    have hbit : (x.testBit 0).toNat = x % 2 := by rw [Nat.toNat_testBit, pow_zero, Nat.div_one]
    rw [List.range_succ_eq_map, List.map_cons, bitsToNat, htail, ih, hbit, Nat.pow_succ', Nat.mod_mul]

theorem byteOfWire_wireBits (o : BitOrder) (b : Byte) : byteOfWire o (wireBits o b) = b := by
  have hnat : bitsToNat ((List.range 8).map b.getLsbD) = b.toNat :=
    (bitsToNat_testBit 8 b.toNat).trans (Nat.mod_eq_of_lt b.isLt)
  cases o <;> simp [byteOfWire, wireBits, hnat]

/-- In increasing significance, the bits of a concatenation are those of its low part and then those of its high part. -/
theorem map_getLsbD_append {m n : Nat} (a : BitVec m) (b : BitVec n) :
    (List.range (n + m)).map (a ++ b).getLsbD = (List.range n).map b.getLsbD ++ (List.range m).map a.getLsbD := by
  rw [List.range_add, List.map_append, List.map_map]
  congr 1
  · refine List.map_congr_left fun k hk => ?_
    rw [BitVec.getLsbD_append, if_pos (List.mem_range.mp hk)]
  · refine List.map_congr_left fun k _ => ?_
    rw [Function.comp_apply, BitVec.getLsbD_append, if_neg (by omega), Nat.add_sub_cancel_left]

/-- Settles O7: the payload word is the concatenation of its bytes, the first the lowest. -/
theorem lineCarriesPayloadBitsInOrder : Obligations.LineCarriesPayloadBitsInOrder := by
  unfold Obligations.LineCarriesPayloadBitsInOrder
  refine ⟨byteOfWire_wireBits, fun b => ⟨rfl, rfl⟩, fun r0 r1 r2 r3 => ?_⟩
  have h23 : (List.range 16).map (r3 ++ r2).getLsbD = wireBits .lsb r2 ++ wireBits .lsb r3 := map_getLsbD_append r3 r2
  have h123 : (List.range 24).map (r3 ++ r2 ++ r1).getLsbD = wireBits .lsb r1 ++ (List.range 16).map (r3 ++ r2).getLsbD :=
    map_getLsbD_append (r3 ++ r2) r1
  have h0123 : (List.range 32).map (r3 ++ r2 ++ r1 ++ r0).getLsbD = wireBits .lsb r0 ++ (List.range 24).map (r3 ++ r2 ++ r1).getLsbD :=
    map_getLsbD_append (r3 ++ r2 ++ r1) r0
  rw [h123, h23] at h0123
  simp only [wireStream, List.flatMap_cons, List.flatMap_nil, List.append_nil]
  exact h0123.symm

/-! ## The operand checks of acceptance (R93) -/

theorem exec_operandFault {s : State} {i : Instr} {f : OperandFault} (h : s.idle) (hi : i.isCommand = true)
    (hf : operandFault s.cfg i = some f) :
    exec i s = .next (s.raised (operandFaultCode f) ⟨encode i, s.ctx, none, none⟩) := by
  rw [exec_idle h hi, accept_some s i f none (by simp [acceptFault, hf])]
  rfl

/-- A reserved address bit is the first check of a read target (R50, R93). -/
theorem readTargetFault_reserved {a : RegAddr} (h : 2 ^ 10 ≤ a.toNat) : readTargetFault a = some .addrReservedBits :=
  if_neg (by rw [addrReserved_eq_zero_iff]; omega)

/-- A reserved address bit is the first check of a write target (R50, R93). -/
theorem writeTargetFault_reserved {cfg : Config} {a : RegAddr} (h : 2 ^ 10 ≤ a.toNat) :
    writeTargetFault cfg a = some .addrReservedBits :=
  if_pos (by rw [Ne, addrReserved_eq_zero_iff]; omega)

/-- Settles O26: each operand fails its command's first check. -/
theorem operandFaultsAtAcceptance : Obligations.OperandFaultsAtAcceptance := by
  unfold Obligations.OperandFaultsAtAcceptance
  intro s hidle
  have range {i : Instr} (hi : i.isCommand = true) (h : operandFault s.cfg i = some .operandRange) :
      exec i s = .next (s.raised .operandRange ⟨encode i, s.ctx, none, none⟩) := exec_operandFault hidle hi h
  refine ⟨fun addr h => ⟨?_, fun val => ?_⟩, fun count h => ?_, fun nbits h => ?_, fun maxBits h => ?_⟩
  · exact exec_operandFault (i := .rdreg addr) hidle rfl (readTargetFault_reserved h)
  · exact exec_operandFault (i := .wrreg addr val) hidle rfl (writeTargetFault_reserved h)
  · exact range rfl (if_neg (Nat.not_le.mpr h))
  · exact range rfl (if_neg (by omega))
  · exact range rfl (if_neg (Nat.not_le.mpr h))

/-! ## The clients' writes (R56, R57) -/

theorem opcodeOf_eq_iff (w : CommandWord) (op : BitVec 4) : opcodeOf w = op ↔ w.toNat / 2 ^ 28 = op.toNat := by
  have := w.isLt
  rw [← BitVec.toNat_inj, opcodeOf, BitVec.extractLsb'_toNat, Nat.shiftRight_eq_div_pow, Nat.mod_eq_of_lt (by omega)]

theorem taintBy_eq_map (op : BitVec 4) (slot : Option InFlight) :
    taintBy op slot = slot.map (fun c => if c.word.toNat / 2 ^ 28 = op.toNat then { c with tainted := true } else c) := by
  simp only [taintBy, opcodeOf_eq_iff]

theorem step_of_script {s : State} {m : Move} {moves : List Move} (hwf : s.cfg.wf = true) (h : s.script = m :: moves) :
    step s = takeMove m (s.setScript moves) := by
  simp [step, hwf, nextMove, h]

section
variable {s : State} {x : Ctx} {i : Nat}

theorem clientWriteEB_within {e : ConfigEntry} (hx : s.mayStep x = true) (hi : i < s.cfg.maxBulk) : clientWriteEB x i e s = .next
    { s with eb := writeCell s.eb i e, fgSlot := taintBy 3 s.fgSlot, isrSlot := taintBy 3 s.isrSlot } := by
  rw [clientWriteEB, if_pos hx, if_pos hi]

theorem clientWriteEB_beyond {e : ConfigEntry} (hx : s.mayStep x = true) (hi : s.cfg.maxBulk ≤ i) :
    clientWriteEB x i e s = .fault .noSuchBufferCell := by
  rw [clientWriteEB, if_pos hx, if_neg (Nat.not_lt.mpr hi)]

theorem clientWritePB_within {b : Byte} (hx : s.mayStep x = true) (hi : i < payloadBytes) : clientWritePB x i b s = .next
    { s with pb := writeCell s.pb i b, fgSlot := taintBy 4 s.fgSlot, isrSlot := taintBy 4 s.isrSlot } := by
  rw [clientWritePB, if_pos hx, if_pos hi]

theorem clientWritePB_beyond {b : Byte} (hx : s.mayStep x = true) (hi : payloadBytes ≤ i) :
    clientWritePB x i b s = .fault .noSuchBufferCell := by
  rw [clientWritePB, if_pos hx, if_neg (Nat.not_lt.mpr hi)]

end

/-- Settles O60: the client's context runs, so the bound of the cell alone decides. -/
theorem clientWritesABuffer : Obligations.ClientWritesABuffer := by
  unfold Obligations.ClientWritesABuffer
  intro s i moves hwf hf
  have hmay : (s.setScript moves).mayStep s.ctx = true := State.mayStep_iff.mpr ⟨hf, rfl⟩
  refine ⟨fun e hscript => ?_, fun b hscript => ?_⟩
  · rw [step_of_script hwf hscript]
    refine ⟨fun hi => ⟨_, clientWriteEB_within hmay hi, ?_, fun k hk => readCell_writeCell_other _ _ _ _ hk, ?_⟩,
      fun hi => clientWriteEB_beyond hmay hi⟩
    · simp [readEntry]
    · simp only [taintBy_eq_map]; rfl
  · rw [step_of_script hwf hscript]
    refine ⟨fun hi => ⟨_, clientWritePB_within hmay hi, ?_, fun k hk => readCell_writeCell_other _ _ _ _ hk, ?_⟩,
      fun hi => clientWritePB_beyond hmay hi⟩
    · simp [readPayload]
    · simp only [taintBy_eq_map]; rfl

end Sys2Proof.Machine
end

section
/-! PROOFS. The first frame of an access: the page check of RDREG, WRREG and WRBULK (R135). -/

namespace Sys2Proof.Machine

section
variable {s t u : State} {i : Instr} {c d : InFlight}

/-- A step that takes a command from the end of a block into another leaves it after the first primitive of that one (log 5). -/
theorem CommandStep.next_block (h : CommandStep i s t) (hr : s.runs i c) (hc : c.todo = []) (hs : t.slot s.ctx = some d)
    (hd : d.point ≠ c.point) : d.todo.length + 1 = (blockPrims s.cfg s.ctx d.point).length := by
  have same {e : InFlight} (he : s.runs i e) : e = c := Option.some.inj (he.2.1.symm.trans hr.2.1)
  have moved (hs : s.slot s.ctx = some d) : False := by
    cases hs.symm.trans hr.2.1
    exact hd rfl
  cases h with
  | halted hf => exact absurd hr.1 hf
  | accepts _ hempty => cases hempty.symm.trans hr.2.1
  | raises code info _ _ ht => rw [ht, raiseFault_slot] at hs; exact (moved hs).elim
  | reenters e v info _ hv _ _ _ ht =>
    rw [ht, raiseFault_slot, hv.same] at hs
    exact (moved (by cases hx : s.ctx <;> rw [hx] at hs <;> exact hs)).elim
  | goesOn e f p he hte =>
    rw [same he] at hte
    rw [hte] at hc; cases hc
  | begins e f v p _ _ hv hf hp =>
    obtain ⟨rx, hslot, -⟩ := hp.slot
    rw [hv.keeps.ctx] at hslot
    cases hs.symm.trans hslot
    have hblock : p :: f.todo = blockPrims s.cfg s.ctx f.point := hf.todo
    rw [← hblock, List.length_cons]
  | answers e v r _ _ _ ht => rw [ht] at hs; simp at hs
  | invalidates e r _ _ _ ht => rw [ht] at hs; simp at hs

theorem framePrims_regRead_length (cfg : Config) (off : Byte) : (framePrims cfg (.regRead off)).length = frameSteps cfg := by
  cases h : cfg.csMode <;> simp [framePrims, h, frameBody, frameSteps, csSteps]

theorem framePrims_regWrite_length (cfg : Config) (off val : Byte) :
    (framePrims cfg (.regWrite off val)).length = frameSteps cfg := by
  cases h : cfg.csMode <;> simp [framePrims, h, frameBody, frameSteps, csSteps]

/-- The block an access to `a` begins with (R135): `target`, or the write of a page switch that its address asks for. -/
def firstFrame (cfg : Config) (cache : PageCache) (a : RegAddr) (target : Point) : Point :=
  if mirrored a = true ∨ cache = .page (pageOf a) then target
  else .frame (.regWrite (pageSelOffset cfg) (pageSelectValue (pageOf a))) (.verify .page .write)

section
variable {cfg : Config} {cache : PageCache} {a : RegAddr} {f : Frame} {role : Role}

/-- The page check in the arithmetic of R50 and R51. -/
theorem firstFrame_eq (target : Point) : firstFrame cfg cache a target =
    if 0xA0 ≤ a.toNat % 256 ∨ cache = .page (a.extractLsb' 8 2) then target
    else .frame (.regWrite (offsetOf cfg.pageSelAddr) ((a.extractLsb' 8 2).zeroExtend 8)) (.verify .page .write) :=
  if_congr (or_congr_left (mirrored_iff a)) rfl rfl

theorem firstFrame_ne_opened : firstFrame cfg cache a (.frame f role) ≠ .opened := by
  unfold firstFrame; split <;> simp

theorem firstFrame_length (x : Ctx) (hf : (framePrims cfg f).length = frameSteps cfg) :
    (blockPrims cfg x (firstFrame cfg cache a (.frame f role))).length = frameSteps cfg := by
  unfold firstFrame
  split
  · exact hf
  · exact framePrims_regWrite_length cfg _ _

end

/-- `EnsurePage` begins the access that `go` begins, or its page switch at attempt 0, and keeps the cache. -/
theorem ensurePage_begins {a : RegAddr} {go : InFlight → State → Result} {f : Frame} {role : Role} {n : Nat}
    (hgo : go c s = startFrame f role { c with attempt := n } s) :
    ∃ m t rest rx, (n = 0 → m = 0) ∧ ensurePage a go c s = .next t ∧ t.slot s.ctx = some
        { c with attempt := m, point := firstFrame s.cfg s.pageCache a (.frame f role), todo := rest, rx := rx } ∧
      t.pageCache = s.pageCache := by
  by_cases hpage : mirrored a = true ∨ s.pageCache = .page (pageOf a)
  · rw [ensurePage_here go hpage, hgo, firstFrame, if_pos hpage]
    obtain ⟨t, rest, rx, ht, hslot, hcache, -⟩ := startFrame_begins f role { c with attempt := n } s
    exact ⟨n, t, rest, rx, id, ht, hslot, hcache⟩
  · rw [ensurePage_elsewhere go hpage, firstFrame, if_neg hpage]
    obtain ⟨t, rest, rx, ht, hslot, hcache, -⟩ :=
      startFrame_begins (.regWrite (pageSelOffset s.cfg) (pageSelectValue (pageOf a))) (.verify .page .write) { c with attempt := 0 } s
    exact ⟨0, t, rest, rx, fun _ => rfl, ht, hslot, hcache⟩

theorem closeTransaction_draws {ok : Bool} (h : closeTransaction ok c s = .next t) : t.draws = s.draws := by
  obtain ⟨p, rest, hp, hhead⟩ := closePrims_head s.cfg s.ctx
  rw [closeTransaction, performNext_cons _ _ _ _ hp] at h
  rcases hhead with rfl | rfl <;> cases h <;> simp

end

/-- Settles O36: the page check chooses the block that begins, and the step that begins it takes its first primitive. -/
theorem pageCheckDecidesTheFirstFrame : Obligations.PageCheckDecidesTheFirstFrame := by
  unfold Obligations.PageCheckDecidesTheFirstFrame
  intro s c addr val hp ht
  have left {i : Instr} {t : State} {d : InFlight} (hi : i.isCommand = true) (hr : s.runs i c) (hexec : exec i s = .next t)
      (hslot : t.slot s.ctx = some d) (hd : d.point ≠ .opened) :
      d.todo.length + 1 = (blockPrims s.cfg s.ctx d.point).length :=
    (exec_step hi hexec).next_block hr ht hslot (by rwa [hp])
  refine ⟨fun hr => ?_, fun hr => ?_, fun count hr hlt => ?_, fun count hr hzero => ?_⟩
  · have hexec : exec (.rdreg addr) s = ensurePage addr (beginRead (offsetOf addr)) c s := by
      simp only [exec_rdreg_end hr ht, proceedRdreg, hp]
    obtain ⟨m, t, rest, rx, -, hstep, hslot, hcache⟩ :=
      ensurePage_begins (s := s) (c := c) (a := addr) (go := beginRead (offsetOf addr)) (n := c.attempt) rfl
    refine ⟨t, _, hexec.trans hstep, hslot, hcache, ?_, ⟨rfl, rfl, rfl, rfl, rfl⟩, firstFrame_eq _⟩
    rw [left rfl hr (hexec.trans hstep) hslot firstFrame_ne_opened,
      firstFrame_length _ (framePrims_regRead_length _ _), framePrims_regRead_length]
  · have hexec : exec (.wrreg addr val) s = ensurePage addr (beginWrite .target (offsetOf addr) val) c s := by
      simp only [exec_wrreg_end hr ht, proceedWrreg, hp]
    obtain ⟨m, t, rest, rx, hattempt, hstep, hslot, hcache⟩ :=
      ensurePage_begins (s := s) (c := c) (a := addr) (go := beginWrite .target (offsetOf addr) val) (n := 0) rfl
    refine ⟨t, _, hexec.trans hstep, hslot, hcache, ?_, hattempt rfl, ⟨rfl, rfl, rfl, rfl, rfl⟩, firstFrame_eq _⟩
    rw [left rfl hr (hexec.trans hstep) hslot firstFrame_ne_opened,
      firstFrame_length _ (framePrims_regWrite_length _ _ _), framePrims_regWrite_length]
  · have hexec : exec (.wrbulk count) s = nextEntry count { c with index := 0 } s := by
      simp only [exec_wrbulk_end hr ht, proceedWrbulk, hp]
    obtain ⟨f, role, hpoint, t, rest, rx, hstep, hslot, hcache, hdraws⟩ :=
      nextEntry_begins (c := { c with index := 0 }) (s := s) hlt
    replace hpoint : Point.frame f role = firstFrame s.cfg s.pageCache (bulkEntry { c with index := 0 } s).addr _ := hpoint
    refine ⟨t, _, _, hexec.trans hstep, hslot, hcache, fun hclean => ?_, hdraws, ?_, rfl, rfl, rfl, rfl, rfl,
      hpoint.trans (firstFrame_eq _)⟩
    · simp [bulkEntry, hclean]
    · rw [left rfl hr (hexec.trans hstep) hslot (by simp), framePrims_regWrite_length]
      exact (congrArg (fun pt => (blockPrims s.cfg s.ctx pt).length) hpoint).trans
        (firstFrame_length _ (framePrims_regWrite_length _ _ _))
  · have hexec : exec (.wrbulk count) s = closeTransaction true { c with index := 0 } s := by
      simp only [exec_wrbulk_end hr ht, proceedWrbulk, hp, nextEntry]
      rw [if_neg (by simp [hzero])]
    obtain ⟨t, rest, rx, hstep, hslot, hcache⟩ := closeTransaction_begins true { c with index := 0 } s
    exact ⟨t, _, hexec.trans hstep, hslot, hcache, closeTransaction_draws hstep,
      left rfl hr (hexec.trans hstep) hslot (by simp), rfl, rfl, rfl, rfl, rfl⟩

end Sys2Proof.Machine
end

section
/-! PROOFS. The accumulation buffer AB (R58, R169): what FIFORDALL appends and forgets, that no other step touches it, and the canonical
form of the buffers. -/

namespace Sys2Proof.Machine

/-! ## What a step leaves of AB -/

/-- State `t` has the accumulation buffer of `s`. -/
def SameAb (s t : State) : Prop := t.ab = s.ab ∧ t.abTotals = s.abTotals

section
variable {s t u : State} {c : InFlight}

theorem SameAb.refl : SameAb s s := ⟨rfl, rfl⟩

theorem SameAb.readBit (h : SameAb s t) (j : Nat) : readBit t j = readBit s j := by
  unfold Machine.readBit unspecifiedBy
  rw [h.1, h.2]

theorem performNext_keeps (h : performNext c s = .next t) : s.keeps t ∧ SameAb s t := by
  cases hc : c.todo with
  | nil => rw [performNext, hc] at h; cases h
  | cons p rest =>
    rw [performNext_cons c s p rest hc] at h
    rcases perform_next h with hp | ⟨-, -, rfl⟩
    · exact ⟨hp.keeps, hp.buffer⟩
    · exact ⟨s.keeps_raise _ _, .refl⟩

theorem frameStep_keeps {f : Frame} (h : frameStep f c s = .next t) : s.keeps t ∧ SameAb s t := by
  unfold frameStep at h
  split at h
  · split at h
    · exact performNext_keeps h
    · cases h
  all_goals cases h

theorem runFrame_keeps {f : Frame} (h : runFrame f s = .next t) : s.keeps t ∧ SameAb s t := by
  unfold runFrame at h
  split at h
  · split at h
    · exact frameStep_keeps h
    · cases h
  · cases h
    exact ⟨by constructor <;> simp, .refl⟩

theorem closeFifoRead_sameAb (h : closeFifoRead c s = .next t) : SameAb s t := by
  unfold closeFifoRead at h
  split at h
  · cases h; exact .refl
  · exact (performNext_keeps h).2
  · exact (performNext_keeps h).2

theorem accept_sameAb {i : Instr} (h : accept i s = .next t) : SameAb s t := by
  unfold accept at h
  split at h
  · cases h; exact .refl
  · cases h; exact ⟨by simp, by simp⟩

end

/-! ## FIFORDALL at the end of a frame's transaction (R169) -/

theorem getLsbD_seven_iff (b : Byte) : b.getLsbD 7 = true ↔ 128 ≤ b.toNat := by
  have := b.isLt
  rw [BitVec.getLsbD, Nat.testBit_eq_decide_div_mod_eq, decide_eq_true_iff]
  omega

theorem validCount_eq (b : Byte) : validCount b = b.toNat % 64 := by
  rw [validCount, BitVec.extractLsb'_toNat, Nat.shiftRight_zero]

section
variable {s t : State} {c : InFlight} {maxBits : BitVec 16}

theorem frameAnswer_eq {a r0 r1 r2 r3 st : Byte} (h : c.rx = [a, r0, r1, r2, r3, st]) :
    frameAnswer c = decodeStatus (r3 ++ r2 ++ r1 ++ r0) st := by
  rw [frameAnswer, frameWord, frameStatus, h]; rfl

theorem decodeStatus_overflow {w : BitVec 32} {b : Byte} (h : 128 ≤ b.toNat) : decodeStatus w b = .overflow := by
  rw [decodeStatus, if_pos ((getLsbD_seven_iff b).mpr h)]

theorem decodeStatus_frame {w : BitVec 32} {b : Byte} (h : b.toNat < 128) (hn : b.toNat % 64 ≤ 32) :
    decodeStatus w b = .frame w (b.toNat % 64) := by
  rw [decodeStatus, if_neg (by rw [getLsbD_seven_iff]; omega), validCount_eq, if_neg (by omega)]

/-- The status code in the low half-word of a counting response (R84). -/
theorem countResponse_eq (st : Status) (n : Nat) :
    countResponse st n = 0#32 ++ BitVec.ofNat 16 n ++ (0#12 ++ statusCode st) := by
  rw [countResponse, BitVec.append_assoc, BitVec.cast_eq]

theorem forgetAb_putSlot (s : State) (n : Nat) (x : Ctx) (d : Option InFlight) :
    (s.forgetAb n).putSlot x d = (s.putSlot x d).forgetAb n := by
  cases x <;> rfl

/-- A FIFORDALL that ends responds with what it accumulated and forgets the rest of AB. -/
theorem finishFifordall_next (st : Status) (c : InFlight) (s : State) :
    ∃ t, finishFifordall st c s = .next t ∧ SameAb (s.forgetAb c.total) t ∧ t = { s.putSlot s.ctx none with
      history := s.history ++ [.resp s.ctx (0#32 ++ BitVec.ofNat 16 c.total ++ (0#12 ++ statusCode st))],
      ab := t.ab, abTotals := t.abTotals } := by
  refine ⟨{ s.putSlot s.ctx none with
    history := s.history ++ [.resp s.ctx (0#32 ++ BitVec.ofNat 16 c.total ++ (0#12 ++ statusCode st))],
    ab := forgetFrom s.ab c.total, abTotals := c.total :: s.abTotals }, ?_, ⟨rfl, rfl⟩, rfl⟩
  rw [finishFifordall, respond_eq, countResponse_eq, forgetAb_putSlot, State.forgetAb_ctx, State.emit, State.forgetAb,
    State.putSlot_history, State.putSlot_ab, State.putSlot_abTotals]

/-- The answer to a FIFO read ends FIFORDALL with this status (R169): overflow, no bits, or more than there is room for. -/
def endStatus (maxBits : BitVec 16) (c : InFlight) : FifoAnswer → Option Status
  | .overflow => some .overflow
  | .badCount => none
  | .frame _ n => if n = 0 then some .ok else if maxBits.toNat < c.total + n then some .bufferTooSmall else none

theorem afterFrame_ending {st : Status} (h : endStatus maxBits c (frameAnswer c) = some st) :
    afterFrame maxBits c s = finishFifordall st c s := by
  unfold afterFrame
  cases ha : frameAnswer c with
  | overflow => rw [ha] at h; cases h; rfl
  | badCount => rw [ha] at h; cases h
  | frame w n =>
    rw [ha, endStatus] at h
    split_ifs at h with h0 hfit
    · cases h; simp only [if_pos h0]
    · cases h; simp only [if_neg h0, if_pos hfit]

theorem afterFrame_append {w : BitVec 32} {n : Nat} (ha : frameAnswer c = .frame w n) (h0 : 0 < n) (hfit : c.total + n ≤ maxBits.toNat) :
    afterFrame maxBits c s = openTransaction { c with total := c.total + n } (s.setAb (writeBits s.ab c.total w n)) := by
  simp only [afterFrame, ha, if_neg (Nat.pos_iff_ne_zero.mp h0), if_neg (Nat.not_lt.mpr hfit)]

/-- At the end of a frame's transaction FIFORDALL appends the frame to AB, even where the next LOCK_ACQ then faults (log 12), or ends. -/
theorem afterFrame_next (h : afterFrame maxBits c s = .next t) :
    (∃ w n, frameAnswer c = .frame w n ∧ SameAb (s.setAb (writeBits s.ab c.total w n)) t) ∨
    ∃ st, endStatus maxBits c (frameAnswer c) = some st ∧ SameAb (s.forgetAb c.total) t := by
  cases hst : endStatus maxBits c (frameAnswer c) with
  | some st =>
    obtain ⟨u, hu, hab, -⟩ := finishFifordall_next st c s
    cases h.symm.trans ((afterFrame_ending hst).trans hu)
    exact .inr ⟨st, rfl, hab⟩
  | none =>
    cases ha : frameAnswer c with
    | overflow => rw [ha] at hst; cases hst
    | badCount => simp only [afterFrame, ha] at h; cases h
    | frame w n =>
      rw [ha, endStatus] at hst
      split_ifs at hst with h0 hfit
      rw [afterFrame_append ha (Nat.pos_of_ne_zero h0) (Nat.not_lt.mp hfit)] at h
      exact .inl ⟨w, n, rfl, (performNext_keeps h).2⟩

theorem proceedFifordall_sameAb (hp : c.point ≠ .closed) (h : proceedFifordall maxBits c s = .next t) : SameAb s t := by
  unfold proceedFifordall at h
  split at h
  next => exact (performNext_keeps h).2
  next => exact (frameStep_keeps h).2
  next => exact closeFifoRead_sameAb h
  next => cases h
  next => cases h
  next hclosed => exact absurd hclosed hp

/-- The running context's FIFORDALL `c` is at the end of a frame's transaction. -/
abbrev State.endsFrame (s : State) (maxBits : BitVec 16) (c : InFlight) : Prop :=
  s.runs (.fifordall maxBits) c ∧ c.point = .closed ∧ c.todo = []

theorem exec_endsFrame (h : s.endsFrame maxBits c) : exec (.fifordall maxBits) s = afterFrame maxBits c s := by
  obtain ⟨hr, hp, hc⟩ := h
  simp only [exec_fifordall_end hr hc, proceedFifordall, hp]

/-- Everywhere else a step of FIFORDALL leaves AB as it was. -/
theorem exec_fifordall_sameAb (hend : ∀ c, ¬s.endsFrame maxBits c) (h : exec (.fifordall maxBits) s = .next t) : SameAb s t := by
  rw [exec_command rfl] at h
  by_cases hf : s.fault = .noFault
  · cases hs : s.slot s.ctx with
    | none =>
      rw [runCommand_idle s _ _ hf hs] at h
      exact accept_sameAb h
    | some c =>
      by_cases hw : c.word = encode (.fifordall maxBits)
      · cases hc : c.todo with
        | nil =>
          rw [runCommand_proceed hf hs hw hc] at h
          exact proceedFifordall_sameAb (fun hp => hend c ⟨⟨hf, hs, hw⟩, hp, hc⟩) h
        | cons p rest =>
          rw [runCommand_block hf hs hw hc, ← performNext_cons c s p rest hc] at h
          exact (performNext_keeps h).2
      · rw [runCommand_other hf hs hw] at h
        rw [reentry_next h]
        exact .refl
  · rw [runCommand_halted s _ _ hf] at h
    cases h
    exact .refl

/-- What a step of FIFORDALL does to AB, said once (R58, R169). -/
inductive AbStep (maxBits : BitVec 16) (s t : State) : Prop
  | same (ht : SameAb s t)
  | appends (c : InFlight) (w : BitVec 32) (n : Nat) (hc : s.endsFrame maxBits c) (ha : frameAnswer c = .frame w n)
      (ht : SameAb (s.setAb (writeBits s.ab c.total w n)) t)
  | ends (c : InFlight) (st : Status) (hc : s.endsFrame maxBits c) (hst : endStatus maxBits c (frameAnswer c) = some st)
      (ht : SameAb (s.forgetAb c.total) t)

theorem exec_abStep (h : exec (.fifordall maxBits) s = .next t) : AbStep maxBits s t := by
  by_cases hend : ∃ c, s.endsFrame maxBits c
  · obtain ⟨c, hc⟩ := hend
    rcases afterFrame_next ((exec_endsFrame hc).symm.trans h) with ⟨w, n, ha, ht⟩ | ⟨st, hst, ht⟩
    · exact .appends c w n hc ha ht
    · exact .ends c st hc hst ht
  · exact .same (exec_fifordall_sameAb (not_exists.mp hend) h)

end

/-! ## The obligations about FIFORDALL and AB -/

/-- Settles O45: each of the three answers ends FIFORDALL with the status that `endStatus` gives. -/
theorem fifordallEnds : Obligations.FifordallEnds := by
  unfold Obligations.FifordallEnds
  intro s c maxBits a r0 r1 r2 r3 st hr hp hc hrx code hcase
  obtain ⟨status, hst, rfl⟩ : ∃ status, endStatus maxBits c (frameAnswer c) = some status ∧ code = 0#12 ++ statusCode status := by
    rw [frameAnswer_eq hrx]
    rcases hcase with ⟨h, rfl⟩ | ⟨h, h0, rfl⟩ | ⟨h, h0, hn, hfull, rfl⟩
    · exact ⟨.overflow, by rw [decodeStatus_overflow h]; rfl, rfl⟩
    · exact ⟨.ok, by rw [decodeStatus_frame h (by omega), endStatus, if_pos h0], rfl⟩
    · exact ⟨.bufferTooSmall, by rw [decodeStatus_frame h hn, endStatus, if_neg (by omega), if_pos hfull], rfl⟩
  obtain ⟨t, hfinish, hab, ht⟩ := finishFifordall_next status c s
  refine ⟨t, ?_, fun j hj => (hab.readBit j).trans (readBit_forgetAb_below s _ j hj), ht⟩
  rw [exec_endsFrame ⟨hr, hp, hc⟩, afterFrame_ending hst, hfinish]

/-- AB read as a number is the number whose bits it holds. -/
theorem readBits_of_bits {s : State} {i n : Nat} (v : Nat) (h : ∀ k, k < n → readBit s (i + k) = v.testBit k) :
    readBits s i n = v % 2 ^ n := by
  induction n with
  | zero => simp [readBits, Nat.mod_one]
  | succ n ih =>
    rw [readBits, ih fun k hk => h k (Nat.lt_succ_of_lt hk), h n (Nat.lt_succ_self n), Nat.toNat_testBit, Nat.mod_pow_succ,
      Nat.mul_comm (2 ^ n)]

/-- Settles O46: the frame is written from `total` on, and the next transaction's first primitive finds the lock free. -/
theorem fifordallAppends : Obligations.FifordallAppends := by
  unfold Obligations.FifordallAppends
  intro s c maxBits a r0 r1 r2 r3 st hr hp hc hrx hlock hst h0 hn hfit
  have hanswer := (frameAnswer_eq hrx).trans (decodeStatus_frame hst hn)
  obtain ⟨t, d, hopen, hslot, -, -, hab, habTotals, hpoint, hword, htotal, -⟩ := openTransaction_next
    { c with total := c.total + st.toNat % 64 } (s.setAb (writeBits s.ab c.total (r3 ++ r2 ++ r1 ++ r0) (st.toNat % 64))) hlock
  have hsame : SameAb (s.setAb (writeBits s.ab c.total (r3 ++ r2 ++ r1 ++ r0) (st.toNat % 64))) t := ⟨hab, habTotals⟩
  have inside (k : Nat) (hk : k < st.toNat % 64) : readBit t (c.total + k) = (r3 ++ r2 ++ r1 ++ r0).getLsbD k :=
    (hsame.readBit _).trans (readBit_append_in s _ _ _ k hk)
  have outside (j : Nat) (hj : j < c.total ∨ c.total + st.toNat % 64 ≤ j) : readBit t j = readBit s j :=
    (hsame.readBit j).trans (readBit_append_out s _ _ _ j hj)
  refine ⟨t, d, ?_, hslot, hpoint, hword, htotal, inside, outside, ?_⟩
  · rw [exec_endsFrame ⟨hr, hp, hc⟩, afterFrame_append hanswer h0 hfit, hopen]
  · have below : readBits t 0 c.total = readBits s 0 c.total :=
      readBits_congr s t 0 _ fun k hk => outside (0 + k) (.inl (by omega))
    have above : readBits t (0 + c.total) (st.toNat % 64) = (r3 ++ r2 ++ r1 ++ r0).toNat % 2 ^ (st.toNat % 64) :=
      readBits_of_bits _ fun k hk => by rw [Nat.zero_add]; exact inside k hk
    rw [htotal, readBits_add, below, above]

/-- Settles O56: read off what a step of FIFORDALL does to AB. -/
theorem frameOfAccumulationBuffer : Obligations.FrameOfAccumulationBuffer := by
  unfold Obligations.FrameOfAccumulationBuffer
  intro s t maxBits h
  have same {c d : InFlight} (hc : s.slot s.ctx = some c) (hd : s.endsFrame maxBits d) : d = c :=
    Option.some.inj (hd.1.2.1.symm.trans hc)
  refine ⟨fun c hs hmid => ?_, fun hs => ?_, fun c w n hr hp hc ha h0 hfit j hj => ?_, fun c hr hp hc j hj => ?_⟩
  · refine (exec_fifordall_sameAb (fun d hd => ?_) h).readBit
    cases same hs hd
    obtain ⟨⟨-, -, hw⟩, hp, hc⟩ := hd
    rcases hmid with hp' | hc' | hw'
    · exact hp' hp
    · exact hc' hc
    · exact hw' hw
  · exact (exec_fifordall_sameAb (fun d hd => by cases hs.symm.trans hd.1.2.1) h).readBit
  · cases exec_abStep h with
    | same ht => exact ht.readBit j
    | appends d v m hd hv ht =>
      cases same hr.2.1 hd
      cases ha.symm.trans hv
      exact (ht.readBit j).trans (readBit_append_out s _ _ _ j hj)
    | ends d st hd hst ht =>
      cases same hr.2.1 hd
      rw [ha, endStatus, if_neg (Nat.pos_iff_ne_zero.mp h0), if_neg (Nat.not_lt.mpr hfit)] at hst
      cases hst
  · cases exec_abStep h with
    | same ht => exact ht.readBit j
    | appends d v m hd hv ht =>
      cases same hr.2.1 hd
      exact (ht.readBit j).trans (readBit_append_out s _ _ _ j (.inl hj))
    | ends d st hd hst ht =>
      cases same hr.2.1 hd
      exact (ht.readBit j).trans (readBit_forgetAb_below s _ j hj)

/-! ## The canonical form of the buffers -/

section
variable {s t : State} {i : Instr}

/-- A wire frame's step is a primitive of the frame in progress, whichever frame it is. -/
theorem exec_frame (hi : i.isCommand = false) (s : State) : ∃ f, exec i s = runFrame f s := by
  cases i with
  | regRead off => exact ⟨.regRead off, rfl⟩
  | regWrite off val => exact ⟨.regWrite off val, rfl⟩
  | fifoWrite len => exact ⟨.fifoWrite len, rfl⟩
  | fifoRead => exact ⟨.fifoRead, rfl⟩
  | _ => cases hi

theorem exec_keeps (h : exec i s = .next t) : s.keeps t := by
  cases hi : i.isCommand with
  | true => exact (exec_step hi h).keeps
  | false =>
    obtain ⟨f, hf⟩ := exec_frame hi s
    exact (runFrame_keeps (hf.symm.trans h)).1

/-- AB changes only in FIFORDALL's steps (R58, R169). -/
theorem exec_sameAb (hi : ∀ n, i ≠ .fifordall n) (h : exec i s = .next t) : SameAb s t := by
  cases hcmd : i.isCommand with
  | true => exact (exec_step hcmd h).buffer hi
  | false =>
    obtain ⟨f, hf⟩ := exec_frame hcmd s
    exact (runFrame_keeps (hf.symm.trans h)).2

theorem State.memoryWf_iff :
    s.memoryWf = true ↔ Memory.wf s.eb = true ∧ Memory.wf s.pb = true ∧ Memory.wf s.ab = true := by
  rw [State.memoryWf, Bool.and_eq_true, Bool.and_eq_true, and_assoc]

theorem AbStep.ab_wf {maxBits : BitVec 16} (h : AbStep maxBits s t) (hab : Memory.wf s.ab = true) : Memory.wf t.ab = true := by
  cases h with
  | same ht => rwa [ht.1]
  | appends c w n _ _ ht => rw [ht.1]; exact writeBits_wf _ _ _ _ hab
  | ends c st _ _ ht => rw [ht.1]; exact forgetFrom_wf _ _ hab

theorem exec_memoryWf (hm : s.memoryWf = true) (h : exec i s = .next t) : t.memoryWf = true := by
  rw [State.memoryWf_iff] at hm ⊢
  obtain ⟨heb, hpb, hab⟩ := hm
  have hk := exec_keeps h
  refine ⟨by rwa [hk.eb], by rwa [hk.pb], ?_⟩
  by_cases hi : ∃ n, i = .fifordall n
  · obtain ⟨n, rfl⟩ := hi
    exact (exec_abStep h).ab_wf hab
  · rwa [(exec_sameAb (not_exists.mp hi) h).1]

/-! ### Each move -/

theorem issue_memoryWf {x : Ctx} {w : CommandWord} (hm : s.memoryWf = true) (h : issue x w s = .next t) : t.memoryWf = true := by
  unfold issue at h
  split at h
  · split at h
    · rw [reentry_next h]; exact hm
    · split at h
      · cases h; exact hm
      · exact exec_memoryWf hm h
  · cases h; exact hm

theorem engineStep_memoryWf {x : Ctx} {rx : Byte} (hm : s.memoryWf = true) (h : engineStep x rx s = .next t) :
    t.memoryWf = true := by
  unfold engineStep at h
  split at h
  · split at h
    · cases h; exact hm
    · split at h
      · exact exec_memoryWf (s := s.receive rx) hm h
      · cases h
  · cases h; exact hm

theorem clientWriteEB_memoryWf {x : Ctx} {n : Nat} {e : ConfigEntry} (hm : s.memoryWf = true) (h : clientWriteEB x n e s = .next t) :
    t.memoryWf = true := by
  unfold clientWriteEB at h
  split at h
  · split at h
    · cases h
      obtain ⟨heb, hrest⟩ := State.memoryWf_iff.mp hm
      exact State.memoryWf_iff.mpr ⟨writeCell_wf _ _ _ heb, hrest⟩
    · cases h
  · cases h; exact hm

theorem clientWritePB_memoryWf {x : Ctx} {n : Nat} {b : Byte} (hm : s.memoryWf = true) (h : clientWritePB x n b s = .next t) :
    t.memoryWf = true := by
  unfold clientWritePB at h
  split at h
  · split at h
    · cases h
      obtain ⟨heb, hpb, hab⟩ := State.memoryWf_iff.mp hm
      exact State.memoryWf_iff.mpr ⟨heb, writeCell_wf _ _ _ hpb, hab⟩
    · cases h
  · cases h; exact hm

theorem lineEdge_memoryWf (hm : s.memoryWf = true) (e : Edge) : (lineEdge e s).memoryWf = true := by
  unfold lineEdge; split <;> exact hm

theorem isrEnter_memoryWf (hm : s.memoryWf = true) : (isrEnter s).memoryWf = true := by
  unfold isrEnter; split <;> exact hm

theorem isrExit_memoryWf (hm : s.memoryWf = true) : (isrExit s).memoryWf = true := by
  unfold isrExit; split <;> exact hm

theorem takeMove_memoryWf {m : Move} (hm : s.memoryWf = true) (h : takeMove m s = .next t) : t.memoryWf = true := by
  cases m with
  | issue x w => exact issue_memoryWf hm h
  | engine x rx => exact engineStep_memoryWf hm h
  | edge e => cases h; exact lineEdge_memoryWf hm e
  | isrEnter => cases h; exact isrEnter_memoryWf hm
  | isrExit => cases h; exact isrExit_memoryWf hm
  | writeEB x n e => exact clientWriteEB_memoryWf hm h
  | writePB x n b => exact clientWritePB_memoryWf hm h

end

/-- Settles O13: every move writes cells in order, forgets cells, or leaves the buffers alone. -/
theorem stepKeepsBuffersCanonical : Obligations.StepKeepsBuffersCanonical := by
  unfold Obligations.StepKeepsBuffersCanonical
  intro s t hm ht
  have h := step_wellFormed ht
  unfold nextMove at h
  split at h
  next => cases h; exact hm
  next m rest _ => exact takeMove_memoryWf (s := s.setScript rest) hm h

end Sys2Proof.Machine
end

section
/-! PROOFS. Command words and wire frames read back from what they are encoded as, the words that select no command, and the checks that
end at acceptance (R80-R83, R87-R93, R95). -/

namespace Sys2Proof.Machine

/-! ## Command words (R81-R83) -/

/-- Settles O1: the fields of each command's word are its opcode, zero reserved bits and its operands. -/
theorem commandsDecodeFromTheirWords : Obligations.CommandsDecodeFromTheirWords := by
  unfold Obligations.CommandsDecodeFromTheirWords
  exact fun i => decode_encode

/-- Settles O2: a word is its opcode, its reserved bits and its operands, and a decoded word's reserved bits are zero. -/
theorem decodedWordIsItsEncoding : Obligations.DecodedWordIsItsEncoding := by
  unfold Obligations.DecodedWordIsItsEncoding
  exact fun w i h => ⟨isCommand_of_decode h, encode_of_decode h⟩

/-! ## Words that select no command (R82, R83, R93) -/

theorem extractLsb'_eq_zero_iff (w : CommandWord) (i n : Nat) : w.extractLsb' i n = 0#n ↔ w.toNat / 2 ^ i % 2 ^ n = 0 := by
  rw [← BitVec.toNat_inj, BitVec.extractLsb'_toNat, Nat.shiftRight_eq_div_pow, BitVec.toNat_zero]

/-- Checking reserved bits rejects exactly the words that have one set, and never as an illegal opcode. -/
theorem checked_rejects (w : CommandWord) (i n : Nat) (j : Instr) :
    checked (w.extractLsb' i n == 0) j ≠ .error .illegalOpcode ∧
      (checked (w.extractLsb' i n == 0) j = .error .reservedField ↔ w.toNat / 2 ^ i % 2 ^ n ≠ 0) := by
  simp only [ne_eq, ← extractLsb'_eq_zero_iff w i n]
  by_cases hz : w.extractLsb' i n = 0#n <;> simp [checked, hz]

/-- A word with a legal opcode is a command unless one of the reserved bits of that opcode's layout is set. -/
theorem decode_of_layout {w : CommandWord} {r : Nat × Nat × Nat} (hr : r ∈ reservedBits) (ho : w.toNat / 2 ^ 28 = r.1) :
    ∃ j, decode w = checked (w.extractLsb' r.2.1 r.2.2 == 0) j := by
  have opcode (op : BitVec 4) (h : w.toNat / 2 ^ 28 = op.toNat) : opcodeOf w = op := (opcodeOf_eq_iff w op).mpr h
  simp only [reservedBits, List.mem_cons, List.not_mem_nil, or_false] at hr
  rcases hr with rfl | rfl | rfl | rfl | rfl | rfl | rfl
  · exact ⟨_, decode_rdreg w (opcode 1 ho)⟩
  · exact ⟨_, decode_wrreg w (opcode 2 ho)⟩
  · exact ⟨_, decode_wrbulk w (opcode 3 ho)⟩
  · exact ⟨_, decode_fifowr w (opcode 4 ho)⟩
  · exact ⟨_, decode_fiford w (opcode 5 ho)⟩
  · exact ⟨_, decode_fifordall w (opcode 6 ho)⟩
  · exact ⟨_, decode_pginv w (opcode 7 ho)⟩

/-- The opcodes 0x0 and 0x8 to 0xF select no command. -/
theorem decode_illegal {w : CommandWord} (h : w.toNat / 2 ^ 28 = 0 ∨ 8 ≤ w.toNat / 2 ^ 28) : decode w = .error .illegalOpcode := by
  have ho : (opcodeOf w).toNat = w.toNat / 2 ^ 28 := ((opcodeOf_eq_iff w (opcodeOf w)).mp rfl).symm
  unfold decode
  split
  case h_8 => rfl
  all_goals omega

/-- The opcodes that have a layout are 0x1 to 0x7. -/
theorem exists_layout_iff (op : Nat) : (∃ r ∈ reservedBits, op = r.1) ↔ 1 ≤ op ∧ op ≤ 7 := by
  simp only [reservedBits, List.mem_cons, List.not_mem_nil, or_false, exists_eq_or_imp, exists_eq_left]
  omega

/-- An opcode has one layout. -/
theorem layout_unique : ∀ r ∈ reservedBits, ∀ r' ∈ reservedBits, r.1 = r'.1 → r = r' := by decide

/-- Settles O3: an opcode without a layout is illegal whatever the other bits; one with a layout is checked against it alone. -/
theorem rejectedWords : Obligations.RejectedWords := by
  unfold Obligations.RejectedWords
  intro w
  by_cases hlayout : ∃ r ∈ reservedBits, w.toNat / 2 ^ 28 = r.1
  · obtain ⟨r, hr, ho⟩ := hlayout
    have hlegal := (exists_layout_iff _).mp ⟨r, hr, ho⟩
    obtain ⟨j, hj⟩ := decode_of_layout hr ho
    obtain ⟨hop, hbits⟩ := checked_rejects w r.2.1 r.2.2 j
    rw [hj]
    refine ⟨iff_of_false hop (by omega), hbits.trans ⟨fun h => ⟨r, hr, ho, h⟩, ?_⟩⟩
    rintro ⟨r', hr', ho', h⟩
    rwa [layout_unique r hr r' hr' (ho.symm.trans ho')]
  · have hillegal : w.toNat / 2 ^ 28 = 0 ∨ 8 ≤ w.toNat / 2 ^ 28 := by
      rw [exists_layout_iff] at hlayout; omega
    rw [decode_illegal hillegal]
    exact ⟨iff_of_true rfl hillegal, iff_of_false (by simp) fun ⟨r, hr, ho, _⟩ => hlayout ⟨r, hr, ho⟩⟩

/-- Settles O4: each example is evaluated. -/
theorem specExamplesDecodeAndAssemble : Obligations.SpecExamplesDecodeAndAssemble := by
  unfold Obligations.SpecExamplesDecodeAndAssemble
  refine ⟨?_, fun cfg => ?_⟩
  · exact ⟨rfl, rfl, rfl, rfl, rfl, rfl, rfl, rfl⟩
  · exact ⟨rfl, rfl, rfl, rfl, rfl, rfl, rfl, rfl, rfl, rfl, rfl⟩

/-! ## Wire frames (R87-R92) -/

section
variable {cfg : Config} {payload rest : List Byte}

/-- The four command bytes of a well-formed configuration differ (R10). -/
theorem commandBytes_ne (h : cfg.wf = true) :
    cfg.cmdRead ≠ cfg.cmdWrite ∧ cfg.cmdRead ≠ cfg.cmdFifoWrite ∧ cfg.cmdRead ≠ cfg.cmdFifoRead ∧
      cfg.cmdWrite ≠ cfg.cmdFifoWrite ∧ cfg.cmdWrite ≠ cfg.cmdFifoRead ∧ cfg.cmdFifoWrite ≠ cfg.cmdFifoRead :=
  ((configurationCheck.1 cfg).mp h).1

theorem payloadCount_eq (len : Byte) : payloadCount len = (len.toNat + 8) / 8 := rfl

/-- After the command byte of FIFO_WRITE and its length byte, as many bytes are the payload as the length byte says (R92). -/
theorem decodeFrame_fifoWrite (h : cfg.wf = true) (len : Byte) (hlen : payload.length = payloadCount len) :
    decodeFrame cfg (cfg.cmdFifoWrite :: len :: (payload ++ rest)) = .ok (.fifoWrite len, payload, rest) := by
  obtain ⟨-, hrw, -, hww, -, -⟩ := commandBytes_ne h
  simp [decodeFrame, hrw.symm, hww.symm, ← hlen]

end

/-- Settles O5: the command bytes differ, so the first byte selects the frame, and the bytes after it are as many as it takes. -/
theorem framesDecodeFromTheirBytes : Obligations.FramesDecodeFromTheirBytes := by
  unfold Obligations.FramesDecodeFromTheirBytes
  intro cfg i payload rest hcfg hi hlen
  obtain ⟨hrw, -, hrr, -, hwr, hfr⟩ := commandBytes_ne hcfg
  have empty (h : payload.length + 2 = 2) : payload = [] := List.length_eq_zero_iff.mp (by omega)
  cases i with
  | regRead off => simp [empty hlen, encodeFrame, decodeFrame]
  | regWrite off val => simp [empty hlen, encodeFrame, decodeFrame, hrw.symm]
  | fifoWrite len => exact decodeFrame_fifoWrite hcfg len (by rw [payloadCount_eq]; simp only at hlen; omega)
  | fifoRead => simp [empty hlen, encodeFrame, decodeFrame, hrr.symm, hwr.symm, hfr.symm]
  | _ => cases hi

/-- Settles O6: one case for each way the reader of the line finds a whole frame. -/
theorem frameLengthIsDecidedByItsBytes : Obligations.FrameLengthIsDecidedByItsBytes := by
  unfold Obligations.FrameLengthIsDecidedByItsBytes
  intro cfg bytes i payload rest h
  unfold decodeFrame at h
  split at h
  next => cases h
  next b tail =>
    split_ifs at h with hr hw hfw hfr
    · split at h <;> cases h
      simp [frameCommandByte, frameLength, hr]; omega
    · split at h <;> cases h
      simp [frameCommandByte, frameLength, hw]; omega
    · split at h
      next len tail =>
        split_ifs at h with hlen
        cases h
        rw [payloadCount_eq] at hlen ⊢
        simp [frameCommandByte, frameLength, hfw, Nat.add_comm 2]; omega
      next => cases h
    · split at h <;> cases h
      simp [frameCommandByte, frameLength, hfr]; omega

/-! ## Checks that end at acceptance (R93) -/

/-- A word that selects no command, issued into an empty slot, is a fault that records it (R93, R212). -/
theorem step_issue_rejected {s : State} {w : CommandWord} {moves : List Move} {r : CommandReject} (hwf : s.cfg.wf = true)
    (hscript : s.script = .issue s.ctx w :: moves) (hf : s.fault = .noFault) (hs : s.slot s.ctx = none)
    (hw : decode w = .error r) :
    step s = .next ((s.setScript moves).raised (rejectCode r) ⟨w, s.ctx, none, none⟩) := by
  have hmay : (s.setScript moves).mayStep s.ctx = true := State.mayStep_iff.mpr ⟨hf, rfl⟩
  rw [step_of_script hwf hscript, takeMove, issue, if_pos hmay]
  simp only [State.setScript_slot, hs, hw]
  rfl

/-- Settles O24: each of the two ways a word is rejected has its fault code. -/
theorem rejectedWordFaults : Obligations.RejectedWordFaults := by
  unfold Obligations.RejectedWordFaults
  intro s w moves hwf hscript hf hs
  exact ⟨step_issue_rejected hwf hscript hf hs, step_issue_rejected hwf hscript hf hs⟩

/-- The first bad entry at or above index `k` is the one that every entry between passes before. -/
theorem firstBadEntry_eq_some {s : State} {n k j : Nat} {f : OperandFault} (hk : k ≤ j) (hj : j < k + n)
    (hbefore : ∀ m, m < j → writeTargetFault s.cfg (readEntry s m).addr = none)
    (hbad : writeTargetFault s.cfg (readEntry s j).addr = some f) : firstBadEntry s n k = some (f, j) := by
  induction n generalizing k with
  | zero => omega
  | succ n ih =>
    rcases hk.eq_or_lt with rfl | hlt
    · rw [firstBadEntry, hbad]
    · rw [firstBadEntry, hbefore k hlt]
      exact ih hlt (by omega)

/-- A WRBULK whose first bad entry is entry `j` faults at acceptance with that entry's fault and index. -/
theorem exec_wrbulk_badEntry {s : State} {count : BitVec 16} {j : Nat} {f : OperandFault} (h : s.idle)
    (hcount : count.toNat ≤ s.cfg.maxBulk) (hj : j < count.toNat)
    (hbefore : ∀ k, k < j → writeTargetFault s.cfg (readEntry s k).addr = none)
    (hbad : writeTargetFault s.cfg (readEntry s j).addr = some f) :
    exec (.wrbulk count) s = .next (s.raised (operandFaultCode f) ⟨encode (.wrbulk count), s.ctx, some j, none⟩) := by
  have hrange : operandFault s.cfg (.wrbulk count) = none := if_pos hcount
  have hentry : firstBadEntry s (checkedEntries (.wrbulk count)) 0 = some (f, j) :=
    firstBadEntry_eq_some (Nat.zero_le j) (by simpa [checkedEntries] using hj) hbefore hbad
  rw [exec_idle h rfl, accept_some s _ f (some j) (by simp [acceptFault, hrange, hentry])]
  rfl

theorem writeTargetFault_protected {cfg : Config} {a : RegAddr} (ha : a.toNat < 2 ^ 10)
    (hp : protocolOffset cfg (offsetOf a) = true) : writeTargetFault cfg a = some .protectedTarget := by
  rw [writeTargetFault, if_neg (not_not_intro ((addrReserved_eq_zero_iff a).mpr ha)), if_pos hp]

/-- Settles O28: the entries are gone through in index order, and the first that fails decides. -/
theorem bulkEntriesAreCheckedInOrder : Obligations.BulkEntriesAreCheckedInOrder := by
  unfold Obligations.BulkEntriesAreCheckedInOrder
  intro s count j hidle hcount hj hbefore
  exact ⟨fun hres => exec_wrbulk_badEntry hidle hcount hj hbefore (writeTargetFault_reserved hres),
    fun hlow hprot => exec_wrbulk_badEntry hidle hcount hj hbefore (writeTargetFault_protected hlow hprot)⟩

end Sys2Proof.Machine
end

section
/-! PROOFS. How each command ends: the end of RDREG's body, and the responses of RDREG, WRREG, WRBULK, FIFOWR and FIFORD (R84, R85). -/

namespace Sys2Proof.Machine

/-- A response is recorded on the running context's port, and its slot is emptied. -/
theorem respond_next (r : ResponseWord) (s : State) :
    respond r s = .next { s.putSlot s.ctx none with history := s.history ++ [.resp s.ctx r] } := by
  rw [respond_eq, State.emit, State.putSlot_history]

/-- The first primitive of a transaction's end is no exchange: the command's responses stay, and all its locals but `ok`. -/
theorem closeTransaction_keeps (ok : Bool) (c : InFlight) (s : State) :
    ∃ t rest, closeTransaction ok c s = .next t ∧
      t.slot s.ctx = some { c with point := .closed, todo := rest, ok := ok } ∧ t.pageCache = s.pageCache := by
  obtain ⟨t, rest, rx, ht, hslot, hcache⟩ := closeTransaction_begins ok c s
  obtain ⟨t', d, ht', hslot', -, -, -, -, -, -, -, hrx⟩ := closeTransaction_next ok c s
  cases ht.symm.trans ht'
  cases hslot.symm.trans hslot'
  cases hrx
  exact ⟨t, rest, ht, hslot, hcache⟩

/-! ## Response words (R84) -/

/-- RDREG's response has the value above four zero bits and the status. -/
theorem dataResponse_eq (st : Status) (data : Byte) : dataResponse st data = 0#48 ++ data ++ (0#4 ++ statusCode st) := by
  rw [dataResponse, BitVec.append_assoc, BitVec.cast_eq]

theorem statusResponse_success (ok : Bool) : statusResponse (successStatus ok) = if ok = true then 0 else 1 := by
  cases ok <;> rfl

/-- FIFORD's response to a whole frame has the status byte's low six bits as its count. -/
theorem frameResponse_ok (w : BitVec 32) (st : Byte) :
    frameResponse .ok w (st.toNat % 64) = w ++ 0#10 ++ st.extractLsb' 0 6 ++ 0x0000#16 := by
  have hcount : BitVec.ofNat 6 (st.toNat % 64) = st.extractLsb' 0 6 := by
    rw [← validCount_eq, validCount, BitVec.ofNat_toNat, BitVec.setWidth_eq]
  rw [frameResponse, hcount, BitVec.append_assoc, BitVec.cast_eq]
  rfl

/-! ## The completion of each command -/

/-- Settles O41: the read frame's end begins the transaction's end, and a closed RDREG responds by its success. -/
theorem rdregResponds : Obligations.RdregResponds := by
  unfold Obligations.RdregResponds
  intro s c addr hr hc
  have closed (hp : c.point = .closed) : exec (.rdreg addr) s = finishRdreg c s := by
    simp only [exec_rdreg_end hr hc, proceedRdreg, hp]
  refine ⟨fun f hp => ?_, fun a b d hp hok hrx => ?_, fun hp hok => ⟨Config.freeByte s.draws, ?_⟩⟩
  · obtain ⟨t, rest, ht, hslot, hcache⟩ := closeTransaction_keeps true c s
    refine ⟨t, _, ?_, hslot, hcache, rfl, rfl, rfl, ⟨rfl, rfl, rfl, rfl, rfl⟩⟩
    simp only [exec_rdreg_end hr hc, proceedRdreg, hp, ht]
  · have hvalue : readAnswer c = d := by rw [readAnswer, hrx]; rfl
    rw [closed hp, finishRdreg, if_pos hok, hvalue, respond_next, dataResponse_eq]
    rfl
  · rw [closed hp, finishRdreg, if_neg (by simp [hok]), respond_next, dataResponse_eq, State.countDraw_ctx]
    cases s.ctx <;> rfl

/-- Settles O42: a closed WRREG or FIFOWR responds with its status alone. -/
theorem writeCommandsRespond : Obligations.WriteCommandsRespond := by
  unfold Obligations.WriteCommandsRespond
  intro s c hp hc
  refine ⟨fun addr val hr => ?_, fun nbits hr => ?_⟩
  · simp only [exec_wrreg_end hr hc, proceedWrreg, hp, respond_next, statusResponse_success]
  · simp only [exec_fifowr_end hr hc, proceedFifowr, hp, respond_next]
    rfl

/-- Settles O43: a closed WRBULK succeeded iff its index reached the number of entries. -/
theorem wrbulkResponds : Obligations.WrbulkResponds := by
  unfold Obligations.WrbulkResponds
  intro s c count hr hp hc
  have hstatus : 0#12 ++ statusCode (successStatus (c.index == count.toNat)) =
      if c.index = count.toNat then 0x0000#16 else 0x0001#16 := by
    by_cases h : c.index = count.toNat <;> simp [h, successStatus, statusCode]
  simp only [exec_wrbulk_end hr hc, proceedWrbulk, hp, respond_next, countResponse_eq, hstatus]

/-- Settles O44: bit 7 of the status byte chooses the response. -/
theorem fifordResponds : Obligations.FifordResponds := by
  unfold Obligations.FifordResponds
  intro s c a r0 r1 r2 r3 st hr hp hc hrx
  have closed : exec .fiford s = finishFiford c s := by
    simp only [exec_fiford_end hr hc, proceedFiford, hp]
  refine ⟨fun hover => ?_, fun hlow hcount => ?_⟩
  · rw [closed, finishFiford, frameAnswer_eq hrx, decodeStatus_overflow hover]
    exact respond_next _ s
  · rw [closed, finishFiford, frameAnswer_eq hrx, decodeStatus_frame hlow hcount]
    simp only [respond_next, frameResponse_ok]

end Sys2Proof.Machine
end

section
/-! PROOFS. Runs, said once for every command and wire frame: through the primitives left of a block, from the end of one block through the
next, and through a whole transaction (R33, R194, R195). -/

namespace Sys2Proof.Machine

/-! ## What a primitive and its answer do to the engine -/

/-- What primitive `p` with answer `rx` does to the engine, the slot of its command aside; `marked` is that command's mark (log 8). -/
def State.drive (marked : Bool) (s : State) : Prim × Byte → State
  | (.mask, rx) => ((s.receive rx).setMask true).emit .mask
  | (.unmask, rx) => ((s.receive rx).setMask false).emit .unmask
  | (.lockAcq, rx) => ((s.receive rx).setLock true (some s.ctx)).emit (.lockAcq s.ctx)
  | (.lockRel, rx) => ((s.receive rx).setLock false none).emit (.lockRel s.ctx)
  | (.csAssert, rx) => ((s.receive rx).setCs true).emit (.csAssert s.ctx)
  | (.csDeassert, rx) => ((s.receive rx).setCs false).emit (.csDeassert s.ctx)
  | (.order o, rx) => ((s.receive rx).setOrder o).emit (.order o s.ctx)
  | (.xchg (.byte b), rx) => (s.receive rx).emit (.xchg b rx s.bitOrder s.ctx)
  | (.xchg (.payload k), rx) =>
    { s.receive rx with draws := s.draws + (if marked then 1 else 0) }.emit
      (.xchg (if marked then Config.freeByte s.draws else readPayload s k) rx s.bitOrder s.ctx)

/-- The engine after these primitives with these answers. -/
def State.driveAll (marked : Bool) (ps : List Prim) (rxs : List Byte) (s : State) : State := (ps.zip rxs).foldl (State.drive marked) s

/-- The answer that a primitive hands to its command: an exchange's. -/
def Prim.answer : Prim × Byte → Option Byte
  | (.xchg _, rx) => some rx
  | _ => none

/-- The responses that these primitives with these answers hand to their command (R131, R164). -/
def answers (ps : List Prim) (rxs : List Byte) : List Byte := (ps.zip rxs).filterMap Prim.answer

section
variable {s u : State} {i : Instr} {c d : InFlight} {p : Prim} {rx : Byte} {ps : List Prim} {rxs : List Byte} {m : Bool}

theorem putSlot_self {x : Ctx} {o : Option InFlight} (h : s.slot x = o) : s.putSlot x o = s := by
  cases x <;> (rw [← h]; rfl)

/-- A primitive drives the lines, the lock, the order and the history, and no other field. -/
theorem drive_same (m : Bool) (s : State) (q : Prim × Byte) : s.drive m q = { s with
    irqMasked := (s.drive m q).irqMasked, lockHeld := (s.drive m q).lockHeld, lockOwner := (s.drive m q).lockOwner,
    csAsserted := (s.drive m q).csAsserted, bitOrder := (s.drive m q).bitOrder, history := (s.drive m q).history,
    draws := (s.drive m q).draws, rxIn := (s.drive m q).rxIn } := by
  obtain ⟨p, rx⟩ := q
  cases p with
  | xchg src => cases src <;> rfl
  | _ => rfl

/-- The slots are no part of what a primitive drives. -/
theorem drive_putSlot (m : Bool) (s : State) (x : Ctx) (o : Option InFlight) (q : Prim × Byte) :
    (s.putSlot x o).drive m q = (s.drive m q).putSlot x o := by
  obtain ⟨p, rx⟩ := q
  cases p with
  | xchg src => cases src <;> cases x <;> rfl
  | _ => cases x <;> rfl

theorem driveAll_putSlot (m : Bool) (ps : List Prim) (rxs : List Byte) (s : State) (x : Ctx) (o : Option InFlight) :
    (s.putSlot x o).driveAll m ps rxs = (s.driveAll m ps rxs).putSlot x o :=
  List.foldl_hom (State.putSlot · x o) fun v q => drive_putSlot m v x o q

/-- What no primitive changes, a run of them does not change. -/
theorem driveAll_field {α : Type} (g : State → α) (hg : ∀ v q, g (State.drive m v q) = g v) (s : State) :
    g (s.driveAll m ps rxs) = g s := by
  unfold State.driveAll
  induction ps.zip rxs generalizing s with
  | nil => rfl
  | cons q qs ih => exact (ih _).trans (hg s q)

@[simp] theorem driveAll_cfg : (s.driveAll m ps rxs).cfg = s.cfg :=
  driveAll_field State.cfg (fun v q => by rw [drive_same]) s

@[simp] theorem driveAll_ctx : (s.driveAll m ps rxs).ctx = s.ctx :=
  driveAll_field State.ctx (fun v q => by rw [drive_same]; rfl) s

@[simp] theorem driveAll_fault : (s.driveAll m ps rxs).fault = s.fault :=
  driveAll_field State.fault (fun v q => by rw [drive_same]) s

@[simp] theorem driveAll_pageCache : (s.driveAll m ps rxs).pageCache = s.pageCache :=
  driveAll_field State.pageCache (fun v q => by rw [drive_same]) s

@[simp] theorem driveAll_slot (x : Ctx) : (s.driveAll m ps rxs).slot x = s.slot x :=
  driveAll_field (State.slot · x) (fun v q => by rw [drive_same]; cases x <;> rfl) s

/-- The byte that the transport supplied before is no part of what a primitive does. -/
theorem drive_receive (m : Bool) (s : State) (q : Byte) (e : Prim × Byte) : (s.receive q).drive m e = s.drive m e := by
  obtain ⟨p, rx⟩ := e
  cases p with
  | xchg src => cases src <;> rfl
  | _ => rfl

theorem driveAll_cons : s.driveAll m (p :: ps) (rx :: rxs) = (s.drive m (p, rx)).driveAll m ps rxs := rfl

theorem driveAll_receive (q : Byte) (hne : ps ≠ []) (hlen : rxs.length = ps.length) :
    (s.receive q).driveAll m ps rxs = s.driveAll m ps rxs := by
  obtain ⟨p, ps, rfl⟩ := List.exists_cons_of_ne_nil hne
  obtain ⟨rx, rxs, rfl⟩ := List.exists_cons_of_length_eq_add_one hlen
  rw [driveAll_cons, drive_receive, driveAll_cons]

theorem driveAll_append {ps' : List Prim} {rxs' : List Byte} (h : rxs.length = ps.length) :
    s.driveAll m (ps ++ ps') (rxs ++ rxs') = (s.driveAll m ps rxs).driveAll m ps' rxs' := by
  rw [State.driveAll, List.zip_append h.symm, List.foldl_append]
  rfl

theorem answers_append {ps' : List Prim} {rxs' : List Byte} (h : rxs.length = ps.length) :
    answers (ps ++ ps') (rxs ++ rxs') = answers ps rxs ++ answers ps' rxs' := by
  rw [answers, List.zip_append h.symm, List.filterMap_append]
  rfl

theorem answers_cons : answers (p :: ps) (rx :: rxs) = answers [p] [rx] ++ answers ps rxs := 
  answers_append (ps := [p]) (rxs := [rx]) rfl

/-! ## Runs through a block -/

/-- One primitive that finds the lock free if it takes it (R192): the engine is driven, and the command takes the answer. -/
theorem perform_drive (hfree : p = .lockAcq → s.lockHeld = false) : perform p c (s.receive rx) = .next
    ((s.drive c.tainted (p, rx)).putSlot s.ctx (some { c with rx := c.rx ++ answers [p] [rx] })) := by
  cases p with
  | lockAcq =>
    rw [perform_lockAcq_free c (s.receive rx) (hfree rfl), show answers [_] [rx] = [] from rfl, List.append_nil]
    cases hx : s.ctx <;> simp only [State.receive_ctx, State.drive, hx] <;> rfl
  | xchg src =>
    cases src with
    | byte b => cases hx : s.ctx <;> simp only [perform, State.receive_ctx, State.drive, hx] <;> rfl
    | payload k =>
      cases hm : c.tainted <;> cases hx : s.ctx <;>
        simp only [perform, txDrawn, txByte, State.receive_ctx, State.drive, hm, hx] <;> rfl
  | _ =>
    rw [show answers [_] [rx] = [] from rfl, List.append_nil]
    cases hx : s.ctx <;> simp only [perform, State.receive_ctx, State.drive, hx] <;> rfl

/-- Before a block's own LOCK_ACQ the lock stays free if it was (R192, R193). -/
theorem drive_lockHeld (hp : p ≠ .lockAcq) (hl : s.lockHeld = false) : (s.drive m (p, rx)).lockHeld = false := by
  cases p with
  | lockAcq => exact absurd rfl hp
  | lockRel => rfl
  | xchg src => cases src <;> exact hl
  | _ => exact hl

/-- A step inside a block drives the engine by the next primitive, and the command takes its answer. -/
theorem exec_drive {rest : List Prim} (he : s.executes i c) (hc : c.todo = p :: rest) (hfree : p = .lockAcq → s.lockHeld = false) :
    exec i (s.receive rx) = .next ((s.drive c.tainted (p, rx)).putSlot s.ctx
      (some { c with todo := rest, rx := c.rx ++ answers [p] [rx] })) := by
  have he' : (s.receive rx).executes i c := ⟨he.1, (s.receive_slot _ rx).trans he.2.1, he.2.2⟩
  rw [exec_block he' hc]
  exact perform_drive hfree

/-- A command that moved on in its block is still executing the same instruction. -/
theorem executes_putSlot (he : s.executes i c) (hf : u.fault = s.fault) (hx : u.ctx = s.ctx) (todo : List Prim) (rxs : List Byte) :
    (u.putSlot s.ctx (some { c with todo := todo, rx := rxs })).executes i { c with todo := todo, rx := rxs } := by
  refine ⟨by rw [State.putSlot_fault, hf, he.1], ?_, he.2.2⟩
  rw [State.putSlot_ctx, hx, State.putSlot_slot_same]

/-- A command or wire frame runs through the next primitives of its block, which take the lock at most once and find it free then. -/
theorem execRun_prims {rest : List Prim} (he : s.executes i c) (hc : c.todo = ps ++ rest) (hlen : rxs.length = ps.length)
    (honce : ps.count .lockAcq ≤ 1) (hfree : .lockAcq ∈ ps → s.lockHeld = false) :
    execRun i rxs s = .next ((s.driveAll c.tainted ps rxs).putSlot s.ctx
      (some { c with todo := rest, rx := c.rx ++ answers ps rxs })) := by
  induction ps generalizing s c rxs with
  | nil =>
    obtain rfl := List.length_eq_zero_iff.mp hlen
    obtain rfl : c.todo = rest := hc
    have hsame : ({ c with todo := c.todo, rx := c.rx ++ answers [] [] } : InFlight) = c := by
      rw [show answers [] [] = [] from rfl, List.append_nil]
    rw [hsame, show s.driveAll c.tainted [] [] = s from rfl, putSlot_self he.2.1]
    rfl
  | cons p ps ih =>
    obtain ⟨rx, rxs, rfl⟩ := List.exists_cons_of_length_eq_add_one hlen
    have hf : (s.drive c.tainted (p, rx)).fault = s.fault := by rw [drive_same]
    have hx : (s.drive c.tainted (p, rx)).ctx = s.ctx := by rw [drive_same]; rfl
    have free (hm : .lockAcq ∈ ps) : (s.drive c.tainted (p, rx)).lockHeld = false := by
      refine drive_lockHeld ?_ (hfree (List.mem_cons_of_mem p hm))
      rintro rfl
      have := List.count_pos_iff.mpr hm
      rw [List.count_cons_self] at honce
      omega
    rw [execRun_cons (exec_drive (rest := ps ++ rest) he hc fun hp => hfree (by rw [hp]; exact List.mem_cons_self)),
      ih (executes_putSlot he hf hx _ _) rfl (Nat.succ_inj.mp hlen) (List.count_le_count_cons.trans honce)
        (by rwa [State.putSlot_lockHeld]),
      driveAll_putSlot, State.putSlot_ctx, hx, putSlot_putSlot, driveAll_cons, answers_cons (ps := ps),
      ← List.append_assoc]

/-- LOCK_ACQ stands in a block at most once. -/
theorem blockPrims_lockAcq_once (cfg : Config) (x : Ctx) (pt : Point) : (blockPrims cfg x pt).count .lockAcq ≤ 1 := by
  by_cases h : .lockAcq ∈ blockPrims cfg x pt
  · obtain rfl := lockAcq_mem_block h
    cases x <;> cases hm : cfg.csMode <;> simp [blockPrims, openPrims, hm]
  · rw [List.count_eq_zero_of_not_mem h]
    exact Nat.zero_le 1

/-- A command or wire frame runs through a whole block. -/
theorem execRun_block (he : s.executes i c) (hc : c.todo = blockPrims s.cfg s.ctx c.point) (hlen : rxs.length = c.todo.length)
    (hfree : c.point = .opened → s.lockHeld = false) :
    execRun i rxs s = .next ((s.driveAll c.tainted c.todo rxs).putSlot s.ctx
      (some { c with todo := [], rx := c.rx ++ answers c.todo rxs })) :=
  execRun_prims he (List.append_nil _).symm hlen (hc ▸ blockPrims_lockAcq_once _ _ _)
    fun hm => hfree (lockAcq_mem_block (hc ▸ hm))

/-- The step that begins a block is the first step inside it. -/
theorem exec_putSlot_block (he : (s.putSlot s.ctx (some d)).executes i d) (hd : d.todo ≠ [])
    (hfree : .lockAcq ∈ d.todo → s.lockHeld = false) : exec i (s.putSlot s.ctx (some d)) = performNext d s := by
  obtain ⟨p, rest, hp⟩ := List.exists_cons_of_ne_nil hd
  rw [exec_block he hp, performNext_cons d s p rest hp]
  refine perform_putSlot p _ s _ ?_
  by_cases hl : p = .lockAcq
  · exact .inl (hfree (by rw [hp, hl]; exact List.mem_cons_self))
  · exact .inr hl

/-- At the end of a block a command's step is its pseudocode's, whatever the transport answers. -/
theorem exec_receive_end (hi : i.isCommand = true) (hr : s.runs i c) (hc : c.todo = []) (q : Byte) :
    exec i (s.receive q) = proceed i c (s.receive q) := by
  obtain ⟨hf, hs, hw⟩ := hr
  rw [exec_command hi]
  exact runCommand_proceed hf ((s.receive_slot s.ctx q).trans hs) hw hc

theorem receive_putSlot (s : State) (x : Ctx) (o : Option InFlight) (q : Byte) :
    (s.putSlot x o).receive q = (s.receive q).putSlot x o := by
  cases x <;> rfl

/-- From the end of a block a command runs through the block it begins next. -/
theorem execRun_next_block (hi : i.isCommand = true) (hr : s.runs i c) (hc : c.todo = [])
    (hp : ∀ q, proceed i c (s.receive q) = performNext d (s.receive q)) (hw : d.word = c.word)
    (hd : d.todo = blockPrims s.cfg s.ctx d.point) (hfree : d.point = .opened → s.lockHeld = false)
    (hlen : rxs.length = d.todo.length) (hne : d.todo ≠ []) :
    execRun i rxs s = .next ((s.driveAll d.tainted d.todo rxs).putSlot s.ctx
      (some { d with todo := [], rx := d.rx ++ answers d.todo rxs })) := by
  have he (u : State) (hf : u.fault = .noFault) : (u.putSlot u.ctx (some d)).executes i d :=
    ⟨by rw [State.putSlot_fault, hf], by rw [State.putSlot_ctx, State.putSlot_slot_same], .inl ⟨hi, hw.trans hr.2.2⟩⟩
  have hblock := execRun_block (he s hr.1) (by rwa [State.putSlot_cfg, State.putSlot_ctx]) hlen (by rwa [State.putSlot_lockHeld])
  rw [driveAll_putSlot, State.putSlot_ctx, putSlot_putSlot] at hblock
  obtain ⟨q, rest, rfl⟩ := List.exists_cons_of_ne_nil (l := rxs) (by rintro rfl; exact hne (List.length_eq_zero_iff.mp hlen.symm))
  have hstep : exec i (s.receive q) = exec i ((s.putSlot s.ctx (some d)).receive q) :=
    calc exec i (s.receive q)
      _ = performNext d (s.receive q) := (exec_receive_end hi hr hc q).trans (hp q)
      _ = exec i ((s.receive q).putSlot (s.receive q).ctx (some d)) :=
        (exec_putSlot_block (s := s.receive q) (he (s.receive q) hr.1) hne fun hm => hfree (lockAcq_mem_block (hd ▸ hm))).symm
      _ = exec i ((s.putSlot s.ctx (some d)).receive q) := by rw [receive_putSlot, State.receive_ctx]
  rw [← hblock]
  simp only [execRun, hstep]

/-! ## Runs through several blocks -/

/-- Instruction `i` runs from state `s` through the primitives `ps` with the answers `rxs`, the mark being `marked` throughout, and its
command then stands at `d`. -/
structure Reaches (i : Instr) (s : State) (marked : Bool) (ps : List Prim) (rxs : List Byte) (d : InFlight) : Prop where
  running : s.fault = .noFault
  word    : d.word = encode i
  mark    : d.tainted = marked
  answers : rxs.length = ps.length
  run     : execRun i rxs s = .next ((s.driveAll marked ps rxs).putSlot s.ctx (some d))

theorem Reaches.start (hr : s.runs i c) : Reaches i s c.tainted [] [] c :=
  ⟨hr.1, hr.2.2, rfl, rfl, congrArg Host.Outcome.next (putSlot_self hr.2.1).symm⟩

/-- From the end of a block the run goes on through the block begun next. -/
theorem Reaches.next_block {rxs' : List Byte} (h : Reaches i s m ps rxs c) (hi : i.isCommand = true) (hc : c.todo = [])
    (hp : ∀ u, u.cfg = s.cfg → u.ctx = s.ctx → u.pageCache = s.pageCache → proceed i c u = performNext d u)
    (hw : d.word = c.word) (hm : d.tainted = c.tainted) (hd : d.todo = blockPrims s.cfg s.ctx d.point) (hne : d.todo ≠ [])
    (hfree : d.point = .opened → (s.driveAll m ps rxs).lockHeld = false) (hlen : rxs'.length = d.todo.length) :
    Reaches i s m (ps ++ d.todo) (rxs ++ rxs') { d with todo := [], rx := d.rx ++ Machine.answers d.todo rxs' } := by
  have hmark : d.tainted = m := hm.trans h.mark
  have hruns : ((s.driveAll m ps rxs).putSlot s.ctx (some c)).runs i c :=
    ⟨by simpa using h.running, by simp, h.word⟩
  have hblock := execRun_next_block (rxs := rxs') hi hruns hc (fun q => hp _ (by simp) (by simp) (by simp)) hw (by simpa using hd)
    (by simpa using hfree) hlen hne
  refine ⟨h.running, hw.trans h.word, hmark, by simp [h.answers, hlen], ?_⟩
  rw [execRun_append h.run, hblock, hmark, driveAll_putSlot, State.putSlot_ctx, driveAll_ctx, putSlot_putSlot,
    driveAll_append h.answers]

/-- A command at the end of its last block responds, and its slot is emptied (R13). -/
theorem Reaches.respond {r : ResponseWord} (h : Reaches i s m ps rxs c) (hi : i.isCommand = true) (hc : c.todo = [])
    (hp : ∀ u, proceed i c u = Machine.respond r u) (q : Byte) : execRun i (rxs ++ [q]) s = .next
      ((((s.driveAll m ps rxs).receive q).putSlot s.ctx none).emit (.resp s.ctx r)) := by
  have hruns : ((s.driveAll m ps rxs).putSlot s.ctx (some c)).runs i c :=
    ⟨by simpa using h.running, by simp, h.word⟩
  have hend := exec_receive_end hi hruns hc q
  rw [hp, respond_eq, State.receive_ctx, State.putSlot_ctx, driveAll_ctx, receive_putSlot, putSlot_putSlot] at hend
  rw [execRun_append h.run, execRun_cons (by rw [receive_putSlot]; exact hend), execRun]

theorem openPrims_ne_nil (cfg : Config) (x : Ctx) : openPrims cfg x ≠ [] := by
  cases x <;> simp [openPrims]

theorem framePrims_ne_nil (cfg : Config) (f : Frame) : framePrims cfg f ≠ [] := by
  obtain ⟨p, rest, h, -⟩ := framePrims_head cfg f
  simp [h]

theorem closePrims_ne_nil (cfg : Config) (x : Ctx) : closePrims cfg x ≠ [] := by
  obtain ⟨p, rest, h, -⟩ := closePrims_head cfg x
  simp [h]

theorem answers_eq_nil (h : ∀ src, .xchg src ∉ ps) (rxs : List Byte) : answers ps rxs = [] := by
  refine List.filterMap_eq_nil_iff.mpr fun q hq => ?_
  have hmem : q.1 ∈ ps := (List.of_mem_zip hq).1
  obtain ⟨p, rx⟩ := q
  cases p with
  | xchg src => exact absurd hmem (h src)
  | _ => rfl

/-- The primitives of a transaction of one frame (R194). -/
def transactionPrims (cfg : Config) (x : Ctx) (f : Frame) : List Prim := openPrims cfg x ++ framePrims cfg f ++ closePrims cfg x

/-- Whether a transaction of one frame asserts chip-select for itself or the frame does, it is the same primitives (R194, R195). -/
theorem transactionPrims_eq (cfg : Config) (x : Ctx) (f : Frame) : transactionPrims cfg x f =
    (if x = .fg then [Prim.mask] else []) ++ [Prim.lockAcq, Prim.csAssert] ++ frameBody cfg f ++ [Prim.csDeassert, Prim.lockRel] ++
      (if x = .fg then [Prim.unmask] else []) := by
  unfold transactionPrims openPrims closePrims framePrims
  cases cfg.csMode <;> simp

theorem exists_append_of_length {m n k : Nat} (h : rxs.length = m + n + k) :
    ∃ p b q, rxs = p ++ b ++ q ∧ p.length = m ∧ b.length = n ∧ q.length = k :=
  ⟨rxs.take m, (rxs.drop m).take n, rxs.drop (m + n), by rw [← List.take_add, List.take_append_drop],
    by rw [List.length_take]; omega, by rw [List.length_take, List.length_drop]; omega, by rw [List.length_drop]; omega⟩

/-- A command that makes one transaction of one frame runs through its opening, the frame and its closing (R194). -/
theorem reaches_closed {f : Frame} {role : Role} (hi : i.isCommand = true) (hr : s.runs i c)
    (hc : c.todo = []) (hlock : s.lockHeld = false) (hopen : ∀ u, proceed i c u = openTransaction c u)
    (hframe : ∀ u d, d.point = .opened → u.pageCache = s.pageCache → proceed i d u = startFrame f role d u)
    (hclose : ∀ u d, d.point = .frame f role → d.rx = answers (transactionPrims s.cfg s.ctx f) rxs →
      proceed i d u = closeTransaction true d u)
    (hlen : rxs.length = (transactionPrims s.cfg s.ctx f).length) :
    Reaches i s c.tainted (transactionPrims s.cfg s.ctx f) rxs
      { c with point := .closed, todo := [], ok := true, rx := answers (transactionPrims s.cfg s.ctx f) rxs } := by
  obtain ⟨p, b, q, rfl, hp, hb, hq⟩ := exists_append_of_length (rxs := rxs) (m := (openPrims s.cfg s.ctx).length)
    (n := (framePrims s.cfg f).length) (k := (closePrims s.cfg s.ctx).length) (by simpa [transactionPrims, Nat.add_assoc] using hlen)
  have hanswers : answers (transactionPrims s.cfg s.ctx f) (p ++ b ++ q) = answers (framePrims s.cfg f) b := by
    rw [transactionPrims, answers_append (by simp [hp, hb]), answers_append hp, answers_eq_nil (by simp [openPrims]),
      answers_eq_nil (ps := closePrims s.cfg s.ctx) (by simp [closePrims]), List.nil_append, List.append_nil]
  rw [hanswers] at hclose ⊢
  have opened := (Reaches.start hr).next_block (d := { c with point := .opened, todo := openPrims s.cfg s.ctx }) hi hc
    (fun u hcfg hctx _ => by rw [hopen, openTransaction, hcfg, hctx]) rfl rfl rfl (openPrims_ne_nil _ _) (fun _ => hlock) hp
  have framed := opened.next_block (d := { c with point := .frame f role, todo := framePrims s.cfg f, rx := [] }) hi rfl
    (fun u hcfg _ hcache => by rw [hframe u _ rfl hcache, startFrame_eq, hcfg]) rfl rfl rfl (framePrims_ne_nil _ _) (by simp) hb
  have closed := framed.next_block (d := { c with
      point := .closed, todo := closePrims s.cfg s.ctx, ok := true, rx := answers (framePrims s.cfg f) b }) hi rfl
    (fun u hcfg hctx _ => by rw [hclose u _ rfl rfl, closeTransaction, hcfg, hctx]; rfl) rfl rfl rfl (closePrims_ne_nil _ _) (by simp) hq
  rwa [answers_eq_nil (ps := closePrims s.cfg s.ctx) (by simp [closePrims]), List.append_nil] at closed

/-- A command that makes one transaction of one frame, from acceptance to response (R215, R194, R13). -/
theorem execRun_oneFrame {f : Frame} {role : Role} {r : ResponseWord} (q q' : Byte) (hi : i.isCommand = true) (hidle : s.idle)
    (hlock : s.lockHeld = false)
    (haccept : ∀ u, u.idle → u.cfg = s.cfg → exec i u = .next (u.putSlot u.ctx (some (freshCommand (encode i)))))
    (hopen : ∀ u, proceed i (freshCommand (encode i)) u = openTransaction (freshCommand (encode i)) u)
    (hframe : ∀ u d, d.point = .opened → u.pageCache = s.pageCache → proceed i d u = startFrame f role d u)
    (hclose : ∀ u d, d.point = .frame f role → d.rx = answers ps rxs → proceed i d u = closeTransaction true d u)
    (hrespond : ∀ u d, d.point = .closed → d.ok = true → d.rx = answers ps rxs → proceed i d u = respond r u)
    (hps : transactionPrims s.cfg s.ctx f = ps) (hlen : rxs.length = ps.length) :
    execRun i (q :: (rxs ++ [q'])) s = .next (((s.driveAll false ps rxs).receive q').emit (.resp s.ctx r)) := by
  subst hps
  have hempty : (s.receive q).slot s.ctx = none := (s.receive_slot _ q).trans hidle.2
  have hstart : exec i (s.receive q) = .next ((s.receive q).putSlot s.ctx (some (freshCommand (encode i)))) :=
    haccept _ ⟨hidle.1, hempty⟩ rfl
  have hr : ((s.receive q).putSlot s.ctx (some (freshCommand (encode i)))).runs i (freshCommand (encode i)) :=
    ⟨by simpa using hidle.1, by simp, rfl⟩
  have hclosed := reaches_closed (rxs := rxs) hi hr rfl (by simpa using hlock) hopen (by simpa using hframe) (by simpa using hclose)
    (by simpa using hlen)
  have hne : transactionPrims s.cfg s.ctx f ≠ [] := by simp [transactionPrims_eq]
  have hsame : (s.driveAll false (transactionPrims s.cfg s.ctx f) rxs).slot s.ctx = none := (driveAll_slot s.ctx).trans hidle.2
  rw [execRun_cons hstart, hclosed.respond hi rfl (fun u => hrespond u _ rfl rfl (by simp)) q']
  simp only [State.putSlot_cfg, State.putSlot_ctx, State.receive_cfg, State.receive_ctx, driveAll_putSlot, receive_putSlot, putSlot_putSlot,
    show (freshCommand (encode i)).tainted = false from rfl]
  rw [driveAll_receive q hne hlen, putSlot_self ((State.receive_slot _ _ _).trans hsame)]

end
end Sys2Proof.Machine
end

section
/-! PROOFS. The wire frames of the FIFO, from their first primitive to their last, whichever step begins them (R89, R90, R161, R164). -/

namespace Sys2Proof.Machine

/-! ## A wire frame, whole (R195) -/

section
variable {s t u : State} {i : Instr} {c d e : InFlight} {f : Frame} {role : Role} {q q' rxs : List Byte} {m : Bool}

/-- A wire frame runs whole from its first primitive. -/
theorem execRun_frame (h : s.startsFrame f role c) (hlen : rxs.length = (framePrims s.cfg f).length) :
    execRun (frameInstr f) rxs s = .next ((s.driveAll c.tainted (framePrims s.cfg f) rxs).putSlot s.ctx
      (some { c with todo := [], rx := answers (framePrims s.cfg f) rxs })) := by
  obtain ⟨hf, hs, hp, hc, hrx⟩ := h
  have hrun := execRun_block (rxs := rxs) (executes_frame hf hs hp) (by rw [hc, hp]; rfl) (by rw [hlen, hc]) (by rw [hp]; simp)
  rwa [hc, hrx, List.nil_append] at hrun

/-- FrameOpen and FrameClose take a step each where chip-select is asserted per access, and none elsewhere. -/
theorem csSteps_cases {cfg : Config} (hq : q.length = csSteps cfg) (hq' : q'.length = csSteps cfg) :
    (cfg.csMode = .perTransaction ∧ q = [] ∧ q' = []) ∨ (cfg.csMode = .perAccess ∧ ∃ y y', q = [y] ∧ q' = [y']) := by
  cases hm : cfg.csMode with
  | perTransaction => exact .inl ⟨rfl, by simpa [csSteps, hm] using hq, by simpa [csSteps, hm] using hq'⟩
  | perAccess =>
    have hone : csSteps cfg = 1 := by simp [csSteps, hm]
    obtain ⟨y, hy⟩ := List.length_eq_one_iff.mp (hq.trans hone)
    obtain ⟨y', hy'⟩ := List.length_eq_one_iff.mp (hq'.trans hone)
    exact .inr ⟨rfl, y, y', hy, hy'⟩

theorem framePrims_length (cfg : Config) (f : Frame) :
    (framePrims cfg f).length = csSteps cfg + (frameBody cfg f).length + csSteps cfg := by
  cases hm : cfg.csMode with
  | perTransaction => simp [framePrims, csSteps, hm]
  | perAccess => simp [framePrims, csSteps, hm]; omega

/-- FrameOpen and FrameClose hand no answer to the command. -/
theorem answers_framePrims {cfg : Config} (hq : q.length = csSteps cfg) (hq' : q'.length = csSteps cfg)
    (hlen : rxs.length = (frameBody cfg f).length) :
    answers (framePrims cfg f) (q ++ rxs ++ q') = answers (frameBody cfg f) rxs := by
  rcases csSteps_cases hq hq' with ⟨hm, rfl, rfl⟩ | ⟨hm, y, y', rfl, rfl⟩
  · rw [framePrims_transaction _ _ hm, List.nil_append, List.append_nil]
  · rw [framePrims_access _ _ hm, List.append_assoc, List.singleton_append, answers_cons, answers_append hlen]
    exact List.append_nil _

/-- What the primitives of a frame's pseudocode do to history, bit order and free values, FrameOpen and FrameClose put around. -/
theorem driveAll_framePrims {es : List Event} {o : BitOrder} {n : Nat} (hq : q.length = csSteps s.cfg) (hq' : q'.length = csSteps s.cfg)
    (hlen : rxs.length = (frameBody s.cfg f).length)
    (hbody : ∀ u : State, u.ctx = s.ctx → u.bitOrder = s.bitOrder → u.draws = s.draws → u.pb = s.pb →
      ∃ v, u.driveAll m (frameBody s.cfg f) rxs = v ∧ v.history = u.history ++ es ∧ v.bitOrder = o ∧ v.draws = n) :
    ∃ v, s.driveAll m (framePrims s.cfg f) (q ++ rxs ++ q') = v ∧ v.history = s.history ++ frameEvents s.cfg s.ctx es ∧
      v.bitOrder = o ∧ v.draws = n := by
  rcases csSteps_cases hq hq' with ⟨hm, rfl, rfl⟩ | ⟨hm, y, y', rfl, rfl⟩
  · rw [framePrims_transaction _ _ hm, List.nil_append, List.append_nil, frameEvents, if_neg (by simp [hm])]
    exact hbody s rfl rfl rfl rfl
  · rw [framePrims_access _ _ hm, List.append_assoc, List.singleton_append, driveAll_cons, driveAll_append hlen, frameEvents, if_pos hm]
    obtain ⟨v, hv, hh, ho, hn⟩ := hbody (s.drive m (.csAssert, y)) rfl rfl rfl rfl
    have hx : v.ctx = s.ctx := by rw [← hv, driveAll_ctx]; rfl
    refine ⟨_, rfl, ?_, ?_, ?_⟩ <;> rw [hv]
    · simp [State.driveAll, State.drive, hx, hh]
    · exact ho
    · exact hn

/-! ## FIFO_READ (R90, R164) -/

/-- The events of a FIFO_READ frame between FrameOpen and FrameClose. -/
theorem driveAll_fifoRead (cfg : Config) (a r0 r1 r2 r3 st x y : Byte) (horder : s.bitOrder = .msb) :
    ∃ v, s.driveAll m (frameBody cfg .fifoRead) [a, x, r0, r1, r2, r3, y, st] = v ∧ v.history = s.history ++
      [.xchg cfg.cmdFifoRead a .msb s.ctx, .order .lsb s.ctx, .xchg cfg.dummyByte r0 .lsb s.ctx,
        .xchg cfg.dummyByte r1 .lsb s.ctx, .xchg cfg.dummyByte r2 .lsb s.ctx, .xchg cfg.dummyByte r3 .lsb s.ctx,
        .order .msb s.ctx, .xchg cfg.dummyByte st .msb s.ctx] ∧ v.bitOrder = .msb ∧ v.draws = s.draws := by
  refine ⟨_, rfl, ?_, ?_, ?_⟩ <;> simp [State.driveAll, State.drive, frameBody, horder]

/-- The responses to exchanges 2 to 5 are the payload word from the low byte up, that to exchange 6 the status byte. -/
theorem fifoRead_frame {a r0 r1 r2 r3 st x y : Byte} (h : s.startsFrame .fifoRead role c) (horder : s.bitOrder = .msb)
    (hq : q.length = csSteps s.cfg) (hq' : q'.length = csSteps s.cfg) :
    ∃ t, execRun .fifoRead (q ++ [a, x, r0, r1, r2, r3, y, st] ++ q') s = .next t ∧ s.readFifo c a r0 r1 r2 r3 st t := by
  obtain ⟨v, hv, hhistory, ho, -⟩ := driveAll_framePrims (m := c.tainted) hq hq' rfl fun u hx hord hdraws _ =>
    hx ▸ hdraws ▸ driveAll_fifoRead (s := u) s.cfg a r0 r1 r2 r3 st x y (hord.trans horder)
  have hrun := execRun_frame h (rxs := q ++ [a, x, r0, r1, r2, r3, y, st] ++ q')
    (by rw [framePrims_length, List.length_append, List.length_append, hq, hq']; rfl)
  rw [hv, answers_framePrims hq hq' rfl] at hrun
  exact ⟨_, hrun, (State.putSlot_history _ _ _).trans hhistory,
    ⟨_, State.putSlot_slot_same _ _ _, rfl, ⟨rfl, rfl, rfl, rfl, rfl⟩, ⟨role, h.2.2.1⟩, rfl, rfl, rfl⟩,
    (State.putSlot_bitOrder _ _ _).trans ho⟩

/-! ## FIFO_WRITE (R89, R161) -/

/-- Byte `k` of the payload that a command sends from state `s` on: PB's, or a free one once a client changed PB in flight (I9). -/
def sentPayload (s : State) (marked : Bool) (k : Nat) : Byte :=
  if marked then Config.freeByte (s.draws + k) else readPayload s k

theorem sentPayload_congr (hdraws : u.draws = s.draws) (hpb : u.pb = s.pb) : sentPayload u m = sentPayload s m := by
  funext k
  rw [sentPayload, sentPayload, readPayload, readPayload, hdraws, hpb]

/-- The payload bytes of a FIFO_WRITE frame go out in the order that holds, each answered in turn. -/
theorem driveAll_payload (n : Nat) (hlen : rxs.length = n) :
    s.driveAll m ((List.range n).map fun k => .xchg (.payload k)) rxs = { s with
      rxIn := rxs.getLastD s.rxIn
      history := s.history ++ (List.range n).map fun k => .xchg (sentPayload s m k) (rxs.getD k 0) s.bitOrder s.ctx
      draws := s.draws + (if m then n else 0) } := by
  induction n generalizing rxs with
  | zero =>
    obtain rfl := List.length_eq_zero_iff.mp hlen
    simp [State.driveAll]
  | succ n ih =>
    obtain ⟨rxs, r, rfl⟩ : ∃ xs r, rxs = xs ++ [r] := (List.eq_nil_or_concat' rxs).resolve_left (by rintro rfl; cases hlen)
    have hlen' : rxs.length = n := by simpa using hlen
    have earlier : (List.range n).map (fun k => Event.xchg (sentPayload s m k) ((rxs ++ [r]).getD k 0) s.bitOrder s.ctx) =
        (List.range n).map (fun k => .xchg (sentPayload s m k) (rxs.getD k 0) s.bitOrder s.ctx) :=
      List.map_congr_left fun k hk => by rw [List.getD_append _ _ _ _ (by rw [hlen']; exact List.mem_range.mp hk)]
    have last : (rxs ++ [r]).getD n 0 = r := by rw [← hlen']; simp
    rw [List.range_succ, List.map_append, List.map_append, List.map_singleton, List.map_singleton, driveAll_append (by simp [hlen']),
      ih hlen', earlier, last]
    cases m <;> simp [State.driveAll, State.drive, State.emit, State.receive, State.ctx, readPayload, sentPayload, Nat.add_assoc]

/-- The events of a FIFO_WRITE frame between FrameOpen and FrameClose, with the payload's answers after the third. -/
theorem driveAll_fifoWrite (cfg : Config) (len : Byte) (a b x y : Byte) (hlen : rxs.length = payloadCount len)
    (horder : s.bitOrder = .msb) :
    ∃ v, s.driveAll m (frameBody cfg (.fifoWrite len)) ([a, b, x] ++ rxs ++ [y]) = v ∧ v.history = s.history ++
      ([Event.xchg cfg.cmdFifoWrite a .msb s.ctx, Event.xchg len b .msb s.ctx, .order .lsb s.ctx] ++
        (List.range (payloadCount len)).map (fun k => Event.xchg (sentPayload s m k) (rxs.getD k 0) .lsb s.ctx) ++
          [Event.order .msb s.ctx]) ∧
      v.bitOrder = .msb ∧ v.draws = s.draws + (if m then payloadCount len else 0) := by
  rw [frameBody, driveAll_append (by simp [hlen]), driveAll_append rfl, driveAll_payload _ hlen]
  refine ⟨_, rfl, ?_, ?_, ?_⟩
  · simp [State.driveAll, State.drive, horder, sentPayload, readPayload]
    rfl
  · simp [State.driveAll, State.drive]
  · simp [State.driveAll, State.drive]

/-- The payload bytes are PB's from PB[0] on, or free bytes once a client changed PB in flight (I9). -/
theorem fifoWrite_frame {len : Byte} (h : s.startsFrame (.fifoWrite len) role c) (horder : s.bitOrder = .msb)
    (hq : q.length = csSteps s.cfg) (hq' : q'.length = csSteps s.cfg) (hlen : rxs.length = 4 + payloadCount len) :
    ∃ t, execRun (.fifoWrite len) (q ++ rxs ++ q') s = .next t ∧ s.wroteFifo c len (payloadCount len) rxs t := by
  obtain ⟨a, b, x, ps, y, rfl, hps⟩ : ∃ a b x ps y, rxs = [a, b, x] ++ ps ++ [y] ∧ ps.length = payloadCount len := by
    obtain ⟨p, ps, p', rfl, hp, hps, hp'⟩ := exists_append_of_length (rxs := rxs) (m := 3) (n := payloadCount len) (k := 1) (by omega)
    obtain ⟨a, b, x, rfl⟩ := List.length_eq_three.mp hp
    obtain ⟨y, rfl⟩ := List.length_eq_one_iff.mp hp'
    exact ⟨a, b, x, ps, y, rfl, hps⟩
  have hbody : ([a, b, x] ++ ps ++ [y]).length = (frameBody s.cfg (.fifoWrite len)).length := by simp [frameBody, hps]
  obtain ⟨v, hv, hhistory, ho, hdraws⟩ := driveAll_framePrims (m := c.tainted) hq hq' hbody fun u hx hord hdraws hpb => by
    have hu := driveAll_fifoWrite (s := u) (m := c.tainted) s.cfg len a b x y hps (hord.trans horder)
    rwa [hx, hdraws, sentPayload_congr hdraws hpb] at hu
  have hrun := execRun_frame h (rxs := q ++ ([a, b, x] ++ ps ++ [y]) ++ q')
    (by rw [framePrims_length, List.length_append, List.length_append, hq, hq', hbody])
  rw [hv, answers_framePrims hq hq' hbody] at hrun
  refine ⟨_, hrun, ⟨(List.range (payloadCount len)).map (sentPayload s c.tainted), by simp, fun ht k hk => ?_, ?_⟩,
    (State.putSlot_draws _ _ _).trans hdraws,
    ⟨_, State.putSlot_slot_same _ _ _, rfl, ⟨rfl, rfl, rfl, rfl, rfl⟩, ⟨role, h.2.2.1⟩⟩,
    (State.putSlot_bitOrder _ _ _).trans ho⟩
  · simp [hk, sentPayload, ht]
  · have payload : (List.range (payloadCount len)).map (fun k => Event.xchg (sentPayload s c.tainted k) (ps.getD k 0) .lsb s.ctx) =
        (List.range (payloadCount len)).map (fun k => .xchg (((List.range (payloadCount len)).map (sentPayload s c.tainted)).getD k 0)
          (([a, b, x] ++ ps ++ [y]).getD (3 + k) 0) .lsb s.ctx) := by
      refine List.map_congr_left fun k hk => ?_
      replace hk := List.mem_range.mp hk
      have hanswer : ([a, b, x] ++ ps ++ [y]).getD (3 + k) 0 = ps.getD k 0 := by
        rw [Nat.add_comm]; exact List.getD_append ps [y] 0 k (by omega)
      rw [hanswer]
      simp [hk]
    rw [State.putSlot_history, hhistory, payload]
    rfl

/-! ## The step that begins a FIFO frame -/

theorem InFlight.keepsTask.trans (h : c.keepsTask d) (k : d.keepsTask e) : c.keepsTask e :=
  ⟨k.word.trans h.word, k.index.trans h.index, k.cur.trans h.cur, k.total.trans h.total, k.tainted.trans h.tainted⟩

/-- Wherever a step goes on to without a fault, it leaves the running context's command outside every frame. -/
def LeavesFrames (s : State) (r : Result) : Prop :=
  ∀ t d, r = .next t → t.fault = .noFault → t.slot s.ctx = some d → ∀ f role, d.point ≠ .frame f role

theorem LeavesFrames.of_ctx {r : Result} (hx : u.ctx = s.ctx) (h : LeavesFrames u r) : LeavesFrames s r :=
  fun t d hr hf hs => h t d hr hf (by rwa [hx])

theorem LeavesFrames.fault (r : Fault) : LeavesFrames s (.fault r) := by
  rintro t d ⟨⟩

theorem LeavesFrames.respond (r : ResponseWord) : LeavesFrames s (respond r s) := by
  rintro t d ⟨⟩ _ hs
  simp at hs

/-- A command that begins a block stands in it. -/
theorem performNext_point (h : performNext c s = .next t) (hf : t.fault = .noFault) (hs : t.slot s.ctx = some d) : d.point = c.point := by
  cases hc : c.todo with
  | nil => rw [performNext, hc] at h; cases h
  | cons p rest =>
    rw [performNext_cons c s p rest hc] at h
    rcases perform_next h with hp | ⟨-, -, rfl⟩
    · obtain ⟨rx, hslot, -⟩ := hp.slot
      cases hs.symm.trans hslot
      rfl
    · cases hf

theorem LeavesFrames.performNext (hp : ∀ f role, c.point ≠ .frame f role) : LeavesFrames s (performNext c s) :=
  fun _ _ h hf hs => performNext_point h hf hs ▸ hp

theorem LeavesFrames.openTransaction : LeavesFrames s (openTransaction c s) := .performNext (by simp)

theorem LeavesFrames.closeTransaction (ok : Bool) : LeavesFrames s (closeTransaction ok c s) := .performNext (by simp)

theorem LeavesFrames.closeFifoRead : LeavesFrames s (closeFifoRead c s) := by
  unfold Machine.closeFifoRead
  split
  · rintro t d ⟨⟩ hf; cases hf
  · exact .closeTransaction _
  · exact .closeTransaction _

theorem LeavesFrames.afterFrame (maxBits : BitVec 16) : LeavesFrames s (afterFrame maxBits c s) := by
  have finish (st : Status) : LeavesFrames s (finishFifordall st c s) := .of_ctx (s.forgetAb_ctx _) (.respond _)
  unfold Machine.afterFrame
  split
  · exact finish _
  · split_ifs
    · exact finish _
    · exact finish _
    · exact .of_ctx (s.setAb_ctx _) .openTransaction
  · exact .fault _

/-- A FIFO command begins its frame at the end of an opening, and nowhere else (R161, R164). -/
theorem proceed_fifo (hf : fifoFrame i = some f) (c : InFlight) (s : State) :
    (c.point = .opened ∧ proceed i c s = startFrame f .fifo c s) ∨ LeavesFrames s (proceed i c s) := by
  cases i with
  | fifowr nbits =>
    cases hf
    simp only [proceed, proceedFifowr]
    split
    next => exact .inr .openTransaction
    next hp => exact .inl ⟨hp, rfl⟩
    next => exact .inr (.closeTransaction _)
    next => exact .inr (.fault _)
    next => exact .inr (.fault _)
    next => exact .inr (.respond _)
  | fiford =>
    cases hf
    simp only [proceed, proceedFiford]
    split
    next => exact .inr .openTransaction
    next hp => exact .inl ⟨hp, rfl⟩
    next => exact .inr .closeFifoRead
    next => exact .inr (.fault _)
    next => exact .inr (.fault _)
    next =>
      unfold finishFiford
      split
      · exact .inr (.respond _)
      · exact .inr (.respond _)
      · exact .inr (.fault _)
  | fifordall maxBits =>
    cases hf
    simp only [proceed, proceedFifordall]
    split
    next => exact .inr .openTransaction
    next hp => exact .inl ⟨hp, rfl⟩
    next => exact .inr .closeFifoRead
    next => exact .inr (.fault _)
    next => exact .inr (.fault _)
    next => exact .inr (.afterFrame maxBits)
  | _ => cases hf

/-- Command `c` at the start of a wire frame. -/
def InFlight.atFrame (c : InFlight) (cfg : Config) (f : Frame) (role : Role) : InFlight :=
  { c with point := .frame f role, todo := framePrims cfg f, rx := [] }

theorem InFlight.keepsTask_atFrame {cfg : Config} (c : InFlight) : c.keepsTask (c.atFrame cfg f role) := ⟨rfl, rfl, rfl, rfl, rfl⟩

theorem startsFrame_putSlot (hf : s.fault = .noFault) :
    (s.putSlot s.ctx (some (c.atFrame s.cfg f role))).startsFrame f role (c.atFrame s.cfg f role) := by
  refine ⟨(State.putSlot_fault _ _ _).trans hf, ?_, rfl, by rw [State.putSlot_cfg]; rfl, rfl⟩
  rw [State.putSlot_ctx, State.putSlot_slot_same]

/-- The step that begins a FIFO frame is the frame's first step in the command's slot, the command's task kept (log 5). -/
theorem begins_fifo {r : Byte} (h : s.begins i c r t d) (hp : d.point = .frame f role)
    (hf : (∃ len, f = .fifoWrite len) ∨ f = .fifoRead) :
    ∃ e, c.keepsTask e ∧ (s.putSlot s.ctx (some e)).startsFrame f role e ∧
      exec (frameInstr f) ((s.putSlot s.ctx (some e)).receive r) = .next t := by
  have hfifo : fifoFrame i = some f := by
    obtain ⟨u, p, g, hu, hg, hperf⟩ := begins_performs h
    obtain ⟨rx, hslot, -⟩ := hperf.slot
    rw [hu.keeps.ctx] at hslot
    cases h.2.2.2.2.2.symm.trans hslot
    obtain ⟨hemits, -⟩ := hg.frame f role hp
    rcases hemits with hfifo | ⟨off, rfl⟩ | ⟨off, val, rfl⟩
    · exact hfifo
    · simp at hf
    · simp at hf
  obtain ⟨hi, hr, hc, hexec, hnofault, hslot⟩ := h
  rw [exec_receive_end hi hr hc] at hexec
  rcases proceed_fifo hfifo c (s.receive r) with ⟨-, hstart⟩ | hleaves
  · rw [hstart, startFrame_eq] at hexec
    cases hp.symm.trans (performNext_point hexec hnofault hslot)
    obtain ⟨hf', hs', hp', -⟩ := startsFrame_putSlot (s := s.receive r) (f := f) (role := .fifo) (c := c) hr.1
    have hfirst := exec_putSlot_block (executes_frame hf' hs' hp') (framePrims_ne_nil _ _)
      fun hm => absurd (lockAcq_mem_block (pt := .frame f .fifo) (x := s.ctx) hm) (by simp)
    exact ⟨c.atFrame s.cfg f .fifo, c.keepsTask_atFrame, startsFrame_putSlot hr.1, by rw [receive_putSlot]; exact hfirst.trans hexec⟩
  · exact absurd hp (hleaves t d hexec hnofault hslot f role)

/-- What a frame did from the state in which its command stands at it, it did from the state before that. -/
theorem State.wroteFifo.of_putSlot {len : Byte} {n : Nat} (h : (s.putSlot s.ctx (some e)).wroteFifo e len n rxs t)
    (hk : c.keepsTask e) : s.wroteFifo c len n rxs t := by
  obtain ⟨⟨sent, hn, hsent, hhistory⟩, hdraws, ⟨d, hslot, hd, hkeeps, hrole⟩, horder⟩ := h
  rw [hk.tainted] at hsent hdraws
  rw [State.putSlot_ctx] at hslot
  exact ⟨⟨sent, hn, fun ht k hlt => (hsent ht k hlt).trans (by simp [readPayload]), by simpa using hhistory⟩, by simpa using hdraws,
    ⟨d, hslot, hd, hk.trans hkeeps, hrole⟩, horder⟩

theorem State.readFifo.of_putSlot {a r0 r1 r2 r3 st : Byte} (h : (s.putSlot s.ctx (some e)).readFifo e a r0 r1 r2 r3 st t)
    (hk : c.keepsTask e) : s.readFifo c a r0 r1 r2 r3 st t := by
  obtain ⟨hhistory, ⟨d, hslot, hd, hkeeps, hrest⟩, horder⟩ := h
  rw [State.putSlot_ctx] at hslot
  exact ⟨by simpa using hhistory, ⟨d, hslot, hd, hk.trans hkeeps, hrest⟩, horder⟩

end

/-- Settles O34: the frame runs whole from its first primitive, whether it stands whole or the step before has just begun it. -/
theorem fifoWriteFrame : Obligations.FifoWriteFrame := by
  unfold Obligations.FifoWriteFrame
  intro s c nbits len role q q' rxs hpos hmax hlen horder hq hq' hrxs
  have hcount : (nbits.toNat + 7) / 8 = payloadCount len := by
    rw [payloadCount_eq, hlen, BitVec.toNat_ofNat, Nat.mod_eq_of_lt (by omega)]; omega
  rw [hcount] at hrxs ⊢
  refine ⟨fun h => fifoWrite_frame h horder hq hq' hrxs, fun i r rest t1 d1 h hp hsplit => ?_⟩
  obtain ⟨e, hk, hstarts, hfirst⟩ := begins_fifo h hp (.inl ⟨len, rfl⟩)
  obtain ⟨t, hrun, hwrote⟩ := fifoWrite_frame hstarts (by simpa using horder) (by simpa using hq) (by simpa using hq') hrxs
  rw [← hsplit, execRun_cons (i := .fifoWrite len) hfirst] at hrun
  exact ⟨t, hrun, hwrote.of_putSlot hk⟩

/-- Settles O35: the frame runs whole from its first primitive, whether it stands whole or the step before has just begun it. -/
theorem fifoReadFrame : Obligations.FifoReadFrame := by
  unfold Obligations.FifoReadFrame
  intro s c role a r0 r1 r2 r3 st x y q q' horder hq hq'
  refine ⟨fun h => fifoRead_frame h horder hq hq', fun i r rest t1 d1 h hp hsplit => ?_⟩
  obtain ⟨e, hk, hstarts, hfirst⟩ := begins_fifo h hp (.inr rfl)
  obtain ⟨t, hrun, hread⟩ := fifoRead_frame hstarts (by simpa using horder) (by simpa using hq) (by simpa using hq')
  rw [← hsplit, execRun_cons (i := .fifoRead) hfirst] at hrun
  exact ⟨t, hrun, hread.of_putSlot hk⟩

end Sys2Proof.Machine
end

section
/-! PROOFS. RDREG without a page switch, from acceptance to response (R137). -/

namespace Sys2Proof.Machine

section
variable {s : State} {addr : RegAddr}

/-- An RDREG without reserved address bits is accepted (R93, R215). -/
theorem exec_rdreg_accepted (h : s.idle) (ha : addr.toNat < 2 ^ 10) :
    exec (.rdreg addr) s = .next (s.putSlot s.ctx (some (freshCommand (encode (.rdreg addr))))) := by
  have hlegal : readTargetFault addr = none := if_pos ((addrReserved_eq_zero_iff addr).mpr ha)
  exact legalCommandIsAccepted s (.rdreg addr) h rfl (by rw [Instr.wellFormed, operandFault, hlegal]; rfl) (by simp)

/-- An RDREG that needs no page switch goes through one transaction of its read frame and responds with the value read. -/
theorem execRun_rdreg {ps : List Prim} {rxs : List Byte} {a b d : Byte} (q q' : Byte) (hidle : s.idle) (hlock : s.lockHeld = false)
    (ha : addr.toNat < 2 ^ 10) (hpage : mirrored addr = true ∨ s.pageCache = .page (pageOf addr))
    (hps : transactionPrims s.cfg s.ctx (.regRead (offsetOf addr)) = ps) (hlen : rxs.length = ps.length)
    (hrx : answers ps rxs = [a, b, d]) : execRun (.rdreg addr) (q :: (rxs ++ [q'])) s = .next
      (((s.driveAll false ps rxs).receive q').emit (.resp s.ctx (0#48 ++ d ++ 0x00#8))) := by
  refine execRun_oneFrame (role := .read) q q' rfl hidle hlock (fun u hu _ => exec_rdreg_accepted hu ha) (fun _ => rfl) ?_ ?_ ?_ hps hlen
  · intro u c hc hcache
    rw [← hcache] at hpage
    simp only [proceed, proceedRdreg, hc, ensurePage_here _ hpage, beginRead]
  · intro u c hc _
    simp only [proceed, proceedRdreg, hc]
  · intro u c hc hok hanswers
    have hvalue : readAnswer c = d := by rw [readAnswer, hanswers, hrx]; rfl
    simp only [proceed, proceedRdreg, hc, finishRdreg, hok, hvalue, dataResponse_eq]
    rfl

end

/-- Settles O49: the transaction is the same primitives in either chip-select mode, the foreground's between mask and unmask. -/
theorem rdregRun : Obligations.RdregRun := by
  unfold Obligations.RdregRun
  intro s addr a b d q0 q1 q2 q3 q4 q5 q6 q7 ha hpage
  refine ⟨fun ⟨hf, hactive, hs, hlock, horder⟩ => ?_, fun hf hactive hs hlock horder => ?_⟩
  · have hx : s.ctx = .fg := s.ctx_of_idle hactive
    have hps : transactionPrims s.cfg s.ctx (.regRead (offsetOf addr)) = [.mask, .lockAcq, .csAssert, .xchg (.byte s.cfg.cmdRead),
        .xchg (.byte (offsetOf addr)), .xchg (.byte s.cfg.dummyByte), .csDeassert, .lockRel, .unmask] := by
      rw [transactionPrims_eq, hx]; rfl
    refine (execRun_rdreg (rxs := [q1, q2, q3, a, b, d, q4, q5, q6]) q0 q7 ⟨hf, hx ▸ hs⟩ hlock ha hpage hps rfl rfl).trans ?_
    simp [State.driveAll, State.drive, State.emit, State.receive, State.setMask, State.setLock, State.setCs, State.ctx, hactive,
      hlock, horder]
  · have hx : s.ctx = .isr := s.ctx_of_active hactive
    have hps : transactionPrims s.cfg s.ctx (.regRead (offsetOf addr)) = [.lockAcq, .csAssert, .xchg (.byte s.cfg.cmdRead),
        .xchg (.byte (offsetOf addr)), .xchg (.byte s.cfg.dummyByte), .csDeassert, .lockRel] := by
      rw [transactionPrims_eq, hx]; rfl
    refine (execRun_rdreg (rxs := [q1, q2, a, b, d, q3, q4]) q0 q5 ⟨hf, hx ▸ hs⟩ hlock ha hpage hps rfl rfl).trans ?_
    simp [State.driveAll, State.drive, State.emit, State.receive, State.setLock, State.setCs, State.ctx, hactive, hlock, horder]

end Sys2Proof.Machine
end

section
/-! PROOFS. The register file's short statements: protected targets, read-backs, WRREG's end of body, PGINV (R133-R138, R140). -/

namespace Sys2Proof.Machine

/-! ## Protected targets (R136) -/

/-- The comparison uses the low byte only. -/
theorem protocolOffset_iff (cfg : Config) (o : Byte) : protocolOffset cfg o = true ↔
    o = offsetOf cfg.pageSelAddr ∨ o = offsetOf cfg.shadowAddrAddr ∨ o = offsetOf cfg.shadowValAddr := by
  simp [protocolOffset, pageSelOffset, shadowAddrOffset, shadowValOffset, or_assoc]

/-- Settles O27: a protocol register fails the write check and passes the read check. -/
theorem protectedTargetsFault : Obligations.ProtectedTargetsFault := by
  unfold Obligations.ProtectedTargetsFault
  intro s addr hidle haddr hprot
  have hbad : writeTargetFault s.cfg addr = some .protectedTarget :=
    writeTargetFault_protected haddr ((protocolOffset_iff _ _).mpr hprot)
  refine ⟨fun val => exec_operandFault (i := .wrreg addr val) hidle rfl hbad, fun count j hcount hj he hbefore => ?_,
    exec_rdreg_accepted hidle haddr⟩
  subst he
  exact exec_wrbulk_badEntry hidle hcount hj hbefore hbad

/-! ## Verified writes (R133, R134) -/

section
variable {i : Instr} {c : InFlight} {s : State} {f : Frame} {g : Purpose} {st : Stage} {off val : Byte}

/-- At the end of a block a command's step is its pseudocode's. -/
theorem exec_end (hi : i.isCommand = true) (hr : s.runs i c) (hc : c.todo = []) : exec i s = proceed i c s := by
  rw [exec_command hi]
  exact runCommand_proceed hr.1 hr.2.1 hr.2.2 hc

/-- After each frame of a verified write, of whatever command and for whatever purpose, `VerifiedWrite` goes on. -/
theorem proceed_verify (hp : c.point = .frame f (.verify g st))
    (hw : frameFor s.cfg i c (.verify g .write) = some (.regWrite off val)) :
    ∃ done, proceed i c s = continueWrite g st off val c s done := by
  cases g with
  | page =>
    obtain ⟨a, ha, hf⟩ := Option.bind_eq_some_iff.mp hw
    obtain ⟨rfl, rfl⟩ : pageSelOffset s.cfg = off ∧ pageSelectValue (pageOf a) = val := by
      unfold pageWrite at hf
      split at hf
      · cases hf
      · simpa [verifyFrame] using hf
    cases i with
    | rdreg addr => cases ha; exact ⟨_, by simp only [proceed, proceedRdreg, hp]; rfl⟩
    | wrreg addr v => cases ha; exact ⟨_, by simp only [proceed, proceedWrreg, hp]; rfl⟩
    | wrbulk count => cases ha; exact ⟨_, by simp only [proceed, proceedWrbulk, hp]; rfl⟩
    | _ => cases ha
  | target =>
    obtain ⟨e, he, hf⟩ := Option.map_eq_some_iff.mp hw
    cases hf
    cases i with
    | wrreg addr v => cases he; exact ⟨closeTransaction, by simp only [proceed, proceedWrreg, hp]⟩
    | wrbulk count => cases he; exact ⟨afterEntry count, by simp only [proceed, proceedWrbulk, hp]⟩
    | _ => cases he

theorem continueWrite_retry (done : Bool → InFlight → State → Result) (h : ¬(c.shadowA = off ∧ readAnswer c = val))
    (hb : c.attempt < s.cfg.retryBound) : continueWrite g .value off val c s done =
      startFrame (.regWrite off val) (.verify g .write) { c with attempt := c.attempt + 1 } s := by
  simp [continueWrite, h, hb]

/-- At a match or at the last attempt that the bound allows, `VerifiedWrite` ends with whether both shadows matched (R134). -/
theorem continueWrite_done (done : Bool → InFlight → State → Result)
    (h : (c.shadowA = off ∧ readAnswer c = val) ∨ s.cfg.retryBound ≤ c.attempt) :
    continueWrite g .value off val c s done = done (decide (c.shadowA = off ∧ readAnswer c = val)) c s := by
  by_cases hmatch : c.shadowA = off ∧ readAnswer c = val
  · rw [continueWrite_verified _ _ hmatch, decide_eq_true hmatch]
  · rw [continueWrite_exhausted _ _ hmatch (h.resolve_left hmatch), decide_eq_false hmatch]

end

/-- Settles O37: each stage but a verified or an exhausted last one begins the next frame of the same write. -/
theorem readBackFollowsEveryWrite : Obligations.ReadBackFollowsEveryWrite := by
  unfold Obligations.ReadBackFollowsEveryWrite
  intro s i c f g st off val hr hi hp hc hw
  obtain ⟨done, hproceed⟩ := proceed_verify hp hw
  have hexec := (exec_end hi hr hc).trans hproceed
  refine ⟨?_, ?_, ?_⟩
  · rintro rfl
    obtain ⟨t, rest, rx, ht, hslot, hcache, -⟩ := startFrame_begins (.regRead (shadowAddrOffset s.cfg)) (.verify g .addr) c s
    exact ⟨t, _, hexec.trans ht, hslot, hcache, rfl, ⟨rfl, rfl, rfl, rfl, rfl⟩, rfl⟩
  · rintro rfl
    obtain ⟨t, rest, rx, ht, hslot, hcache, -⟩ :=
      startFrame_begins (.regRead (shadowValOffset s.cfg)) (.verify g .value) { c with shadowA := readAnswer c } s
    exact ⟨t, _, hexec.trans ht, hslot, hcache, rfl, ⟨rfl, rfl, rfl, rfl, rfl⟩, rfl, rfl⟩
  · rintro rfl hfailed hb
    obtain ⟨t, rest, rx, ht, hslot, hcache, -⟩ :=
      startFrame_begins (.regWrite off val) (.verify g .write) { c with attempt := c.attempt + 1 } s
    exact ⟨t, _, (hexec.trans (continueWrite_retry done hfailed hb)).trans ht, hslot, hcache, rfl, ⟨rfl, rfl, rfl, rfl, rfl⟩, rfl⟩

/-- Settles O39: the last read-back verified or was the last the bound allows, and the closing begins with that result. -/
theorem wrregTargetOutcome : Obligations.WrregTargetOutcome := by
  unfold Obligations.WrregTargetOutcome
  intro s c f addr val hp hc hr hdone
  have hexec : exec (.wrreg addr val) s = closeTransaction (decide (c.shadowA = offsetOf addr ∧ readAnswer c = val)) c s := by
    simp only [exec_wrreg_end hr hc, proceedWrreg, hp, continueWrite_done closeTransaction hdone]
  obtain ⟨t, rest, rx, ht, hslot, hcache⟩ := closeTransaction_begins _ c s
  exact ⟨t, _, hexec.trans ht, hslot, hcache, rfl, ⟨rfl, rfl, rfl, rfl, rfl⟩, rfl⟩

/-! ## PGINV (R140) -/

/-- The step after its acceptance is PGINV's whole meaning, with its response (log 11). -/
theorem exec_pginv_accepted {s : State} {c : InFlight} (h : s.idle) (hw : c.word = encode .pginv) (hp : c.point = .accepted)
    (hc : c.todo = []) : exec .pginv (s.putSlot s.ctx (some c)) = .next { s with
      pageCache := .invalid, history := s.history ++ [.pginv s.ctx, .resp s.ctx 0] } := by
  have hr : (s.putSlot s.ctx (some c)).runs .pginv c := ⟨by rw [State.putSlot_fault, h.1], by simp, hw⟩
  have hself : ({ s with
      pageCache := .invalid, history := s.history ++ [.pginv s.ctx, .resp s.ctx 0] } : State) = { s.putSlot s.ctx none with
      pageCache := .invalid, history := s.history ++ [.pginv s.ctx, .resp s.ctx 0] } := by rw [putSlot_self h.2]
  rw [exec_pginv_end hr hc, hself]
  simp only [proceedPginv, hp, respond_next, State.emit_ctx, State.setPageCache_ctx, State.putSlot_ctx, State.emit_history,
    State.setPageCache_history, State.putSlot_history, List.append_assoc]
  cases s.ctx <;> rfl

/-- Settles O48: acceptance, then the one step. -/
theorem pginvInvalidates : Obligations.PginvInvalidates := by
  unfold Obligations.PginvInvalidates
  intro s r r' hidle
  have accepted (u : State) (hu : u.idle) : exec .pginv u = .next (u.putSlot u.ctx (some (freshCommand (encode .pginv)))) :=
    legalCommandIsAccepted u .pginv hu rfl rfl (by simp)
  have hidle' : (s.receive r).idle := hidle
  refine ⟨accepted s hidle, ?_, fun c hw hp hc => exec_pginv_accepted hidle hw hp hc⟩
  have hlast := exec_pginv_accepted (s := s.receive r') (c := freshCommand (encode .pginv)) hidle rfl rfl rfl
  rw [execRun_cons (accepted _ hidle'), execRun_cons (t := _) (by rw [receive_putSlot]; exact hlast)]
  rfl

end Sys2Proof.Machine
end

section
/-! PROOFS. What a step of a wire frame can do and what it leaves as it was (R130-R132, R161, R164). -/

namespace Sys2Proof.Machine

/-- A primitive leaves the surroundings as they were, once the transport's answer has come. -/
theorem drive_keeps (m : Bool) (s : State) (p : Prim) (rx : Byte) : (s.receive rx).keeps (s.drive m (p, rx)) := by
  have hrx : (s.drive m (p, rx)).rxIn = rx := by
    cases p with
    | xchg src => cases src <;> rfl
    | _ => rfl
  constructor
  case rxIn => exact hrx
  case otherSlot => rintro (_ | _) _ <;> rw [drive_same] <;> rfl
  all_goals rw [drive_same]; rfl

/-! ## A step of a wire frame -/

section
variable {s t : State} {i : Instr} {f : Frame} {cfg : Config} {p : Prim}

/-- An instruction that is no command is a wire frame, and its step is that frame's. -/
theorem exec_wireFrame (hi : i.isCommand = false) : ∃ f, i = frameInstr f ∧ ∀ s, exec i s = runFrame f s := by
  cases i with
  | regRead off => exact ⟨.regRead off, rfl, fun _ => rfl⟩
  | regWrite off val => exact ⟨.regWrite off val, rfl, fun _ => rfl⟩
  | fifoWrite len => exact ⟨.fifoWrite len, rfl, fun _ => rfl⟩
  | fifoRead => exact ⟨.fifoRead, rfl, fun _ => rfl⟩
  | _ => cases hi

/-- A wire frame's step is the next primitive of the command that stands in it, unless the engine has halted (R33, R213). -/
theorem runFrame_eq_next (h : runFrame f s = .next t) :
    t = s ∨ ∃ c role, s.slot s.ctx = some c ∧ c.point = .frame f role ∧ performNext c s = .next t := by
  by_cases hf : s.fault = .noFault
  · rw [runFrame, if_pos (State.running_iff s |>.mpr hf)] at h
    split at h
    next c hs =>
      unfold frameStep at h
      split at h
      next g role hp =>
        split at h
        next hg => exact .inr ⟨c, role, hs, hg ▸ hp, h⟩
        next => cases h
      all_goals cases h
    next => cases h
  · rw [runFrame_halted s f hf] at h
    exact .inl (Host.Outcome.next.inj h).symm

/-- Under the invariant that primitive is one of the frame's own. -/
theorem runFrame_next (hinv : s.Inv) (h : runFrame f s = .next t) :
    t = s ∨ ∃ p c m, p ∈ framePrims s.cfg f ∧ t = (s.drive m (p, s.rxIn)).putSlot s.ctx (some c) := by
  refine (runFrame_eq_next h).imp_right fun ⟨c, role, hs, hp, hnext⟩ => ?_
  obtain ⟨i, -, -, hplaced, -⟩ := hinv.legal hs
  simp only [InFlight.placed, hp] at hplaced
  obtain ⟨-, hleft, -⟩ := hplaced
  cases hc : c.todo with
  | nil => rw [performNext, hc] at hnext; cases hnext
  | cons p rest =>
    have hmem : p ∈ framePrims s.cfg f := hleft.subset (by rw [hc]; exact List.mem_cons_self)
    have hlock : p ≠ .lockAcq := by rintro rfl; simpa using mem_framePrims hmem
    rw [performNext_cons c s p rest hc] at hnext
    cases hnext.symm.trans (perform_drive (s := s) (rx := s.rxIn) fun hp => absurd hp hlock)
    exact ⟨p, _, _, hmem, rfl⟩

/-- Between FrameOpen and FrameClose a frame sets the bit order and exchanges bytes, and nothing else (R88-R90). -/
theorem mem_frameBody (h : p ∈ frameBody cfg f) : (∃ o, p = .order o) ∨ ∃ src, p = .xchg src := by
  cases f <;> simp only [frameBody, List.mem_cons, List.mem_append, List.mem_map, List.not_mem_nil, or_false] at h <;> grind

/-- A register frame drives chip-select and exchanges bytes that it fixes, and nothing else (R88, R195). -/
theorem mem_registerFrame (hf : (∃ off, f = .regRead off) ∨ ∃ off val, f = .regWrite off val) (h : p ∈ framePrims cfg f) :
    p = .csAssert ∨ p = .csDeassert ∨ ∃ b, p = .xchg (.byte b) := by
  obtain ⟨x, y, z, hbody⟩ : ∃ x y z, frameBody cfg f = [.xchg (.byte x), .xchg (.byte y), .xchg (.byte z)] := by
    rcases hf with ⟨off, rfl⟩ | ⟨off, val, rfl⟩ <;> exact ⟨_, _, _, rfl⟩
  rw [framePrims, hbody] at h
  split at h <;> simp only [List.mem_append, List.mem_cons, List.not_mem_nil, or_false] at h <;> grind

/-- A frame's primitive drives chip-select, the bit order and the history, and no other field but the model's own. -/
theorem drive_framePrim {m : Bool} {rx : Byte} (h : p ∈ framePrims cfg f) : s.drive m (p, rx) = { s with
    csAsserted := (s.drive m (p, rx)).csAsserted, bitOrder := (s.drive m (p, rx)).bitOrder,
    history := (s.drive m (p, rx)).history, draws := (s.drive m (p, rx)).draws, rxIn := (s.drive m (p, rx)).rxIn } := by
  rcases mem_framePrims h with rfl | rfl | ⟨o, rfl⟩ | ⟨src, rfl⟩
  · rfl
  · rfl
  · rfl
  · cases src <;> rfl

theorem drive_xchg_csAsserted {m : Bool} {rx : Byte} (src : TxSource) : (s.drive m (.xchg src, rx)).csAsserted = s.csAsserted := by
  cases src <;> rfl

end

/-- Settles O57: a frame's primitive drives chip-select or the bit order or exchanges a byte. -/
theorem frameOfWireFrames : Obligations.FrameOfWireFrames := by
  unfold Obligations.FrameOfWireFrames
  intro s t i hinv hi h
  obtain ⟨f, rfl, hstep⟩ := exec_wireFrame hi
  rw [hstep] at h
  rcases runFrame_next hinv h with rfl | ⟨p, c, m, hmem, rfl⟩
  · exact ⟨by constructor <;> simp, rfl, rfl, rfl, rfl, rfl, rfl, rfl, rfl, fun _ => rfl, fun _ => rfl⟩
  · have hkeeps : s.keeps (s.drive m (p, s.rxIn)) := drive_keeps m s p s.rxIn
    refine ⟨hkeeps.trans (hkeeps.ctx ▸ State.keeps_putSlot _ _), ?_⟩
    have hcs : s.cfg.csMode = .perTransaction → (s.drive m (p, s.rxIn)).csAsserted = s.csAsserted := by
      intro hm
      rw [framePrims_transaction _ _ hm] at hmem
      rcases mem_frameBody hmem with ⟨o, rfl⟩ | ⟨src, rfl⟩
      · rfl
      · exact drive_xchg_csAsserted src
    have horder : (∃ off, frameInstr f = .regRead off) ∨ (∃ off val, frameInstr f = .regWrite off val) →
        (s.drive m (p, s.rxIn)).bitOrder = s.bitOrder := by
      intro hf
      replace hf : (∃ off, f = .regRead off) ∨ ∃ off val, f = .regWrite off val := by
        cases f <;> simp_all [frameInstr]
      rcases mem_registerFrame hf hmem with rfl | rfl | ⟨b, rfl⟩ <;> rfl
    simp only [State.putSlot_pageCache, State.putSlot_lockHeld, State.putSlot_lockOwner, State.putSlot_irqMasked,
      State.putSlot_fault, State.putSlot_faultInfo, State.putSlot_ab, State.putSlot_abTotals, State.putSlot_csAsserted,
      State.putSlot_bitOrder]
    refine ⟨?_, ?_, ?_, ?_, ?_, ?_, ?_, ?_, hcs, horder⟩
    all_goals rw [drive_framePrim hmem]

end Sys2Proof.Machine
end

section
/-! PROOFS. The register frames from their first primitive to their last, whichever step begins them (R88, R131, R132, R195). -/

namespace Sys2Proof.Machine

/-- What a register frame of the bytes `x`, `y`, `z`, answered `a`, `b`, `r`, leaves of command `c` and the engine (R88, R131, R132). -/
structure State.madeRegisterFrame (s : State) (c : InFlight) (x y z a b r : Byte) (t : State) : Prop where
  history  : t.history = s.history ++ frameEvents s.cfg s.ctx
    [.xchg x a .msb s.ctx, .xchg y b .msb s.ctx, .xchg z r .msb s.ctx]
  slot     : t.slot s.ctx = some { c with todo := [], rx := [a, b, r] }
  bitOrder : t.bitOrder = .msb

section
variable {s t : State} {i : Instr} {c d : InFlight} {f : Frame} {role : Role} {q q' rest : List Byte} {a b r x y z : Byte}

/-- The three exchanges of a register frame between FrameOpen and FrameClose, in the order that holds (R88). -/
theorem driveAll_exchanges {m : Bool} : ∃ v, s.driveAll m [.xchg (.byte x), .xchg (.byte y), .xchg (.byte z)] [a, b, r] = v ∧
    v.history = s.history ++ [.xchg x a s.bitOrder s.ctx, .xchg y b s.bitOrder s.ctx, .xchg z r s.bitOrder s.ctx] ∧
    v.bitOrder = s.bitOrder ∧ v.draws = s.draws := by
  refine ⟨_, rfl, ?_, ?_, ?_⟩ <;> simp [State.driveAll, State.drive]

/-- A register frame runs whole from its first primitive. -/
theorem execRun_registerFrame (h : s.startsFrame f role c)
    (hbody : frameBody s.cfg f = [.xchg (.byte x), .xchg (.byte y), .xchg (.byte z)]) (horder : s.bitOrder = .msb)
    (hq : q.length = csSteps s.cfg) (hq' : q'.length = csSteps s.cfg) :
    ∃ t, execRun (frameInstr f) (q ++ [a, b, r] ++ q') s = .next t ∧ s.madeRegisterFrame c x y z a b r t := by
  have hlen : [a, b, r].length = (frameBody s.cfg f).length := by rw [hbody]; rfl
  obtain ⟨v, hv, hhistory, ho, -⟩ := driveAll_framePrims (m := c.tainted) hq hq' hlen fun u hx hord hdraws _ => by
    have hu := driveAll_exchanges (s := u) (m := c.tainted) (a := a) (b := b) (r := r) (x := x) (y := y) (z := z)
    rwa [← hbody, hx, hord, horder, hdraws] at hu
  have hrun := execRun_frame h (rxs := q ++ [a, b, r] ++ q')
    (by rw [framePrims_length, List.length_append, List.length_append, hq, hq', hlen])
  rw [hv, answers_framePrims hq hq' hlen, hbody] at hrun
  exact ⟨_, hrun, (State.putSlot_history _ _ _).trans hhistory, State.putSlot_slot_same _ _ _, (State.putSlot_bitOrder _ _ _).trans ho⟩

/-! ## The step that begins a block -/

/-- The step that begins a block is the first step of the block, in a state that the pseudocode prepared (logs 5, 12). -/
theorem begins_performNext (h : s.begins i c r t d) :
    ∃ u e, Prepares i c (s.receive r) u ∧ Begins i c (s.receive r) u e ∧ performNext e u = .next t := by
  obtain ⟨hi, hr, hc, hexec, hnofault, hslot⟩ := h
  rw [exec_receive_end hi hr hc] at hexec
  have hend := proceed_ends i c (s.receive r)
  generalize proceed i c (s.receive r) = next at hexec hend
  cases hend with
  | block hu hd => exact ⟨_, _, hu, hd, hexec⟩
  | answer r' hu =>
    cases hexec
    rw [hu.keeps.ctx] at hslot
    simp at hslot
  | invalidate hi' => cases hexec; simp at hslot
  | countRange info => cases hexec; cases hnofault
  | outOfPlace => cases hexec

/-- The step that begins a frame is the frame's first step in a state in which the command stands at the frame. -/
theorem begins_frame (h : s.begins i c r t d) (hp : d.point = .frame f role) :
    ∃ (u : State) (e : InFlight), u.startsFrame f role e ∧ exec (frameInstr f) (u.receive r) = .next t ∧ (s.receive r).keeps u ∧
      u.history = s.history ∧ u.bitOrder = s.bitOrder ∧ ∃ todo rx, e = { d with todo := todo, rx := rx } := by
  obtain ⟨u, e, hu, he, hexec⟩ := begins_performNext h
  obtain ⟨-, ⟨hf, -⟩, -, -, hnofault, hslot⟩ := h
  have hx : u.ctx = s.ctx := hu.keeps.ctx
  have hpoint : e.point = .frame f role := (performNext_point hexec hnofault (by rwa [hx])).symm.trans hp
  have htodo : e.todo = framePrims u.cfg f := by rw [he.todo, hpoint, hu.keeps.cfg]; rfl
  have hstarts : (u.putSlot u.ctx (some e)).startsFrame f role e := by
    refine ⟨?_, by simp, hpoint, by simpa using htodo, (he.frame f role hpoint).2⟩
    rw [State.putSlot_fault, hu.same]; exact hf
  have hfirst : exec (frameInstr f) (u.putSlot u.ctx (some e)) = performNext e u :=
    exec_putSlot_block (executes_frame hstarts.1 hstarts.2.1 hpoint) (htodo ▸ framePrims_ne_nil _ _)
      fun hm => absurd (mem_framePrims (htodo ▸ hm)) (by simp)
  refine ⟨u.putSlot u.ctx (some e), e, hstarts, ?_, hu.keeps.trans (u.keeps_putSlot _), ?_, ?_, ?_⟩
  · have hrx : u.rxIn = r := hu.keeps.rxIn
    rw [receive_putSlot, show u.receive r = u by rw [← hrx]; rfl]
    exact hfirst.trans hexec
  · rw [State.putSlot_history, hu.same]; rfl
  · rw [State.putSlot_bitOrder, hu.same]; rfl
  · obtain ⟨p, rest, hp, -⟩ := framePrims_head u.cfg f
    rw [performNext_cons e u p rest (htodo.trans hp)] at hexec
    rcases perform_next hexec with hperf | ⟨-, -, rfl⟩
    · obtain ⟨rx, hd, -⟩ := hperf.slot
      rw [hx, hslot] at hd
      cases hd
      exact ⟨e.todo, e.rx, rfl⟩
    · cases hnofault

/-- A register frame that a step has just begun runs through what is left of it. -/
theorem execRun_begunRegisterFrame (h : s.begins i c r t d) (hp : d.point = .frame f role)
    (hbody : frameBody s.cfg f = [.xchg (.byte x), .xchg (.byte y), .xchg (.byte z)]) (horder : s.bitOrder = .msb)
    (hq : q.length = csSteps s.cfg) (hq' : q'.length = csSteps s.cfg) {a b v : Byte} (hsplit : r :: rest = q ++ [a, b, v] ++ q') :
    ∃ t', execRun (frameInstr f) rest t = .next t' ∧ s.madeRegisterFrame d x y z a b v t' := by
  obtain ⟨u, e, hstarts, hfirst, hkeeps, hhistory, hord, todo, rx, rfl⟩ := begins_frame h hp
  have hcfg : u.cfg = s.cfg := hkeeps.cfg
  have hx : u.ctx = s.ctx := hkeeps.ctx
  rw [← hcfg] at hbody hq hq'
  obtain ⟨t', hrun, hmade⟩ := execRun_registerFrame (a := a) (b := b) (r := v) hstarts hbody (hord.trans horder) hq hq'
  rw [← hsplit, execRun_cons hfirst] at hrun
  refine ⟨t', hrun, ?_, ?_, hmade.bitOrder⟩
  · rw [hmade.history, hhistory, hcfg, hx]
  · rw [← hx, hmade.slot]

end

/-- Settles O33: the frame runs whole from its first primitive, whether it stands whole or the step before has just begun it. -/
theorem registerFrames : Obligations.RegisterFrames := by
  unfold Obligations.RegisterFrames
  intro s c off val role a b d q q' horder hq hq'
  refine ⟨fun h => ?_, fun h => ?_, fun i r rest t1 d1 h hsplit => ⟨fun hp => ?_, fun hp => ?_⟩⟩
  · obtain ⟨t, hrun, hmade⟩ := execRun_registerFrame (a := a) (b := b) (r := d) h rfl horder hq hq'
    exact ⟨t, hrun, hmade.history, hmade.slot, rfl, hmade.bitOrder⟩
  · obtain ⟨t, hrun, hmade⟩ := execRun_registerFrame (a := a) (b := b) (r := d) h rfl horder hq hq'
    exact ⟨t, hrun, hmade.history, hmade.slot, hmade.bitOrder⟩
  · obtain ⟨t, hrun, hmade⟩ := execRun_begunRegisterFrame h hp rfl horder hq hq' hsplit
    exact ⟨t, hrun, hmade.history, hmade.slot, rfl, hmade.bitOrder⟩
  · obtain ⟨t, hrun, hmade⟩ := execRun_begunRegisterFrame h hp rfl horder hq hq' hsplit
    exact ⟨t, hrun, hmade.history, hmade.slot, hmade.bitOrder⟩

end Sys2Proof.Machine
end

section
/-! PROOFS. WRREG without a page switch, attempt by attempt, from acceptance to response (R134, R138). -/

namespace Sys2Proof.Machine

/-! ## The primitives of a WRREG -/

/-- The primitives of one attempt of `VerifiedWrite(o, v)`: the write and the read-backs of both shadows (R133, R134). -/
def attemptPrims (cfg : Config) (off val : Byte) : List Prim :=
  framePrims cfg (.regWrite off val) ++ framePrims cfg (.regRead (shadowAddrOffset cfg)) ++
    framePrims cfg (.regRead (shadowValOffset cfg))

/-- The primitives of `n` attempts. -/
def attemptsPrims (cfg : Config) (off val : Byte) (n : Nat) : List Prim := (List.replicate n (attemptPrims cfg off val)).flatten

/-- The primitives of a transaction of `n` attempts (R138, R194). -/
def wrregPrims (cfg : Config) (x : Ctx) (off val : Byte) (n : Nat) : List Prim :=
  openPrims cfg x ++ attemptsPrims cfg off val n ++ closePrims cfg x

/-- The primitives with which a transaction releases chip-select, the lock and, in the foreground, the source (R194, R195). -/
def releasePrims (x : Ctx) : List Prim := [Prim.csDeassert, Prim.lockRel] ++ if x = .fg then [Prim.unmask] else []

/-- The last answer of frame `j` of attempt `k`, among the answers to the attempts' primitives. -/
def attemptAnswer (cfg : Config) (rxs : List Byte) (k j : Nat) : Byte :=
  rxs.getD (3 * frameSteps cfg * k + frameSteps cfg * j + csSteps cfg + 2) 0

section
variable {cfg : Config} {x : Ctx} {off val : Byte} {n k j : Nat} {xs ys : List Byte}

theorem attemptsPrims_succ : attemptsPrims cfg off val (n + 1) = attemptsPrims cfg off val n ++ attemptPrims cfg off val := by
  simp [attemptsPrims, List.replicate_succ']

theorem openEvents_length (cfg : Config) (x : Ctx) : (openEvents cfg x).length = (openPrims cfg x).length := by
  cases x <;> cases h : cfg.csMode <;> simp [openEvents, openPrims, h]

theorem closeEvents_length (cfg : Config) (x : Ctx) : (closeEvents cfg x).length = (closePrims cfg x).length := by
  cases x <;> cases h : cfg.csMode <;> simp [closeEvents, closePrims, h]

/-- Each primitive of a WRREG stands in one of its blocks. -/
theorem inBlock_wrregPrims {addr : RegAddr} {p : Prim} (h : p ∈ wrregPrims cfg x off val n) : InBlock (.wrreg addr val) cfg x p := by
  have frame {f : Frame} (hf : Emits (.wrreg addr val) f) (hp : p ∈ framePrims cfg f) : InBlock (.wrreg addr val) cfg x p :=
    ⟨.frame f .read, hp, by rintro _ _ ⟨⟩; exact hf⟩
  simp only [wrregPrims, attemptsPrims, attemptPrims, List.mem_append, List.mem_flatten, List.mem_replicate] at h
  rcases h with (h | ⟨_, ⟨-, rfl⟩, h⟩) | h
  · exact ⟨.opened, h, by simp⟩
  · rcases List.mem_append.mp h with h | h
    · rcases List.mem_append.mp h with h | h
      · exact frame (.inr (.inr ⟨_, _, rfl⟩)) h
      · exact frame (.inr (.inl ⟨_, rfl⟩)) h
    · exact frame (.inr (.inl ⟨_, rfl⟩)) h
  · exact ⟨.closed, h, by simp⟩

/-- Whether the last frame or the transaction's end releases chip-select, a WRREG's last primitives are the same (R194, R195). -/
theorem wrregPrims_tail (cfg : Config) (x : Ctx) (off val : Byte) (n : Nat) : ∃ ps, wrregPrims cfg x off val (n + 1) =
    ps ++ releasePrims x := by
  cases hm : cfg.csMode with
  | perTransaction => exact ⟨openPrims cfg x ++ attemptsPrims cfg off val (n + 1), by simp [wrregPrims, closePrims, releasePrims, hm]⟩
  | perAccess =>
    refine ⟨openPrims cfg x ++ (attemptsPrims cfg off val n ++ (framePrims cfg (.regWrite off val) ++
      framePrims cfg (.regRead (shadowAddrOffset cfg)) ++ .csAssert :: frameBody cfg (.regRead (shadowValOffset cfg)))), ?_⟩
    rw [wrregPrims, attemptsPrims_succ, attemptPrims, framePrims_access cfg (.regRead (shadowValOffset cfg)) hm]
    simp [closePrims, releasePrims, hm]

/-! ## The answers of an attempt -/

theorem attemptAnswer_append_left (hxs : xs.length = 3 * frameSteps cfg * n) (hk : k < n) (hj : j ≤ 2) :
    attemptAnswer cfg (xs ++ ys) k j = attemptAnswer cfg xs k j := by
  have hsteps : frameSteps cfg = 3 + 2 * csSteps cfg := rfl
  have hbound : 3 * frameSteps cfg * (k + 1) ≤ 3 * frameSteps cfg * n := Nat.mul_le_mul_left _ hk
  have hframe : frameSteps cfg * j ≤ frameSteps cfg * 2 := Nat.mul_le_mul_left _ hj
  rw [Nat.mul_succ] at hbound
  exact List.getD_append _ _ _ _ (by omega)

theorem attemptAnswer_append_right (hxs : xs.length = 3 * frameSteps cfg * n) :
    attemptAnswer cfg (xs ++ ys) n j = attemptAnswer cfg ys 0 j := by
  rw [attemptAnswer, attemptAnswer, List.getD_append_right _ _ _ _ (by omega)]
  congr 1
  omega

section
variable {w a v : List Byte}

/-- The second frame's last answer is the address shadow (R134). -/
theorem attemptAnswer_address (hw : w.length = frameSteps cfg) (ha : a.length = frameSteps cfg) :
    attemptAnswer cfg (w ++ a ++ v) 0 1 = a.getD (csSteps cfg + 2) 0 := by
  have hsteps : frameSteps cfg = 3 + 2 * csSteps cfg := rfl
  rw [attemptAnswer, List.getD_append _ _ _ _ (by rw [List.length_append]; omega), List.getD_append_right _ _ _ _ (by omega)]
  congr 1
  omega

/-- The third frame's last answer is the value shadow (R134). -/
theorem attemptAnswer_value (hw : w.length = frameSteps cfg) (ha : a.length = frameSteps cfg) :
    attemptAnswer cfg (w ++ a ++ v) 0 2 = v.getD (csSteps cfg + 2) 0 := by
  rw [attemptAnswer, List.getD_append_right _ _ _ _ (by rw [List.length_append]; omega), List.length_append]
  congr 1
  omega

end

/-- The answers before the first attempt are acceptance's and the opening's. -/
theorem shadowAnswer_eq {s : State} {q : Byte} (hxs : xs.length = (openPrims s.cfg s.ctx).length) :
    shadowAnswer s (q :: (xs ++ ys)) k j = attemptAnswer s.cfg ys k j := by
  rw [shadowAnswer, attemptAnswer, openEvents_length, ← hxs, ← List.cons_append, List.getD_append_right _ _ _ _ (by simp; omega)]
  congr 1
  simp; omega

/-- The value that a REG_READ frame yields is the answer to its third exchange (R131). -/
theorem answers_regRead (hxs : xs.length = frameSteps cfg) :
    (answers (framePrims cfg (.regRead off)) xs).getD 2 0 = xs.getD (csSteps cfg + 2) 0 := by
  obtain ⟨q, b, q', rfl, hq, hb, hq'⟩ := exists_append_of_length (rxs := xs) (m := csSteps cfg) (n := 3) (k := csSteps cfg)
    (by rw [hxs, frameSteps]; omega)
  obtain ⟨x, y, z, rfl⟩ := List.length_eq_three.mp hb
  rw [answers_framePrims hq hq' rfl]
  rcases csSteps_cases hq hq' with ⟨hm, rfl, rfl⟩ | ⟨hm, y, y', rfl, rfl⟩ <;> simp [csSteps, hm, frameBody, answers, Prim.answer]

end

/-! ## Attempt by attempt -/

/-- Command `c` is at the end of attempt `k` on its target, which read `a` and `v` back (R133, R134). -/
structure InFlight.readBack (c : InFlight) (k : Nat) (a v : Byte) : Prop where
  todo    : c.todo = []
  point   : ∃ f, c.point = .frame f (.verify .target .value)
  attempt : c.attempt = k
  address : c.shadowA = a
  value   : readAnswer c = v

section
variable {s : State} {i : Instr} {c d : InFlight} {f : Frame} {role : Role} {m : Bool} {ps : List Prim} {rxs xs : List Byte}
variable {addr : RegAddr} {val : Byte} {k n : Nat}

/-- From the end of a block the run goes on through the frame begun next. -/
theorem Reaches.next_frame (h : Reaches i s m ps rxs c) (hi : i.isCommand = true) (hc : c.todo = [])
    (hp : ∀ u, u.cfg = s.cfg → u.pageCache = s.pageCache → proceed i c u = startFrame f role d u)
    (hw : d.word = c.word) (hm : d.tainted = c.tainted) (hlen : xs.length = (framePrims s.cfg f).length) :
    Reaches i s m (ps ++ framePrims s.cfg f) (rxs ++ xs)
      { d with point := .frame f role, todo := [], rx := Machine.answers (framePrims s.cfg f) xs } :=
  h.next_block (d := { d with point := .frame f role, todo := framePrims s.cfg f, rx := [] }) hi hc
    (fun u hcfg _ hcache => by rw [hp u hcfg hcache, startFrame_eq, hcfg]) hw hm rfl (framePrims_ne_nil _ _) (by simp) hlen

/-- From the step that begins an attempt the run goes on through its three frames. -/
theorem Reaches.next_attempt (h : Reaches (.wrreg addr val) s m ps rxs c) (hc : c.todo = [])
    (hp : ∀ u, u.cfg = s.cfg → u.pageCache = s.pageCache → proceed (.wrreg addr val) c u =
      startFrame (.regWrite (offsetOf addr) val) (.verify .target .write) { c with attempt := k } u)
    (hlen : xs.length = 3 * frameSteps s.cfg) :
    ∃ d, Reaches (.wrreg addr val) s m (ps ++ attemptPrims s.cfg (offsetOf addr) val) (rxs ++ xs) d ∧
      d.readBack k (attemptAnswer s.cfg xs 0 1) (attemptAnswer s.cfg xs 0 2) := by
  obtain ⟨w, a, v, rfl, hw, ha, hv⟩ := exists_append_of_length (rxs := xs) (m := frameSteps s.cfg) (n := frameSteps s.cfg)
    (k := frameSteps s.cfg) (by omega)
  have written := h.next_frame rfl hc hp rfl rfl (hw.trans (framePrims_regWrite_length _ _ _).symm)
  have address := written.next_frame (f := .regRead (shadowAddrOffset s.cfg)) (role := .verify .target .addr) rfl rfl
    (fun u hcfg _ => by rw [← hcfg]; rfl) rfl rfl (ha.trans (framePrims_regRead_length _ _).symm)
  have value := address.next_frame (f := .regRead (shadowValOffset s.cfg)) (role := .verify .target .value)
    (d := { c with attempt := k, shadowA := (Machine.answers (framePrims s.cfg (.regRead (shadowAddrOffset s.cfg))) a).getD 2 0 }) rfl rfl
    (fun u hcfg _ => by rw [← hcfg]; rfl) rfl rfl (hv.trans (framePrims_regRead_length _ _).symm)
  rw [List.append_assoc ps, List.append_assoc ps, List.append_assoc rxs, List.append_assoc rxs] at value
  exact ⟨_, value, rfl, ⟨_, rfl⟩, rfl, (answers_regRead ha).trans (attemptAnswer_address hw ha).symm,
    (answers_regRead hv).trans (attemptAnswer_value hw ha).symm⟩

/-- WRREG's pseudocode at the end of an attempt is what follows the value shadow's read-back (R134). -/
theorem InFlight.readBack.proceed {a v : Byte} (h : c.readBack k a v) (u : State) : proceed (.wrreg addr val) c u =
    continueWrite .target .value (offsetOf addr) val c u closeTransaction := by
  obtain ⟨f, hp⟩ := h.point
  simp only [Machine.proceed, proceedWrreg, hp]

/-- A WRREG that needs no page switch and whose attempts before the last failed runs through its opening and `n + 1` attempts. -/
theorem reaches_attempts (hr : s.runs (.wrreg addr val) c) (hp : c.point = .accepted) (hc : c.todo = []) (hlock : s.lockHeld = false)
    (hpage : mirrored addr = true ∨ s.pageCache = .page (pageOf addr)) (hrxs : rxs.length = (openPrims s.cfg s.ctx).length)
    (hbound : n ≤ s.cfg.retryBound) (hxs : xs.length = 3 * frameSteps s.cfg * (n + 1))
    (hfailed : ∀ k, k < n → ¬(attemptAnswer s.cfg xs k 1 = offsetOf addr ∧ attemptAnswer s.cfg xs k 2 = val)) :
    ∃ d, Reaches (.wrreg addr val) s c.tainted (openPrims s.cfg s.ctx ++ attemptsPrims s.cfg (offsetOf addr) val (n + 1))
        (rxs ++ xs) d ∧ d.readBack n (attemptAnswer s.cfg xs n 1) (attemptAnswer s.cfg xs n 2) := by
  induction n generalizing xs with
  | zero =>
    have opened := (Reaches.start hr).next_block (d := { c with point := .opened, todo := openPrims s.cfg s.ctx }) rfl hc
      (fun u hcfg hctx _ => by simp only [proceed, proceedWrreg, hp, openTransaction, hcfg, hctx]) rfl rfl rfl
      (openPrims_ne_nil _ _) (fun _ => hlock) hrxs
    have hbegin : ∀ u, u.pageCache = s.pageCache → ∀ d, d.point = .opened → proceed (.wrreg addr val) d u =
        startFrame (.regWrite (offsetOf addr) val) (.verify .target .write) { d with attempt := 0 } u := by
      intro u hcache d hd
      rw [← hcache] at hpage
      simp only [proceed, proceedWrreg, hd, ensurePage_here _ hpage, beginWrite]
    rw [show attemptsPrims s.cfg (offsetOf addr) val (0 + 1) = attemptPrims s.cfg (offsetOf addr) val from attemptsPrims_succ]
    exact opened.next_attempt rfl (fun u _ hcache => hbegin u hcache _ rfl) (by rw [hxs, Nat.zero_add, Nat.mul_one])
  | succ n ih =>
    obtain ⟨ys, zs, rfl, hys, hzs⟩ : ∃ ys zs, xs = ys ++ zs ∧ ys.length = 3 * frameSteps s.cfg * (n + 1) ∧
        zs.length = 3 * frameSteps s.cfg := by
      rw [Nat.mul_succ] at hxs
      exact ⟨_, _, (List.take_append_drop (3 * frameSteps s.cfg * (n + 1)) xs).symm, by rw [List.length_take]; omega,
        by rw [List.length_drop]; omega⟩
    have earlier {k j : Nat} (hk : k ≤ n) (hj : j ≤ 2) : attemptAnswer s.cfg (ys ++ zs) k j = attemptAnswer s.cfg ys k j :=
      attemptAnswer_append_left hys (Nat.lt_succ_of_le hk) hj
    obtain ⟨d, reached, hread⟩ := ih (by omega) hys fun k hk => by
      have := hfailed k (by omega)
      rwa [earlier hk.le (by omega), earlier hk.le (by omega)] at this
    have hretry := hfailed n (by omega)
    rw [earlier le_rfl (by omega), earlier le_rfl (by omega), ← hread.address, ← hread.value] at hretry
    obtain ⟨e, attempted, hlast⟩ := reached.next_attempt (k := n + 1) hread.todo (fun u hcfg _ => by
      rw [hread.proceed, continueWrite_retry _ hretry (by rw [hread.attempt, hcfg]; omega), hread.attempt]) hzs
    rw [attemptAnswer_append_right hys, attemptAnswer_append_right hys]
    refine ⟨e, ?_, hlast⟩
    rwa [List.append_assoc, List.append_assoc, ← attemptsPrims_succ] at attempted

/-- A WRREG that needs no page switch runs through its whole transaction: its last attempt verified, or no other was allowed. -/
theorem reaches_wrregClosed {ys : List Byte} (hr : s.runs (.wrreg addr val) c) (hp : c.point = .accepted) (hc : c.todo = [])
    (hlock : s.lockHeld = false) (hpage : mirrored addr = true ∨ s.pageCache = .page (pageOf addr))
    (hrxs : rxs.length = (openPrims s.cfg s.ctx).length) (hxs : xs.length = 3 * frameSteps s.cfg * (n + 1))
    (hys : ys.length = (closePrims s.cfg s.ctx).length) (hbound : n ≤ s.cfg.retryBound)
    (hfailed : ∀ k, k < n → ¬(attemptAnswer s.cfg xs k 1 = offsetOf addr ∧ attemptAnswer s.cfg xs k 2 = val))
    (hlast : (attemptAnswer s.cfg xs n 1 = offsetOf addr ∧ attemptAnswer s.cfg xs n 2 = val) ∨ s.cfg.retryBound ≤ n) :
    ∃ d, Reaches (.wrreg addr val) s c.tainted (wrregPrims s.cfg s.ctx (offsetOf addr) val (n + 1)) (rxs ++ xs ++ ys) d ∧
      d.point = .closed ∧ d.todo = [] ∧
      d.ok = decide (attemptAnswer s.cfg xs n 1 = offsetOf addr ∧ attemptAnswer s.cfg xs n 2 = val) := by
  obtain ⟨d, reached, hread⟩ := reaches_attempts hr hp hc hlock hpage hrxs hbound hxs hfailed
  rw [← hread.address, ← hread.value] at hlast ⊢
  have hclose : ∀ u, u.cfg = s.cfg → u.ctx = s.ctx → u.pageCache = s.pageCache → proceed (.wrreg addr val) d u = performNext
      { d with point := .closed, todo := closePrims s.cfg s.ctx, ok := decide (d.shadowA = offsetOf addr ∧ readAnswer d = val) } u := by
    intro u hcfg hctx _
    rw [hread.proceed, continueWrite_done _ (by rwa [hcfg, hread.attempt]), closeTransaction, hcfg, hctx]
  exact ⟨_, reached.next_block rfl hread.todo hclose rfl rfl rfl (closePrims_ne_nil _ _) (by simp) hys, rfl, rfl, rfl⟩

/-- A command accepted into the empty slot that ran through its blocks responds, and the engine is as those blocks drove it. -/
theorem Reaches.respond_accepted {r : ResponseWord} {q : Byte}
    (h : Reaches i ((s.receive q).putSlot s.ctx (some (freshCommand (encode i)))) m ps rxs d) (hempty : s.slot s.ctx = none)
    (haccept : exec i (s.receive q) = .next ((s.receive q).putSlot s.ctx (some (freshCommand (encode i))))) (hi : i.isCommand = true)
    (hd : d.todo = []) (hne : ps ≠ []) (hp : ∀ u, proceed i d u = Machine.respond r u) (q' : Byte) :
    execRun i (q :: (rxs ++ [q'])) s = .next (((s.driveAll m ps rxs).receive q').emit (.resp s.ctx r)) := by
  have hsame : (s.driveAll m ps rxs).slot s.ctx = none := (driveAll_slot s.ctx).trans hempty
  rw [execRun_cons haccept, h.respond hi hd hp q', driveAll_putSlot, driveAll_receive q hne h.answers]
  simp only [State.putSlot_ctx, State.receive_ctx, receive_putSlot, putSlot_putSlot]
  rw [putSlot_self ((State.receive_slot _ _ _).trans hsame)]

end

/-! ## What a WRREG leaves -/

/-- The byte that a primitive of a register command sends, MSB-first (R131, R132). -/
def Prim.sent : Prim → Option (Byte × BitOrder)
  | .xchg (.byte b) => some (b, .msb)
  | _ => none

section
variable {s v : State} {i : Instr} {m : Bool} {p : Prim} {ps : List Prim} {rx q : Byte} {rxs : List Byte}
variable {cfg : Config} {x : Ctx} {off val : Byte} {addr : RegAddr} {n : Nat}

/-- A command without a FIFO frame sends no byte of PB (R131, R132). -/
theorem InBlock.ne_payload (h : InBlock i cfg x p) (hi : fifoFrame i = none) (k : Nat) : p ≠ .xchg (.payload k) := by
  obtain ⟨pt, hp, hf⟩ := h
  rintro rfl
  cases pt with
  | accepted => cases hp
  | opened => simp [blockPrims, openPrims] at hp
  | closed => simp [blockPrims, closePrims] at hp
  | frame f role =>
    have hregister := (hf f role rfl).resolve_left (by simp [hi])
    simpa using mem_registerFrame hregister hp

/-- What none of these primitives changes, a run of them does not change. -/
theorem driveAll_field_of_mem {α : Type} (g : State → α) (hg : ∀ v p rx, p ∈ ps → g (State.drive m v (p, rx)) = g v) (s : State) :
    g (s.driveAll m ps rxs) = g s := by
  have hmem : ∀ e ∈ ps.zip rxs, e.1 ∈ ps := fun e he => (List.of_mem_zip he).1
  unfold State.driveAll
  generalize ps.zip rxs = es at hmem
  induction es generalizing s with
  | nil => rfl
  | cons e es ih =>
    exact (ih _ fun e he => hmem e (List.mem_cons_of_mem _ he)).trans (hg s e.1 e.2 (hmem e List.mem_cons_self))

theorem drive_bitOrder (hp : ∀ o, p ≠ .order o) : (s.drive m (p, rx)).bitOrder = s.bitOrder := by
  cases p with
  | order o => exact absurd rfl (hp o)
  | xchg src => cases src <;> rfl
  | _ => rfl

theorem drive_irqMasked (hp : p ≠ .mask ∧ p ≠ .unmask) : (s.drive m (p, rx)).irqMasked = s.irqMasked := by
  cases p with
  | mask => exact absurd rfl hp.1
  | unmask => exact absurd rfl hp.2
  | xchg src => cases src <;> rfl
  | _ => rfl

theorem drive_draws (hp : ∀ k, p ≠ .xchg (.payload k)) : (s.drive m (p, rx)).draws = s.draws := by
  cases p with
  | xchg src =>
    cases src with
    | byte b => rfl
    | payload k => exact absurd rfl (hp k)
  | _ => rfl

theorem sentBytes_append (h es : List Event) : sentBytes (h ++ es) = sentBytes h ++ sentBytes es := List.filterMap_append

theorem drive_sentBytes (horder : s.bitOrder = .msb) (hp : ∀ k, p ≠ .xchg (.payload k)) :
    sentBytes (s.drive m (p, rx)).history = sentBytes s.history ++ [p].filterMap Prim.sent := by
  cases p with
  | xchg src =>
    cases src with
    | byte b =>
      have hone : sentBytes [.xchg b rx s.bitOrder s.ctx] = [(b, .msb)] := by rw [horder]; rfl
      exact (sentBytes_append _ _).trans (congrArg _ hone)
    | payload k => exact absurd rfl (hp k)
  | _ => exact sentBytes_append _ _

/-- In a run without a change of order and without a byte of PB, the bytes sent are the primitives' own, MSB-first. -/
theorem driveAll_sentBytes (horder : s.bitOrder = .msb) (hlen : rxs.length = ps.length)
    (hps : ∀ p ∈ ps, (∀ o, p ≠ .order o) ∧ ∀ k, p ≠ .xchg (.payload k)) :
    sentBytes (s.driveAll m ps rxs).history = sentBytes s.history ++ ps.filterMap Prim.sent := by
  induction ps generalizing s rxs with
  | nil => simp [State.driveAll]
  | cons p ps ih =>
    obtain ⟨rx, rxs, rfl⟩ := List.exists_cons_of_length_eq_add_one hlen
    obtain ⟨ho, hk⟩ := hps p List.mem_cons_self
    rw [driveAll_cons, ih ((drive_bitOrder ho).trans horder) (Nat.succ_inj.mp hlen) fun p hp => hps p (List.mem_cons_of_mem _ hp),
      drive_sentBytes horder hk, List.append_assoc, ← List.filterMap_append, List.singleton_append]

/-- FrameOpen and FrameClose send nothing (R195). -/
theorem framePrims_sent {f : Frame} : (framePrims cfg f).filterMap Prim.sent = (frameBody cfg f).filterMap Prim.sent := by
  cases hm : cfg.csMode with
  | perTransaction => rw [framePrims_transaction _ _ hm]
  | perAccess =>
    rw [framePrims_access _ _ hm, List.filterMap_cons_none rfl, List.filterMap_append]
    exact List.append_nil _

theorem attemptPrims_sent : (attemptPrims cfg off val).filterMap Prim.sent = attemptBytes cfg off val := by
  simp only [attemptPrims, List.filterMap_append, framePrims_sent]
  rfl

/-- A WRREG sends its attempts' bytes and no other (R134). -/
theorem wrregPrims_sent : (wrregPrims cfg x off val n).filterMap Prim.sent = (List.replicate n (attemptBytes cfg off val)).flatten := by
  have hopen : (openPrims cfg x).filterMap Prim.sent = [] := by
    cases x <;> cases hm : cfg.csMode <;> simp [openPrims, Prim.sent, hm]
  have hclose : (closePrims cfg x).filterMap Prim.sent = [] := by
    cases x <;> cases hm : cfg.csMode <;> simp [closePrims, Prim.sent, hm]
  simp [wrregPrims, attemptsPrims, List.filterMap_flatten, attemptPrims_sent, hopen, hclose]

/-- After a transaction's last primitives chip-select and the lock are free, and the foreground's source is unmasked (R194). -/
theorem driveAll_releasePrims (hlen : rxs.length = (releasePrims x).length) (hv : s.driveAll m (releasePrims x) rxs = v) :
    v.lockHeld = false ∧ v.lockOwner = none ∧ v.csAsserted = false ∧ (x = .fg → v.irqMasked = false) := by
  subst hv
  cases x with
  | fg =>
    obtain ⟨a, b, c, rfl⟩ := List.length_eq_three.mp hlen
    exact ⟨rfl, rfl, rfl, fun _ => rfl⟩
  | isr =>
    obtain ⟨a, b, rfl⟩ := List.length_eq_two.mp hlen
    exact ⟨rfl, rfl, rfl, by simp⟩

/-- Once answers have come, driving the engine has left the surroundings as they were. -/
theorem driveAll_keeps (s : State) (q : Byte) : (s.receive q).keeps ((s.driveAll m ps rxs).receive q) where
  irqPending := driveAll_field State.irqPending (fun _ _ => by rw [drive_same]) s
  isrActive := driveAll_field State.isrActive (fun _ _ => by rw [drive_same]) s
  eb := driveAll_field State.eb (fun _ _ => by rw [drive_same]) s
  pb := driveAll_field State.pb (fun _ _ => by rw [drive_same]) s
  cfg := driveAll_cfg
  script := driveAll_field State.script (fun _ _ => by rw [drive_same]) s
  rxIn := rfl
  otherSlot y _ := by rw [State.receive_slot, State.receive_slot, driveAll_slot]

/-- AB and the fault's information are no part of what primitives drive. -/
theorem driveAll_rest (s : State) : (s.driveAll m ps rxs).ab = s.ab ∧ (s.driveAll m ps rxs).abTotals = s.abTotals ∧
    (s.driveAll m ps rxs).faultInfo = s.faultInfo :=
  ⟨driveAll_field State.ab (fun _ _ => by rw [drive_same]) s, driveAll_field State.abTotals (fun _ _ => by rw [drive_same]) s,
    driveAll_field State.faultInfo (fun _ _ => by rw [drive_same]) s⟩

/-- A WRREG's primitives end with chip-select and the lock free, and the foreground's source unmasked (R194). -/
theorem driveAll_wrregPrims_released (hlen : rxs.length = (wrregPrims s.cfg x off val (n + 1)).length)
    (hv : s.driveAll m (wrregPrims s.cfg x off val (n + 1)) rxs = v) :
    v.lockHeld = false ∧ v.lockOwner = none ∧ v.csAsserted = false ∧ (x = .fg → v.irqMasked = false) := by
  obtain ⟨ps, hps⟩ := wrregPrims_tail s.cfg x off val n
  rw [hps] at hlen hv
  obtain ⟨xs, ys, rfl, hxs⟩ : ∃ xs ys, rxs = xs ++ ys ∧ xs.length = ps.length :=
    ⟨_, _, (List.take_append_drop ps.length rxs).symm, by rw [List.length_take, hlen, List.length_append]; omega⟩
  rw [List.length_append, List.length_append, hxs] at hlen
  exact driveAll_releasePrims (Nat.add_left_cancel hlen) ((driveAll_append hxs).symm.trans hv)

/-- What the primitives of a WRREG of `n + 1` attempts and its response leave (R138, R194, R13). -/
theorem wroteRegister_of_driveAll (h : s.ready) (hlen : rxs.length = (wrregPrims s.cfg s.ctx off val (n + 1)).length)
    (hv : s.driveAll m (wrregPrims s.cfg s.ctx off val (n + 1)) rxs = v) (q : Byte) (r : ResponseWord) :
    s.wroteRegister off val (n + 1) r ((v.receive q).emit (.resp s.ctx r)) := by
  obtain ⟨⟨hf, hempty⟩, -, horder⟩ := h
  have hblock (p : Prim) (hp : p ∈ wrregPrims s.cfg s.ctx off val (n + 1)) : InBlock (.wrreg 0 val) s.cfg s.ctx p :=
    inBlock_wrregPrims hp
  have hregister (p : Prim) (hp : p ∈ wrregPrims s.cfg s.ctx off val (n + 1)) :
      (∀ o, p ≠ .order o) ∧ ∀ k, p ≠ .xchg (.payload k) := ⟨(hblock p hp).ne_order rfl, (hblock p hp).ne_payload rfl⟩
  obtain ⟨hheld, howner, hcs, hunmasked⟩ := driveAll_wrregPrims_released hlen hv
  have hsent := driveAll_sentBytes (m := m) horder hlen hregister
  rw [hv, wrregPrims_sent] at hsent
  have hkeeps : (s.receive q).keeps (v.receive q) := hv ▸ driveAll_keeps s q
  have hslot : v.slot s.ctx = s.slot s.ctx := hv ▸ driveAll_slot s.ctx
  have hcache : v.pageCache = s.pageCache := hv ▸ driveAll_pageCache
  have hfault : v.fault = s.fault := hv ▸ driveAll_fault
  obtain ⟨hab, htotals, hinfo⟩ : v.ab = s.ab ∧ v.abTotals = s.abTotals ∧ v.faultInfo = s.faultInfo := hv ▸ driveAll_rest s
  have hmsb : v.bitOrder = s.bitOrder :=
    hv ▸ driveAll_field_of_mem State.bitOrder (fun _ p _ hp => drive_bitOrder (hregister p hp).1) s
  have hdraws : v.draws = s.draws := hv ▸ driveAll_field_of_mem State.draws (fun _ p _ hp => drive_draws (hregister p hp).2) s
  have hmask (hx : s.ctx = .isr) : v.irqMasked = s.irqMasked :=
    hv ▸ driveAll_field_of_mem State.irqMasked (fun _ p _ hp => drive_irqMasked (hx ▸ hblock p hp).ne_mask) s
  exact {
    keeps := hkeeps.trans (by constructor <;> simp)
    slot := hslot.trans hempty
    pageCache := hcache
    lock := ⟨hheld, howner⟩
    irqMasked := by
      cases hx : s.ctx with
      | fg => exact hunmasked hx
      | isr => exact hmask hx
    csAsserted := hcs
    bitOrder := hmsb.trans horder
    fault := hfault.trans hf
    rest := ⟨hab, htotals, hdraws, hinfo⟩
    responds := by simp
    sent := (sentBytes_append _ _).trans ((List.append_nil _).trans hsent) }

/-! ## The run, from acceptance to response -/

theorem exec_wrreg_accepted (h : s.idle) (ha : writeTargetFault s.cfg addr = none) :
    exec (.wrreg addr val) s = .next (s.putSlot s.ctx (some (freshCommand (encode (.wrreg addr val))))) :=
  legalCommandIsAccepted s (.wrreg addr val) h rfl (by rw [Instr.wellFormed, operandFault, ha]; rfl) (by simp)

/-- The answers to a WRREG of `n` attempts are acceptance's, the opening's, the attempts', the closing's and the response's. -/
theorem exists_wrregAnswers (hlen : rxs.length = wrregSteps s n) : ∃ (q : Byte) (xs ys zs : List Byte) (q' : Byte),
    rxs = q :: (xs ++ ys ++ zs ++ [q']) ∧ xs.length = (openPrims s.cfg s.ctx).length ∧
      ys.length = 3 * frameSteps s.cfg * n ∧ zs.length = (closePrims s.cfg s.ctx).length := by
  rw [wrregSteps, openEvents_length, closeEvents_length] at hlen
  obtain ⟨q, rest, rfl⟩ := List.exists_cons_of_length_pos (l := rxs) (by omega)
  obtain ⟨rest, q', rfl⟩ : ∃ rest' q', rest = rest' ++ [q'] :=
    (List.eq_nil_or_concat' rest).resolve_left (by rintro rfl; simp at hlen)
  obtain ⟨xs, ys, zs, rfl, hxs, hys, hzs⟩ := exists_append_of_length (rxs := rest) (m := (openPrims s.cfg s.ctx).length)
    (n := 3 * frameSteps s.cfg * n) (k := (closePrims s.cfg s.ctx).length) (by simp at hlen; omega)
  exact ⟨q, xs, ys, zs, q', rfl, hxs, hys, hzs⟩

/-- A WRREG that needs no page switch, whose attempts before number `n` fail and for which that attempt verifies or is the last allowed,
makes `n + 1` attempts and responds by the last (R134, R138). -/
theorem execRun_wrreg (h : s.ready) (ha : writeTargetFault s.cfg addr = none)
    (hpage : mirrored addr = true ∨ s.pageCache = .page (pageOf addr)) (hlen : rxs.length = wrregSteps s (n + 1))
    (hbound : n ≤ s.cfg.retryBound)
    (hfailed : ∀ k, k < n → ¬(shadowAnswer s rxs k 1 = offsetOf addr ∧ shadowAnswer s rxs k 2 = val))
    (hlast : (shadowAnswer s rxs n 1 = offsetOf addr ∧ shadowAnswer s rxs n 2 = val) ∨ s.cfg.retryBound ≤ n) :
    ∃ t, execRun (.wrreg addr val) rxs s = .next t ∧ s.wroteRegister (offsetOf addr) val (n + 1)
      (if shadowAnswer s rxs n 1 = offsetOf addr ∧ shadowAnswer s rxs n 2 = val then 0 else 1) t := by
  obtain ⟨q, xs, ys, zs, q', rfl, hxs, hys, hzs⟩ := exists_wrregAnswers hlen
  have hanswer {k j : Nat} (hk : k < n + 1) (hj : j ≤ 2) :
      shadowAnswer s (q :: (xs ++ ys ++ zs ++ [q'])) k j = attemptAnswer s.cfg ys k j := by
    rw [List.append_assoc, List.append_assoc, shadowAnswer_eq hxs, attemptAnswer_append_left hys hk hj]
  rw [hanswer (by omega) (by omega), hanswer (by omega) (by omega)] at hlast ⊢
  have hidle : (s.receive q).idle := ⟨h.1.1, (s.receive_slot _ q).trans h.1.2⟩
  obtain ⟨d, reached, hd, hc, hok⟩ := reaches_wrregClosed (addr := addr) (val := val)
    (s := (s.receive q).putSlot s.ctx (some (freshCommand (encode (.wrreg addr val)))))
    (c := freshCommand (encode (.wrreg addr val))) (n := n) (rxs := xs) (xs := ys) (ys := zs)
    ⟨by simpa using h.1.1, by simp, rfl⟩ rfl rfl (by simpa using h.2.1) (by simpa using hpage) (by simpa using hxs) (by simpa using hys)
    (by simpa using hzs) (by simpa using hbound)
    (fun k hk => by
      have := hfailed k hk
      rw [hanswer (by omega) (by omega), hanswer (by omega) (by omega)] at this
      simpa using this)
    (by simpa using hlast)
  simp only [State.putSlot_cfg, State.putSlot_ctx, State.receive_cfg, State.receive_ctx] at reached hok
  have hresponse : ∀ u, proceed (.wrreg addr val) d u = respond
      (if attemptAnswer s.cfg ys n 1 = offsetOf addr ∧ attemptAnswer s.cfg ys n 2 = val then 0 else 1) u := by
    intro u
    simp only [proceed, proceedWrreg, hd, statusResponse_success, hok, decide_eq_true_iff]
  refine ⟨_, reached.respond_accepted h.1.2 (exec_wrreg_accepted hidle ha) rfl hc (by simp [wrregPrims, openPrims]) hresponse q', ?_⟩
  exact wroteRegister_of_driveAll h reached.answers rfl q' _

end

/-- Settles O50: the first attempt is the last. -/
theorem wrregFirstAttemptRun : Obligations.WrregFirstAttemptRun := by
  unfold Obligations.WrregFirstAttemptRun
  intro s addr val rxs h ha hpage hlen haddr hval
  obtain ⟨t, hrun, hwrote⟩ := execRun_wrreg (n := 0) h ha hpage hlen (Nat.zero_le _) (by simp) (.inl ⟨haddr, hval⟩)
  rw [if_pos ⟨haddr, hval⟩] at hwrote
  exact ⟨t, hrun, hwrote⟩

/-- Settles O51: every attempt fails, and the last is the one that the bound allows. -/
theorem wrregNeverVerifiedRun : Obligations.WrregNeverVerifiedRun := by
  unfold Obligations.WrregNeverVerifiedRun
  intro s addr val rxs h ha hpage hlen hfailed
  rw [Nat.add_comm] at hlen ⊢
  obtain ⟨t, hrun, hwrote⟩ := execRun_wrreg h ha hpage hlen le_rfl (fun k hk => hfailed k hk.le) (.inr le_rfl)
  rw [if_neg (hfailed _ le_rfl)] at hwrote
  exact ⟨t, hrun, hwrote⟩

end Sys2Proof.Machine
end

section
/-! PROOFS. The FIFO codec: the end of a FIFO_READ frame, and FIFOWR and FIFORD from acceptance to response (R161-R167). -/

namespace Sys2Proof.Machine

/-! ## The end of a FIFO_READ frame (R167, R216) -/

section
variable {s : State} {c : InFlight} {i : Instr}

/-- A count is refused where bit 7 is clear and the low six bits exceed a word's 32 (R167). -/
theorem decodeStatus_badCount_iff {w : BitVec 32} {b : Byte} :
    decodeStatus w b = .badCount ↔ b.toNat < 128 ∧ 32 < b.toNat % 64 := by
  by_cases hover : 128 ≤ b.toNat
  · simp [decodeStatus_overflow hover, hover]
  · by_cases hcount : b.toNat % 64 ≤ 32
    · simp [decodeStatus_frame (Nat.lt_of_not_le hover) hcount, hcount]
    · have hbit : ¬b.getLsbD 7 = true := by rwa [getLsbD_seven_iff]
      rw [decodeStatus, if_neg hbit, validCount_eq, if_pos (Nat.lt_of_not_le hcount)]
      exact iff_of_true rfl ⟨Nat.lt_of_not_le hover, Nat.lt_of_not_le hcount⟩

theorem closeFifoRead_refuses (h : frameAnswer c = .badCount) :
    closeFifoRead c s = .next (raiseFault .fifoCountRange ⟨c.word, s.ctx, none, some (frameStatus c)⟩ s) := by
  rw [closeFifoRead, h]

theorem closeFifoRead_closes (h : frameAnswer c ≠ .badCount) : closeFifoRead c s = closeTransaction true c s := by
  unfold closeFifoRead
  split
  next hbad => exact absurd hbad h
  next => rfl
  next => rfl

/-- FIFORD and FIFORDALL go on alike after their FIFO_READ frame (R166, R169). -/
theorem exec_fifoRead_end (hi : i = .fiford ∨ ∃ maxBits, i = .fifordall maxBits) (hr : s.runs i c)
    (hp : c.point = .frame .fifoRead .fifo) (hc : c.todo = []) : exec i s = closeFifoRead c s := by
  rcases hi with rfl | ⟨maxBits, rfl⟩
  · simp only [exec_fiford_end hr hc, proceedFiford, hp]
  · simp only [exec_fifordall_end hr hc, proceedFifordall, hp]

end

/-- Settles O47: the status byte decides whether the frame's end raises the fault or begins the transaction's end. -/
theorem fifoCountAboveWordHalts : Obligations.FifoCountAboveWordHalts := by
  unfold Obligations.FifoCountAboveWordHalts
  intro s c i a r0 r1 r2 r3 st hi hr hp hc hrx
  have hstatus : frameStatus c = st := by rw [frameStatus, hrx]; rfl
  rw [← decodeStatus_badCount_iff (w := r3 ++ r2 ++ r1 ++ r0), ← frameAnswer_eq hrx, exec_fifoRead_end hi hr hp hc]
  constructor
  · intro hbad
    rw [closeFifoRead_refuses hbad, hstatus]
    rfl
  · intro hlegal
    obtain ⟨t, rest, ht, hslot, -⟩ := closeTransaction_keeps true c s
    obtain ⟨t', -, ht', -, -, hfault, hab, htotals, -⟩ := closeTransaction_next true c s
    cases ht.symm.trans ht'
    rw [closeFifoRead_closes hlegal]
    exact ⟨t, _, ht, hslot, rfl, rfl, ⟨rfl, rfl, rfl, rfl, rfl⟩, hfault.trans hr.1, hab, htotals⟩

/-! ## A transaction of one frame (R194, R195) -/

/-- The primitives with which a transaction of one frame takes the source in the foreground, the lock and chip-select (R194, R195). -/
def acquirePrims (x : Ctx) : List Prim := (if x = .fg then [Prim.mask] else []) ++ [Prim.lockAcq, Prim.csAssert]

/-- The primitives around the frame of a transaction: those that take, and those that give up. -/
def bracketPrims (x : Ctx) (take : Bool) : List Prim := if take then acquirePrims x else releasePrims x

/-- The events of primitives that are no exchanges (R117). -/
def controlEvents (x : Ctx) (ps : List Prim) : List Event := ps.map (Prim.event x 0 0 .msb)

/-- The engine without what the primitives between FrameOpen and FrameClose drive. -/
def State.offFrame (s : State) : State := { s with bitOrder := .msb, history := [], draws := 0, rxIn := 0 }

section
variable {s v : State} {m : Bool} {cfg : Config} {x : Ctx} {f : Frame} {p rxs p' : List Byte} {es : List Event}

theorem transactionPrims_split (cfg : Config) (x : Ctx) (f : Frame) :
    transactionPrims cfg x f = acquirePrims x ++ frameBody cfg f ++ releasePrims x := by
  simp [transactionPrims_eq, acquirePrims, releasePrims]

/-- Whether a transaction of one frame asserts chip-select for itself or the frame does, it is the same events (R194, R195). -/
theorem transactionEvents_split (cfg : Config) (x : Ctx) (es : List Event) :
    openEvents cfg x ++ frameEvents cfg x es ++ closeEvents cfg x =
      controlEvents x (acquirePrims x) ++ es ++ controlEvents x (releasePrims x) := by
  unfold openEvents frameEvents closeEvents controlEvents acquirePrims releasePrims
  cases x <;> cases cfg.csMode <;> simp [Prim.event]

theorem acquirePrims_length (cfg : Config) (x : Ctx) : (acquirePrims x).length = (openEvents cfg x).length + csSteps cfg := by
  unfold acquirePrims openEvents csSteps
  cases x <;> cases cfg.csMode <;> rfl

theorem releasePrims_length (cfg : Config) (x : Ctx) : (releasePrims x).length = csSteps cfg + (closeEvents cfg x).length := by
  unfold releasePrims closeEvents csSteps
  cases x <;> cases cfg.csMode <;> rfl

/-- The answers around a frame's are acceptance's and the acquisition's before it, the release's and the response's after it. -/
theorem exists_transactionAnswers (hp : p.length = 1 + (openEvents cfg x).length + csSteps cfg)
    (hp' : p'.length = csSteps cfg + (closeEvents cfg x).length + 1) : ∃ (q : Byte) (xs ys : List Byte) (q' : Byte),
    p = q :: xs ∧ p' = ys ++ [q'] ∧ xs.length = (acquirePrims x).length ∧ ys.length = (releasePrims x).length := by
  rw [Nat.add_assoc, ← acquirePrims_length, Nat.add_comm] at hp
  rw [← releasePrims_length] at hp'
  obtain ⟨q, xs, rfl⟩ := List.exists_cons_of_length_eq_add_one hp
  obtain ⟨ys, q', rfl⟩ := (List.eq_nil_or_concat' p').resolve_left (by rintro rfl; cases hp')
  exact ⟨q, xs, ys, q', rfl, rfl, Nat.succ_inj.mp hp, by simpa using hp'⟩

/-- Only the frame's exchanges hand answers to the command. -/
theorem answers_transactionPrims (hp : p.length = (acquirePrims x).length) (hlen : rxs.length = (frameBody cfg f).length) :
    answers (transactionPrims cfg x f) (p ++ rxs ++ p') = answers (frameBody cfg f) rxs := by
  rw [transactionPrims_split, answers_append (by simp [hp, hlen]), answers_append hp, answers_eq_nil (by simp [acquirePrims]),
    answers_eq_nil (ps := releasePrims x) (by simp [releasePrims]), List.nil_append, List.append_nil]

/-- The primitives around a frame take mask, lock and chip-select, or give them up, and tell the history (R113, R115, R192, R193). -/
theorem driveAll_bracketPrims (take : Bool) (hlen : p.length = (bracketPrims s.ctx take).length) :
    s.driveAll m (bracketPrims s.ctx take) p = { s with
      irqMasked := if s.ctx = .fg then take else s.irqMasked, lockHeld := take, lockOwner := if take then some s.ctx else none,
      csAsserted := take, rxIn := p.getLastD 0, history := s.history ++ controlEvents s.ctx (bracketPrims s.ctx take) } := by
  cases ha : s.isrActive with
  | false =>
    rw [s.ctx_of_idle ha] at hlen ⊢
    obtain ⟨a, b, c, rfl⟩ := List.length_eq_three.mp (hlen.trans (by cases take <;> rfl))
    cases take <;> simp [bracketPrims, acquirePrims, releasePrims, State.driveAll, State.drive, controlEvents, Prim.event, State.emit,
      State.receive, State.setMask, State.setLock, State.setCs, State.ctx, ha]
  | true =>
    rw [s.ctx_of_active ha] at hlen ⊢
    obtain ⟨a, b, rfl⟩ := List.length_eq_two.mp (hlen.trans (by cases take <;> rfl))
    cases take <;> simp [bracketPrims, acquirePrims, releasePrims, State.driveAll, State.drive, controlEvents, Prim.event, State.emit,
      State.receive, State.setLock, State.setCs, State.ctx, ha]

/-- Between FrameOpen and FrameClose only the bit order, the history and the model's own fields change (R88-R90). -/
theorem driveAll_frameBody (hv : s.driveAll m (frameBody cfg f) rxs = v) :
    v = { s with bitOrder := v.bitOrder, history := v.history, draws := v.draws, rxIn := v.rxIn } := by
  have hsame : v.offFrame = s.offFrame := by
    rw [← hv]
    refine driveAll_field_of_mem State.offFrame (fun u q rx hq => ?_) s
    rcases mem_frameBody hq with ⟨o, rfl⟩ | ⟨src, rfl⟩
    · rfl
    · cases src <;> rfl
  calc v
    _ = { v.offFrame with bitOrder := v.bitOrder, history := v.history, draws := v.draws, rxIn := v.rxIn } := rfl
    _ = _ := by rw [hsame]; rfl

/-- What a transaction of one frame leaves, when the frame draws no free value and restores the bit order (R194, R195). -/
theorem driveAll_transaction (hlock : s.lockHeld = false) (hp : p.length = (acquirePrims s.ctx).length)
    (hp' : p'.length = (releasePrims s.ctx).length) (hlen : rxs.length = (frameBody s.cfg f).length)
    (hbody : ∀ u : State, u.ctx = s.ctx → u.bitOrder = s.bitOrder → u.draws = s.draws → u.pb = s.pb →
      ∃ v, u.driveAll m (frameBody s.cfg f) rxs = v ∧ v.history = u.history ++ es ∧ v.bitOrder = s.bitOrder ∧ v.draws = s.draws)
    (q : Byte) : (s.driveAll m (transactionPrims s.cfg s.ctx f) (p ++ rxs ++ p')).receive q = { s with
      irqMasked := if s.ctx = .fg then false else s.irqMasked, lockOwner := none, csAsserted := false, rxIn := q,
      history := s.history ++ (openEvents s.cfg s.ctx ++ frameEvents s.cfg s.ctx es ++ closeEvents s.cfg s.ctx) } := by
  have hacquire : s.driveAll m (acquirePrims s.ctx) p = _ := driveAll_bracketPrims true hp
  obtain ⟨v, hv, hhistory, horder, hdraws⟩ := hbody (s.driveAll m (acquirePrims s.ctx) p) driveAll_ctx
    (by rw [hacquire]) (by rw [hacquire]) (by rw [hacquire])
  have hsame := driveAll_frameBody hv
  have hx : v.ctx = s.ctx := by rw [← hv, driveAll_ctx, driveAll_ctx]
  have hrelease : v.driveAll m (releasePrims v.ctx) p' = _ := driveAll_bracketPrims false (hx ▸ hp')
  rw [hacquire] at hsame hhistory
  rw [transactionPrims_split, driveAll_append (by simp [hp, hlen]), driveAll_append hp, hv, ← hx, hrelease, hhistory, hx,
    transactionEvents_split, hsame, horder, hdraws]
  cases hc : s.ctx <;> simp [State.receive, bracketPrims, hlock]

end

/-! ## FIFOWR and FIFORD, from acceptance to response (R162, R166) -/

section
variable {s : State} {c : InFlight} {i : Instr} {f : Frame} {p rxs p' : List Byte} {es : List Event} {r : ResponseWord}

/-- A FIFO command with legal operands that makes one transaction of its frame and then responds, in either context and either
chip-select mode. -/
theorem execRun_fifoTransaction (h : s.ready) (hi : i = .fiford ∨ ∃ nbits, i = .fifowr nbits) (hf : fifoFrame i = some f)
    (hwf : i.wellFormed s.cfg = true)
    (hp : p.length = 1 + (openEvents s.cfg s.ctx).length + csSteps s.cfg)
    (hp' : p'.length = csSteps s.cfg + (closeEvents s.cfg s.ctx).length + 1) (hlen : rxs.length = (frameBody s.cfg f).length)
    (hbody : ∀ u : State, u.ctx = s.ctx → u.bitOrder = .msb → u.pb = s.pb → ∃ v, u.driveAll false (frameBody s.cfg f) rxs = v ∧
      v.history = u.history ++ es ∧ v.bitOrder = .msb ∧ v.draws = u.draws)
    (hclose : ∀ u d, d.point = .frame f .fifo → d.rx = answers (frameBody s.cfg f) rxs → proceed i d u = closeTransaction true d u)
    (hrespond : ∀ u d, d.point = .closed → d.rx = answers (frameBody s.cfg f) rxs → proceed i d u = respond r u) :
    execRun i (p ++ rxs ++ p') s = .next { s with
      irqMasked := if s.ctx = .fg then false else s.irqMasked, lockOwner := none, csAsserted := false, rxIn := p'.getLastD 0,
      history := s.history ++ openEvents s.cfg s.ctx ++ frameEvents s.cfg s.ctx es ++ closeEvents s.cfg s.ctx ++
        [.resp s.ctx r] } := by
  obtain ⟨hidle, hlock, horder⟩ := h
  obtain ⟨q, xs, ys, q', rfl, rfl, hxs, hys⟩ := exists_transactionAnswers hp hp'
  have hanswers := answers_transactionPrims (cfg := s.cfg) (x := s.ctx) (f := f) (p' := ys) hxs hlen
  have haccept (u : State) (hu : u.idle) (hcfg : u.cfg = s.cfg) :
      exec i u = .next (u.putSlot u.ctx (some (freshCommand (encode i)))) :=
    legalCommandIsAccepted u i hu (by rcases hi with rfl | ⟨nbits, rfl⟩ <;> rfl) (hcfg ▸ hwf)
      (by rcases hi with rfl | ⟨nbits, rfl⟩ <;> simp)
  have hopen (u : State) : proceed i (freshCommand (encode i)) u = openTransaction (freshCommand (encode i)) u := by
    rcases hi with rfl | ⟨nbits, rfl⟩ <;> rfl
  have hframe (u : State) (d : InFlight) (hd : d.point = .opened) : proceed i d u = startFrame f .fifo d u := by
    rcases hi with rfl | ⟨nbits, rfl⟩ <;> cases hf <;> simp only [proceed, proceedFiford, proceedFifowr, hd]
  have hrun := execRun_oneFrame (rxs := xs ++ rxs ++ ys) q q' (by rcases hi with rfl | ⟨nbits, rfl⟩ <;> rfl) hidle hlock haccept hopen
    (fun u d hd _ => hframe u d hd) (fun u d hd ha => hclose u d hd (ha.trans hanswers))
    (fun u d hd _ ha => hrespond u d hd (ha.trans hanswers)) rfl (by simp [transactionPrims_split, hxs, hys, hlen])
  rw [driveAll_transaction hlock hxs hys hlen (fun u hx ho hd hpb => by
    have hu := hbody u hx (ho.trans horder) hpb
    rwa [hd, ← horder] at hu) q'] at hrun
  simpa [State.emit] using hrun

/-- A FIFO_WRITE frame for a client that left PB alone: its command byte, its length byte, and PB's bytes LSB-first (R89, R161). -/
theorem driveAll_writeBody (cfg : Config) {len : Byte} (hlen : rxs.length = 4 + payloadCount len) (horder : s.bitOrder = .msb) :
    ∃ v, s.driveAll false (frameBody cfg (.fifoWrite len)) rxs = v ∧ v.history = s.history ++
      ([.xchg cfg.cmdFifoWrite (rxs.getD 0 0) .msb s.ctx, .xchg len (rxs.getD 1 0) .msb s.ctx, .order .lsb s.ctx] ++
        (List.range (payloadCount len)).map (fun k => .xchg (readPayload s k) (rxs.getD (3 + k) 0) .lsb s.ctx) ++ [.order .msb s.ctx]) ∧
      v.bitOrder = .msb ∧ v.draws = s.draws := by
  obtain ⟨xs, ps, ys, rfl, hxs, hps, hys⟩ := exists_append_of_length (rxs := rxs) (m := 3) (n := payloadCount len) (k := 1) (by omega)
  obtain ⟨a, b, x, rfl⟩ := List.length_eq_three.mp hxs
  obtain ⟨y, rfl⟩ := List.length_eq_one_iff.mp hys
  obtain ⟨v, hv, hhistory, ho, hdraws⟩ := driveAll_fifoWrite (m := false) cfg len a b x y hps horder
  have payload : (List.range (payloadCount len)).map (fun k => Event.xchg (sentPayload s false k) (ps.getD k 0) .lsb s.ctx) =
      (List.range (payloadCount len)).map (fun k => .xchg (readPayload s k) (([a, b, x] ++ ps ++ [y]).getD (3 + k) 0) .lsb s.ctx) := by
    refine List.map_congr_left fun k hk => ?_
    have hanswer : ([a, b, x] ++ ps ++ [y]).getD (3 + k) 0 = ps.getD k 0 := by
      rw [Nat.add_comm]; exact List.getD_append ps [y] 0 k (by rw [hps]; exact List.mem_range.mp hk)
    rw [hanswer]
    rfl
  exact ⟨v, hv, by rw [hhistory, payload]; rfl, ho, hdraws⟩

/-- FIFORD responds with the frame's word and count, or, bit 7 first, with OVERFLOW alone (R166, R167). -/
theorem finishFiford_responds {a r0 r1 r2 r3 st : Byte} (hrx : c.rx = [a, r0, r1, r2, r3, st])
    (hlegal : 128 ≤ st.toNat ∨ st.toNat % 64 ≤ 32) : finishFiford c s = respond
      (if 128 ≤ st.toNat then 2 else r3 ++ r2 ++ r1 ++ r0 ++ 0#10 ++ st.extractLsb' 0 6 ++ 0x0000#16) s := by
  rw [finishFiford, frameAnswer_eq hrx]
  by_cases hover : 128 ≤ st.toNat
  · rw [decodeStatus_overflow hover, if_pos hover]
    rfl
  · rw [decodeStatus_frame (Nat.lt_of_not_le hover) (hlegal.resolve_left hover), if_neg hover]
    exact congrArg (respond · s) (frameResponse_ok _ st)

end

/-! ## The step that begins a block -/

section
variable {s : State} {c d : InFlight} {i : Instr}

/-- A command at the end of a block begins any block but an opening without a fault, whatever the transport answers (log 5). -/
theorem begins_block (q : Byte) (hi : i.isCommand = true) (hr : s.runs i c) (hc : c.todo = [])
    (hproceed : proceed i c (s.receive q) = performNext d (s.receive q)) (htodo : d.todo = blockPrims s.cfg s.ctx d.point)
    (hne : d.todo ≠ []) (hopen : d.point ≠ .opened) (hk : c.keepsTask d) :
    ∃ t e, s.begins i c q t e ∧ c.keepsTask e ∧ e.point = d.point := by
  obtain ⟨p, rest, hp⟩ := List.exists_cons_of_ne_nil hne
  have hlock : p ≠ .lockAcq := by
    rintro rfl
    exact hopen (lockAcq_mem_block (htodo ▸ hp ▸ List.mem_cons_self))
  obtain ⟨t, ht, hperf⟩ := perform_performs hlock { d with todo := rest } (s.receive q)
  obtain ⟨rx, hslot, -⟩ := hperf.slot
  have hexec : exec i (s.receive q) = .next t :=
    calc exec i (s.receive q)
      _ = performNext d (s.receive q) := (exec_receive_end hi hr hc q).trans hproceed
      _ = .next t := (performNext_cons _ _ p rest hp).trans ht
  exact ⟨t, _, ⟨hi, hr, hc, hexec, hperf.fault.trans hr.1, hslot⟩, ⟨hk.word, hk.index, hk.cur, hk.total, hk.tainted⟩, rfl⟩

/-- At the end of an opening a command begins its frame. -/
theorem begins_startFrame {f : Frame} {role : Role} (q : Byte) (hi : i.isCommand = true) (hr : s.runs i c) (hc : c.todo = [])
    (hproceed : proceed i c (s.receive q) = startFrame f role c (s.receive q)) :
    ∃ t e, s.begins i c q t e ∧ c.keepsTask e ∧ e.point = .frame f role :=
  begins_block (d := c.atFrame s.cfg f role) q hi hr hc (hproceed.trans (startFrame_eq _ _ _ _)) rfl
    (framePrims_ne_nil _ _) (by simp [InFlight.atFrame]) c.keepsTask_atFrame

/-- At the end of its frame a command begins its transaction's end. -/
theorem begins_closeTransaction (q : Byte) (hi : i.isCommand = true) (hr : s.runs i c) (hc : c.todo = [])
    (hproceed : proceed i c (s.receive q) = closeTransaction true c (s.receive q)) :
    ∃ t e, s.begins i c q t e ∧ c.keepsTask e ∧ e.point = .closed :=
  begins_block (d := { c with point := .closed, todo := closePrims s.cfg s.ctx, ok := true }) q hi hr hc hproceed rfl
    (closePrims_ne_nil _ _) (by simp) ⟨rfl, rfl, rfl, rfl, rfl⟩

end

/-- Settles O52: the transaction sends PB's bytes, and each end of a block begins the next, PB changed or not. -/
theorem fifowrRun : Obligations.FifowrRun := by
  unfold Obligations.FifowrRun
  intro s nbits hpos hmax
  refine ⟨fun p rxs p' hready hp hrxs hp' => ?_, fun c q hr hc => ⟨fun hpoint => ?_, fun f hpoint => ?_⟩⟩
  · have hcount : payloadCount (lengthByte nbits) = (nbits.toNat + 7) / 8 := by
      rw [payloadCount_eq, lengthByte, BitVec.toNat_ofNat, Nat.mod_eq_of_lt (by omega)]; omega
    rw [← hcount] at hrxs ⊢
    refine execRun_fifoTransaction hready (.inr ⟨nbits, rfl⟩) rfl ?_ hp hp' ?_ (fun u hx ho hpb => ?_) (fun u d hd _ => ?_)
      (fun u d hd _ => ?_)
    · simp [Instr.wellFormed, operandFault, hpos, hmax]
    · simp [frameBody, hrxs]; omega
    · have hu := driveAll_writeBody s.cfg hrxs ho
      simp only [hx, readPayload, hpb] at hu ⊢
      exact hu
    · simp only [proceed, proceedFifowr, hd]
    · simp only [proceed, proceedFifowr, hd]
      rfl
  · exact begins_startFrame q rfl hr hc (by simp only [proceed, proceedFifowr, hpoint]; rfl)
  · exact begins_closeTransaction q rfl hr hc (by simp only [proceed, proceedFifowr, hpoint])

/-- Settles O53: the frame's answers are the word and the status byte that the response carries. -/
theorem fifordRun : Obligations.FifordRun := by
  unfold Obligations.FifordRun
  intro s
  refine ⟨fun a x r0 r1 r2 r3 y st p p' hready hp hp' hlegal => ?_, fun i c q hi hr hc hpoint => ?_⟩
  · refine execRun_fifoTransaction hready (.inl rfl) rfl rfl hp hp' rfl (fun u hx ho _ => ?_) (fun u d hd hrx => ?_)
      (fun u d hd hrx => ?_)
    · rw [← hx]
      exact driveAll_fifoRead s.cfg a r0 r1 r2 r3 st x y ho
    · have hfine : frameAnswer d ≠ .badCount := by
        rw [frameAnswer_eq hrx, Ne, decodeStatus_badCount_iff]; omega
      simp only [proceed, proceedFiford, hd, closeFifoRead_closes hfine]
    · simp only [proceed, proceedFiford, hd]
      exact finishFiford_responds hrx hlegal
  · rcases hi with rfl | ⟨maxBits, rfl⟩
    · exact begins_startFrame q rfl hr hc (by simp only [proceed, proceedFiford, hpoint])
    · exact begins_startFrame q rfl hr hc (by simp only [proceed, proceedFifordall, hpoint])

end Sys2Proof.Machine
end

section
/-! PROOFS. The moves that a context or the handler makes, and re-entrant acquisitions (R190, R192, R197, R199-R201, R204). -/

namespace Sys2Proof.Machine

section
variable {s t : State} {i : Instr} {c d : InFlight} {x : Ctx} {w : CommandWord} {moves : List Move}

/-! ## Issuing a command (R190, R215) -/

theorem issue_legal (hmay : s.mayStep x = true) (hs : s.slot x = none) (hw : decode w = .ok i) : issue x w s = exec i s := by
  simp only [issue, hmay, if_true, hs, hw]

theorem issue_occupied (hmay : s.mayStep x = true) (hs : s.slot x = some c) : issue x w s = reentry w s := by
  simp only [issue, hmay, if_true, hs]

/-- The running context of an engine that has not halted may make its move, whatever moves are to come. -/
theorem mayStep_setScript (hf : s.fault = .noFault) : (s.setScript moves).mayStep s.ctx = true :=
  State.mayStep_iff.mpr ⟨hf, rfl⟩

/-! ## The interrupt context's entry and exit (R199, R200) -/

theorem State.mayEnter_iff : s.mayEnter = true ↔
    s.irqPending = true ∧ s.irqMasked = false ∧ s.isrActive = false ∧ s.fault = .noFault := by
  simp [State.mayEnter, and_assoc]

theorem State.mayExit_iff : s.mayExit = true ↔ s.isrActive = true ∧ s.isrSlot = none ∧ s.fault = .noFault := by
  simp [State.mayExit, and_assoc]

/-- While the foreground holds the lock its source is masked, so the interrupt context stays out (R66, R199). -/
theorem State.Inv.not_mayEnter (h : s.Inv) (hs : s.fgSlot = some c) (hl : c.holdsLock = true) : ¬ s.mayEnter = true := by
  intro hmay
  obtain ⟨-, hunmasked, -⟩ := State.mayEnter_iff.mp hmay
  obtain ⟨hmasked, -⟩ := h.fgMasks c hs (holdsMask_of_holdsLock (h.fgLegal c hs) hl)
  exact absurd (hmasked.symm.trans hunmasked) (by simp)

theorem step_isrEnter (hwf : s.cfg.wf = true) (h : s.script = .isrEnter :: moves) : step s = .next (if s.mayEnter then
    { s with script := moves, isrActive := true, irqPending := false, history := s.history ++ [.isrEnter] }
    else s.setScript moves) := by
  rw [step_of_script hwf h]; rfl

theorem step_isrExit (hwf : s.cfg.wf = true) (h : s.script = .isrExit :: moves) : step s = .next (if s.mayExit then
    { s with script := moves, isrActive := false, history := s.history ++ [.isrExit] } else s.setScript moves) := by
  rw [step_of_script hwf h]; rfl

/-! ## Re-entrant acquisitions (R192, R197, R204) -/

/-- The outcome is LOCK_REENTRY recorded in state `u` for word `w`, or, without the re-entrancy check, the run's refusal. -/
theorem reentry_outcome (w : CommandWord) (u : State) :
    (u.cfg.debugLockCheck = true → reentry w u = .next (u.raised .lockReentry ⟨w, u.ctx, none, none⟩)) ∧
      (u.cfg.debugLockCheck = false → reentry w u = .refused .refusedReentry) :=
  ⟨reentry_checked u w, reentry_unchecked u w⟩

/-- At acceptance every command but PGINV begins its transaction, FIFORDALL with nothing accumulated (R169, R194). -/
theorem proceed_accepted (hi : i.isCommand = true) (hne : i ≠ .pginv) (hp : c.point = .accepted) :
    ∃ n, (∀ u, proceed i c u = openTransaction { c with total := n } u) ∧ ∀ maxBits, i = .fifordall maxBits → n = 0 := by
  cases i with
  | fifordall maxBits => exact ⟨0, fun u => by simp only [proceed, proceedFifordall, hp], fun _ _ => rfl⟩
  | pginv => exact absurd rfl hne
  | rdreg _ | wrreg _ _ | wrbulk _ | fifowr _ | fiford =>
    refine ⟨c.total, fun u => ?_, by simp⟩
    simp only [proceed, proceedRdreg, proceedWrreg, proceedWrbulk, proceedFifowr, proceedFiford, hp]
    rfl
  | _ => cases hi

/-- The interrupt context's transaction begins with its LOCK_ACQ, since it masks nothing (R196). -/
theorem openTransaction_isr_held (hx : s.ctx = .isr) (hheld : s.lockHeld = true) : openTransaction c s = reentry c.word s := by
  rw [openTransaction, performNext_cons _ _ .lockAcq _ (by rw [hx]; rfl), perform_lockAcq_held _ _ hheld]

/-- A command's LOCK_ACQ that finds the flag set, inside its opening or as the first step of an interrupt-context one, is re-entrant. -/
theorem exec_lockAcq_held (hi : i.isCommand = true) (hr : s.runs i c) (hheld : s.lockHeld = true)
    (h : (∃ rest, c.todo = .lockAcq :: rest) ∨ (s.ctx = .isr ∧ i ≠ .pginv ∧ c.point = .accepted ∧ c.todo = [])) :
    exec i s = reentry c.word s := by
  rcases h with ⟨rest, hc⟩ | ⟨hx, hne, hp, hc⟩
  · rw [exec_block ⟨hr.1, hr.2.1, .inl ⟨hi, hr.2.2⟩⟩ hc, perform_lockAcq_held _ _ hheld]
  · obtain ⟨n, hproceed, -⟩ := proceed_accepted hi hne hp
    rw [exec_end hi hr hc, hproceed, openTransaction_isr_held hx hheld]

end

/-- Settles O17: the word decodes, so issuing it executes its command. -/
theorem issuedWordRunsItsCommand : Obligations.IssuedWordRunsItsCommand := by
  unfold Obligations.IssuedWordRunsItsCommand
  intro s w i moves hwf hscript hf hs hw
  rw [step_of_script hwf hscript]
  exact issue_legal (mayStep_setScript hf) ((s.setScript_slot _ _).trans hs) hw

/-- Settles O21: the enabling clauses are `mayEnter`, and a foreground transaction keeps the source masked. -/
theorem interruptEntry : Obligations.InterruptEntry := by
  unfold Obligations.InterruptEntry
  intro s moves hwf hscript
  rw [step_isrEnter hwf hscript, ← State.mayEnter_iff]
  exact ⟨fun h => by rw [if_pos h], fun h => by rw [if_neg h], fun hinv c hs hl => by rw [if_neg (hinv.not_mayEnter hs hl)]⟩

/-- Settles O22: the enabling clauses are `mayExit`. -/
theorem interruptExit : Obligations.InterruptExit := by
  unfold Obligations.InterruptExit
  intro s moves hwf hscript
  rw [step_isrExit hwf hscript, ← State.mayExit_iff]
  exact ⟨fun h => by rw [if_pos h], fun h => by rw [if_neg h]⟩

/-- Settles O23: each of the four moves asks first whether its context may step. -/
theorem preemptedContextDoesNothing : Obligations.PreemptedContextDoesNothing := by
  unfold Obligations.PreemptedContextDoesNothing
  intro s x m moves hwf hx hm hscript
  have hmay : ¬ (s.setScript moves).mayStep x = true := fun h => hx (State.mayStep_iff.mp h).2.symm
  rw [step_of_script hwf hscript]
  rcases hm with ⟨w, rfl⟩ | ⟨rx, rfl⟩ | ⟨j, e, rfl⟩ | ⟨j, b, rfl⟩ <;> exact if_neg hmay

/-- Settles O25: each of these steps is `reentry`, for the issued word or for the word of the command at its LOCK_ACQ. -/
theorem reentryFaultsOrIsRefused : Obligations.ReentryFaultsOrIsRefused := by
  unfold Obligations.ReentryFaultsOrIsRefused
  refine ⟨fun s c w moves hwf hscript hf hs => ?_, fun s i c hi hr hheld => ⟨fun h => ?_, ?_⟩⟩
  · rw [step_of_script hwf hscript, takeMove, issue_occupied (mayStep_setScript hf) ((s.setScript_slot _ _).trans hs)]
    exact reentry_outcome w (s.setScript moves)
  · rw [exec_lockAcq_held hi hr hheld h]
    exact reentry_outcome c.word s
  · rintro maxBits w n rfl hx hp hc ha h0 hfit
    rw [exec_endsFrame ⟨hr, hp, hc⟩, afterFrame_append ha h0 hfit,
      openTransaction_isr_held ((s.setAb_ctx _).trans hx) ((s.setAb_lockHeld _).trans hheld), ← hx]
    exact reentry_outcome c.word (s.setAb (writeBits s.ab c.total w n))

end Sys2Proof.Machine
end

section
/-! PROOFS. How a transaction opens and closes, from the end of the block before or from a block that stands whole (R194-R196). -/

namespace Sys2Proof.Machine

/-! ## What an opening and a closing do to the engine -/

/-- What the opening of the running context's transaction does to mask, lock and chip-select, and its events (R194, R196). -/
structure Opens (s t : State) : Prop where
  history    : t.history = s.history ++ openEvents s.cfg s.ctx
  lockHeld   : t.lockHeld = true
  lockOwner  : t.lockOwner = some s.ctx
  irqMasked  : t.irqMasked = (decide (s.ctx = .fg) || s.irqMasked)
  csAsserted : t.csAsserted = (decide (s.cfg.csMode = .perTransaction) || s.csAsserted)

/-- What the closing of the running context's transaction does to mask, lock and chip-select, and its events (R194, R196). -/
structure Closes (s t : State) : Prop where
  history    : t.history = s.history ++ closeEvents s.cfg s.ctx
  lockHeld   : t.lockHeld = false
  lockOwner  : t.lockOwner = none
  irqMasked  : t.irqMasked = (if s.ctx = .fg then false else s.irqMasked)
  csAsserted : t.csAsserted = (if s.cfg.csMode = .perTransaction then false else s.csAsserted)

section
variable {s t u : State} {i : Instr} {c d : InFlight} {rxs rest : List Byte} {q : Byte} {m : Bool}

theorem Opens.of_prepares (hu : Prepares i c (s.receive q) u) (h : Opens u t) : Opens s t := by
  rw [hu.same] at h
  exact ⟨h.history, h.lockHeld, h.lockOwner, h.irqMasked, h.csAsserted⟩

theorem Closes.of_prepares (hu : Prepares i c (s.receive q) u) (h : Closes u t) : Closes s t := by
  rw [hu.same] at h
  exact ⟨h.history, h.lockHeld, h.lockOwner, h.irqMasked, h.csAsserted⟩

theorem Opens.putSlot (h : Opens s t) (x : Ctx) (o : Option InFlight) : Opens s (t.putSlot x o) := by
  cases x <;> exact ⟨h.history, h.lockHeld, h.lockOwner, h.irqMasked, h.csAsserted⟩

theorem Closes.putSlot (h : Closes s t) (x : Ctx) (o : Option InFlight) : Closes s (t.putSlot x o) := by
  cases x <;> exact ⟨h.history, h.lockHeld, h.lockOwner, h.irqMasked, h.csAsserted⟩

theorem driveAll_openPrims (hlen : rxs.length = (openPrims s.cfg s.ctx).length) :
    Opens s (s.driveAll m (openPrims s.cfg s.ctx) rxs) := by
  cases hx : s.ctx <;> cases hm : s.cfg.csMode <;> simp only [openPrims, hx, hm] at hlen ⊢
  on_goal 1 => obtain ⟨a, b, r, rfl⟩ := List.length_eq_three.mp hlen
  on_goal 2 => obtain ⟨a, b, rfl⟩ := List.length_eq_two.mp hlen
  on_goal 3 => obtain ⟨a, b, rfl⟩ := List.length_eq_two.mp hlen
  on_goal 4 => obtain ⟨a, rfl⟩ := List.length_eq_one_iff.mp hlen
  all_goals constructor <;> simp [State.driveAll, State.drive, openEvents, hx, hm]

theorem driveAll_closePrims (hlen : rxs.length = (closePrims s.cfg s.ctx).length) :
    Closes s (s.driveAll m (closePrims s.cfg s.ctx) rxs) := by
  cases hx : s.ctx <;> cases hm : s.cfg.csMode <;> simp only [closePrims, hx, hm] at hlen ⊢
  on_goal 1 => obtain ⟨a, b, r, rfl⟩ := List.length_eq_three.mp hlen
  on_goal 2 => obtain ⟨a, b, rfl⟩ := List.length_eq_two.mp hlen
  on_goal 3 => obtain ⟨a, b, rfl⟩ := List.length_eq_two.mp hlen
  on_goal 4 => obtain ⟨a, rfl⟩ := List.length_eq_one_iff.mp hlen
  all_goals constructor <;> simp [State.driveAll, State.drive, closeEvents, hx, hm]

theorem answers_openPrims (cfg : Config) (x : Ctx) : answers (openPrims cfg x) rxs = [] :=
  answers_eq_nil (by simp [openPrims]) rxs

theorem answers_closePrims (cfg : Config) (x : Ctx) : answers (closePrims cfg x) rxs = [] :=
  answers_eq_nil (by simp [closePrims]) rxs

/-! ## Runs through an opening or a closing -/

/-- The step that begins a block drives the engine by the block's first primitive (log 5), from a state that the pseudocode prepared
(log 12). -/
theorem begins_drive (h : s.begins i c q t d) (hfree : d.point = .opened → s.lockHeld = false) :
    ∃ u p, Prepares i c (s.receive q) u ∧ (d.point = .opened → c.point.inBody = false) ∧ d.word = c.word ∧
      blockPrims s.cfg s.ctx d.point = p :: d.todo ∧ t = (u.drive d.tainted (p, q)).putSlot s.ctx (some d) := by
  obtain ⟨u, e, hu, he, hexec⟩ := begins_performNext h
  obtain ⟨-, -, -, -, hnofault, hslot⟩ := h
  have hx : u.ctx = s.ctx := hu.keeps.ctx
  have hq : u.receive q = u := by rw [← show u.rxIn = q from hu.keeps.rxIn]; rfl
  have hpoint : d.point = e.point := performNext_point hexec hnofault (by rwa [hx])
  have htodo : e.todo = blockPrims s.cfg s.ctx d.point := hpoint ▸ he.todo
  obtain ⟨p, ps, hps⟩ : ∃ p ps, e.todo = p :: ps :=
    List.exists_cons_of_ne_nil fun hnil => by rw [performNext, hnil] at hexec; cases hexec
  have hlock (hp : p = .lockAcq) : u.lockHeld = false := by
    have hmem : .lockAcq ∈ blockPrims s.cfg s.ctx d.point := by rw [← htodo, hps, hp]; exact List.mem_cons_self
    rw [hu.same]; exact hfree (lockAcq_mem_block hmem)
  have hdrive := perform_drive (s := u) (rx := q) (c := { e with todo := ps }) hlock
  rw [hq, ← performNext_cons e u p ps hps, hexec, hx] at hdrive
  cases hdrive
  rw [State.putSlot_slot_same] at hslot
  cases hslot
  exact ⟨u, p, hu, fun ho => he.opens (hpoint.symm.trans ho), he.word, htodo.symm.trans hps, rfl⟩

/-- In a block that takes the lock once, the lock is still free at a LOCK_ACQ that comes after another primitive. -/
theorem drive_lockHeld_before {p : Prim} {ps : List Prim} (honce : (p :: ps).count .lockAcq ≤ 1) (hm : .lockAcq ∈ ps)
    (hfree : s.lockHeld = false) : (s.drive m (p, q)).lockHeld = false := by
  refine drive_lockHeld ?_ hfree
  rintro rfl
  have := List.count_pos_iff.mpr hm
  rw [List.count_cons_self] at honce
  omega

/-- A block without exchanges that a step has just begun, run to its end, drives the engine through all the block's primitives, from a
state that the pseudocode prepared. -/
theorem execRun_begunBlock (h : s.begins i c q t d) (hfree : d.point = .opened → s.lockHeld = false)
    (hno : ∀ src, .xchg src ∉ blockPrims s.cfg s.ctx d.point)
    (hlen : rest.length + 1 = (blockPrims s.cfg s.ctx d.point).length) :
    ∃ u, Prepares i c (s.receive q) u ∧ u.pageCache = t.pageCache ∧ (d.point = .opened → c.point.inBody = false) ∧
      execRun i rest t = .next ((u.driveAll d.tainted (blockPrims u.cfg u.ctx d.point) (q :: rest)).putSlot s.ctx
        (some { d with todo := [] })) := by
  obtain ⟨u, p, hu, hopens, hword, hblock, ht⟩ := begins_drive h hfree
  obtain ⟨hi, hr, -, -, hnofault, hslot⟩ := h
  have hx : t.ctx = s.ctx := by rw [ht, State.putSlot_ctx, drive_same]; exact hu.keeps.ctx
  have honce : (p :: d.todo).count .lockAcq ≤ 1 := hblock ▸ blockPrims_lockAcq_once _ _ _
  have free (hm : .lockAcq ∈ d.todo) : t.lockHeld = false := by
    have hheld : u.lockHeld = s.lockHeld := by rw [hu.same]; rfl
    rw [ht, State.putSlot_lockHeld]
    exact drive_lockHeld_before honce hm (hheld.trans (hfree (lockAcq_mem_block (hblock ▸ List.mem_cons_of_mem p hm))))
  have hrun := execRun_prims (ps := d.todo) (rest := []) (rxs := rest) ⟨hnofault, by rwa [hx], .inl ⟨hi, hword.trans hr.2.2⟩⟩
    (List.append_nil _).symm (by rw [hblock] at hlen; exact Nat.succ_inj.mp hlen) (List.count_le_count_cons.trans honce) free
  rw [answers_eq_nil fun src hm => hno src (hblock ▸ List.mem_cons_of_mem p hm), List.append_nil, hx] at hrun
  refine ⟨u, hu, by rw [ht, State.putSlot_pageCache, drive_same], hopens, hrun.trans ?_⟩
  rw [ht, driveAll_putSlot, putSlot_putSlot, hu.keeps.cfg, hu.keeps.ctx, State.receive_cfg, State.receive_ctx, hblock, driveAll_cons]

/-- From the end of the block before, an opening runs whole (R194, R196). -/
theorem execRun_opening (hi : i.isCommand = true) (hr : s.runs i c) (hc : c.todo = []) (hfree : s.lockHeld = false)
    (hp : ∀ u, proceed i c u = openTransaction d u) (hw : d.word = c.word)
    (hlen : rxs.length = (openPrims s.cfg s.ctx).length) : ∃ t, execRun i rxs s = .next t ∧ Opens s t ∧
      t.pageCache = s.pageCache ∧ t.slot s.ctx = some { d with point := .opened, todo := [] } := by
  have hrun := execRun_next_block (d := { d with point := .opened, todo := openPrims s.cfg s.ctx }) hi hr hc (fun q => hp _) hw rfl
    (fun _ => hfree) hlen (openPrims_ne_nil _ _)
  refine ⟨_, hrun, (driveAll_openPrims hlen).putSlot _ _, ?_, ?_⟩
  · rw [State.putSlot_pageCache, driveAll_pageCache]
  · rw [State.putSlot_slot_same, answers_openPrims, List.append_nil]

/-- An opening that a step has just begun, a FIFORDALL's later ones too, runs to its end. -/
theorem execRun_begunOpening (h : s.begins i c q t d) (hp : d.point = .opened) (hfree : s.lockHeld = false)
    (hlen : rest.length + 1 = (openPrims s.cfg s.ctx).length) : ∃ t', execRun i rest t = .next t' ∧ Opens s t' ∧
      t'.pageCache = s.pageCache ∧ t'.slot s.ctx = some { d with todo := [] } := by
  obtain ⟨u, hu, -, hopens, hrun⟩ := execRun_begunBlock h (fun _ => hfree) (by simp [hp, blockPrims, openPrims]) (by rwa [hp])
  have hcache : u.pageCache = s.pageCache := hu.cache.resolve_right fun ⟨_, f, hf⟩ => by
    rw [hf] at hopens; cases hopens hp
  have hopen : Opens u (u.driveAll d.tainted (blockPrims u.cfg u.ctx d.point) (q :: rest)) := by
    rw [hp]; exact driveAll_openPrims (by rw [hu.keeps.cfg, hu.keeps.ctx]; exact hlen)
  refine ⟨_, hrun, (hopen.of_prepares hu).putSlot _ _, ?_, State.putSlot_slot_same _ _ _⟩
  rw [State.putSlot_pageCache, driveAll_pageCache, hcache]

/-- A closing that a step has just begun runs to its end. -/
theorem execRun_begunClosing (h : s.begins i c q t d) (hp : d.point = .closed)
    (hlen : rest.length + 1 = (closePrims s.cfg s.ctx).length) : ∃ t', execRun i rest t = .next t' ∧ Closes s t' ∧
      t'.pageCache = t.pageCache ∧ t'.slot s.ctx = some { d with todo := [] } := by
  obtain ⟨u, hu, hcache, -, hrun⟩ := execRun_begunBlock h (by simp [hp]) (by simp [hp, blockPrims, closePrims]) (by rwa [hp])
  have hclose : Closes u (u.driveAll d.tainted (blockPrims u.cfg u.ctx d.point) (q :: rest)) := by
    rw [hp]; exact driveAll_closePrims (by rw [hu.keeps.cfg, hu.keeps.ctx]; exact hlen)
  refine ⟨_, hrun, (hclose.of_prepares hu).putSlot _ _, ?_, State.putSlot_slot_same _ _ _⟩
  rw [State.putSlot_pageCache, driveAll_pageCache, hcache]

/-- A closing that stands whole runs to its end. -/
theorem execRun_closing (hi : i.isCommand = true) (hr : s.runs i c) (hc : c.todo = closePrims s.cfg s.ctx)
    (hlen : rxs.length = (closePrims s.cfg s.ctx).length) : ∃ t, execRun i rxs s = .next t ∧ Closes s t ∧
      t.slot s.ctx = some { c with todo := [] } := by
  have hrun := execRun_prims (ps := c.todo) (rest := []) (rxs := rxs) ⟨hr.1, hr.2.1, .inl ⟨hi, hr.2.2⟩⟩ (List.append_nil _).symm
    (hc ▸ hlen) (hc ▸ blockPrims_lockAcq_once s.cfg s.ctx .closed) (by simp [hc, closePrims])
  rw [hc, answers_closePrims, List.append_nil] at hrun
  exact ⟨_, hrun, (driveAll_closePrims hlen).putSlot _ _, State.putSlot_slot_same _ _ _⟩

end

/-- Settles O32: whether it stands whole or a step begins it, an opening or a closing is its block's primitives. -/
theorem transactionBracket : Obligations.TransactionBracket := by
  unfold Obligations.TransactionBracket
  intro s i c hi hne hr
  rw [openEvents_length, closeEvents_length]
  refine ⟨fun rxs hp hc hfree hlen => ?_, fun q t d rest h hp hfree hlen => ?_, fun q t d rest h hp hlen => ?_, fun rxs hc hlen => ?_⟩
  · obtain ⟨n, hproceed, hn⟩ := proceed_accepted hi hne hp
    obtain ⟨t, hrun, ho, hcache, hslot⟩ := execRun_opening hi hr hc hfree hproceed rfl hlen
    exact ⟨t, hrun, ho.history, ho.lockHeld, ho.lockOwner, ho.irqMasked, ho.csAsserted, hcache, _, hslot, rfl, rfl, rfl, rfl, hn⟩
  · obtain ⟨t', hrun, ho, hrest⟩ := execRun_begunOpening h hp hfree hlen
    exact ⟨t', hrun, ho.history, ho.lockHeld, ho.lockOwner, ho.irqMasked, ho.csAsserted, hrest⟩
  · obtain ⟨t', hrun, hcl, hrest⟩ := execRun_begunClosing h hp hlen
    exact ⟨t', hrun, hcl.history, hcl.lockHeld, hcl.lockOwner, hcl.irqMasked, hcl.csAsserted, hrest⟩
  · obtain ⟨t, hrun, hcl, hslot⟩ := execRun_closing hi hr hc hlen
    exact ⟨t, hrun, hcl.history, hcl.lockHeld, hcl.lockOwner, hcl.irqMasked, hcl.csAsserted, hslot⟩

end Sys2Proof.Machine
end

section
/-! PROOFS. Exceptions: the edge that latches, the halted engine, and what raising a fault leaves as it was (R212, R213, R216, R220). -/

namespace Sys2Proof.Machine

section
variable {s t : State} {i : Instr} {f : Frame} {m : Move}

/-! ## The interrupt line and the halted engine (R213, R220) -/

theorem lineEdge_eq (e : Edge) (s : State) :
    lineEdge e s = { s with irqPending := s.irqPending || decide (e = s.cfg.edge) } := by
  unfold lineEdge
  split
  next h => simp [h]
  next h => simp [h]

/-- Every move but an edge asks first that the engine has not halted. -/
theorem takeMove_halted (h : s.fault ≠ .noFault) (hm : ∀ e, m ≠ .edge e) : takeMove m s = .next s := by
  have hstop (x : Ctx) : ¬ s.mayStep x = true := fun hmay => h (State.mayStep_iff.mp hmay).1
  cases m with
  | edge e => exact absurd rfl (hm e)
  | isrEnter =>
    have hout : ¬ s.mayEnter = true := fun hmay => h (State.mayEnter_iff.mp hmay).2.2.2
    rw [takeMove, isrEnter, if_neg hout]
  | isrExit =>
    have hin : ¬ s.mayExit = true := fun hmay => h (State.mayExit_iff.mp hmay).2.2
    rw [takeMove, isrExit, if_neg hin]
  | issue x w => exact if_neg (hstop x)
  | engine x rx => exact if_neg (hstop x)
  | writeEB x n e => exact if_neg (hstop x)
  | writePB x n b => exact if_neg (hstop x)

/-! ## What raising a fault leaves as it was (R212, R216) -/

/-- A step of a command in an engine that has not halted records no fault, or raises one in the state it found. -/
theorem CommandStep.noFault_or_raised (h : CommandStep i s t) (hinv : s.Inv) (hf : s.fault = .noFault) :
    t.fault = .noFault ∨ ∃ code info, t = s.raised code info := by
  cases h with
  | halted hf' => exact absurd hf hf'
  | accepts _ _ ht => exact .inl (by rwa [ht, State.putSlot_fault])
  | raises code info _ _ ht => exact .inr ⟨code, info, ht⟩
  | reenters c u info hr _ _ hheld hc => exact (hinv.not_reenters hr hheld hc).elim
  | goesOn c d p _ _ hp => exact .inl (hp.fault.trans hf)
  | begins c d u p _ _ hu _ hp => exact .inl (by rwa [hp.fault, hu.same])
  | answers c u r _ _ hu ht => exact .inl (by rwa [ht, State.emit_fault, State.putSlot_fault, hu.same])
  | invalidates c r _ _ _ ht => exact .inl (by rwa [ht, State.emit_fault, State.putSlot_fault])

/-- A wire frame's primitive records no fault. -/
theorem runFrame_fault (hinv : s.Inv) (h : runFrame f s = .next t) : t.fault = s.fault := by
  rcases runFrame_next hinv h with rfl | ⟨p, c, m, hmem, rfl⟩
  · rfl
  · rw [State.putSlot_fault, drive_framePrim hmem]

theorem exec_noFault_or_raised (hinv : s.Inv) (hf : s.fault = .noFault) (h : exec i s = .next t) :
    t.fault = .noFault ∨ ∃ code info, t = s.raised code info := by
  cases hi : i.isCommand with
  | true => exact (exec_step hi h).noFault_or_raised hinv hf
  | false =>
    obtain ⟨f, -, hstep⟩ := exec_wireFrame hi
    exact .inl ((runFrame_fault hinv ((hstep s).symm.trans h)).trans hf)

end

/-- Settles O19: an edge latches if it is the configured one, and every other move is dropped. -/
theorem haltedEngineLatchesEdgesOnly : Obligations.HaltedEngineLatchesEdgesOnly := by
  unfold Obligations.HaltedEngineLatchesEdgesOnly
  intro s m moves hwf hf hscript
  rw [step_of_script hwf hscript]
  by_cases hm : ∃ e, m = .edge e
  · obtain ⟨e, rfl⟩ := hm
    simp [takeMove, lineEdge_eq, State.setScript]
  · rw [not_exists] at hm
    rw [takeMove_halted (s := s.setScript moves) hf hm]
    simp [State.setScript, hm s.cfg.edge]

/-- Settles O58: a command's step raises the fault in the state it found, and a wire frame's records none. -/
theorem raisingLeavesTheRest : Obligations.RaisingLeavesTheRest := by
  unfold Obligations.RaisingLeavesTheRest
  intro s t i hinv hf h hfault
  obtain ⟨code, info, rfl⟩ := (exec_noFault_or_raised hinv hf h).resolve_left hfault
  rfl

/-- Settles O20: the edge of the move is the configured one, so it latches. -/
theorem edgeLatches : Obligations.EdgeLatches := by
  unfold Obligations.EdgeLatches
  intro s moves hwf hscript
  have hstep : step s = .next { s with script := moves, irqPending := true } := by
    simp [step_of_script hwf hscript, takeMove, lineEdge_eq, State.setScript]
  refine ⟨hstep, fun hpending => ?_⟩
  rw [hstep, ← hpending]
  rfl

end Sys2Proof.Machine
end

section
/-! PROOFS. Reset: the values the engine starts from (R240, R242). -/

namespace Sys2Proof.Machine

/-- Settles O9: every clause reads one field of the record that `State.resetWith` builds; two take their value from the
configuration, the others have the same value under every configuration. -/
theorem resetValues : Obligations.ResetValues := by
  unfold Obligations.ResetValues
  rintro cfg _ rfl
  exact ⟨rfl, rfl, rfl, rfl, rfl, rfl, rfl, rfl, rfl, rfl, rfl, rfl⟩

end Sys2Proof.Machine
end
